-- ==== Sys2Proof/Word.lean ====
section
/-! DEFINITION. The word types of the RBFC block (spec/00_scope.md R8, spec/30_encoding.md R80). All values are unsigned. -/

namespace Sys2Proof

/-- A 32-bit register or data word (20_memory R62). -/
abbrev Word := BitVec 32

/-- One byte of ring storage or of the serial line. -/
abbrev Byte := BitVec 8

/-- One command word: one bus transaction (30_encoding R80). -/
abbrev CommandWord := BitVec 48

/-- The header of a command word, its upper sixteen bits (30_encoding R80). -/
abbrev Header := BitVec 16

end Sys2Proof
end

