-- ==== Sys2Proof/Config.lean ====
section
/-! DEFINITION. The implementation parameters of 00_scope R6 as one record, their defaults, their constraints, and the values
the spec leaves free. The record is a field of the machine's state that no step writes (assumption log 1). -/

namespace Sys2Proof

/-- The parameters of 00_scope R6. DESIGN CHOICE (safe): they are a field of the state, so that a statement about every
state holds for every choice of them; see assumption log 1. -/
structure Params where
  /-- `NPORTS`, the number of UART ports, 1 to 4. -/
  nports : Nat
  /-- `NSRC`, the number of interrupt sources, 1 to 32. -/
  nsrc : Nat
  /-- `UART_SRC(p)`, the source wired to port `p`. -/
  uartSrc : Vector (BitVec 5) 4
  /-- `UART_ISR_TOKEN(p)`, the handler token of port `p`'s service routine. -/
  isrToken : Vector Word 4
  /-- `RING_AW`, log2 of the storage of each ring, 0 to 15. -/
  ringAw : Nat
  /-- `HWFIFO_AW`, log2 of the depth of each hardware FIFO, 1 to 7. -/
  hwfifoAw : Nat
  /-- `SYNC_RING`, synchroniser depth of the rings, 0 or at least 2. -/
  syncRing : Nat
  /-- `SYNC_HWFIFO`, synchroniser depth of the hardware FIFOs, 0 or at least 2. -/
  syncHwfifo : Nat
  /-- `BAUD_MOD`, the fixed modulus of the baud divisor, at least 1. -/
  baudMod : BitVec 16
  /-- `F_CLK` in Hz where a run fixes it; `none` is the spec's OPEN (assumption log 2). -/
  fClk : Option Nat
  /-- `BUSY_BOUND`, the optional bound on busy-wait polls. -/
  busyBound : Option Nat
  /-- `RXBYTE_QUIRK`: the blocking receive reads the transmit ring. -/
  rxbyteQuirk : Bool
deriving DecidableEq, Repr

/-- The defaults of 00_scope R6. -/
def Params.default : Params where
  nports := 2
  nsrc := 32
  uartSrc := #v[1, 2, 3, 4]
  isrToken := #v[0x1000, 0x1001, 0x1002, 0x1003]
  ringAw := 8
  hwfifoAw := 5
  syncRing := 0
  syncHwfifo := 2
  baudMod := 10000
  fClk := none
  busyBound := none
  rxbyteQuirk := true

/-- The constraint column of 00_scope R6. -/
abbrev Params.wf (P : Params) : Prop :=
  (1 ≤ P.nports ∧ P.nports ≤ 4) ∧ (1 ≤ P.nsrc ∧ P.nsrc ≤ 32) ∧
  (∀ p : Fin 4, p.val < P.nports → (P.uartSrc[p.val]).toNat < P.nsrc) ∧
  (∀ p q : Fin 4, p.val < P.nports → q.val < P.nports → p ≠ q →
    P.uartSrc[p.val] ≠ P.uartSrc[q.val] ∧ P.isrToken[p.val] ≠ P.isrToken[q.val]) ∧
  P.ringAw ≤ 15 ∧ (1 ≤ P.hwfifoAw ∧ P.hwfifoAw ≤ 7) ∧
  P.syncRing ≠ 1 ∧ P.syncHwfifo ≠ 1 ∧ P.baudMod ≠ 0 ∧
  P.fClk ≠ some 0 ∧ P.busyBound ≠ some 0

/-- `OSR`, baud ticks per bit (00_scope R6, fixed). -/
def osr : Nat := 16

/-! ### Values the spec leaves free. They have no body: no proof can see what they are. -/

/-- FREE VALUE. The n-th byte drawn (00_scope R9 `draw`; 93_implementation_defined U9, U10; assumption log 6). -/
opaque Config.freeByte : Nat → Byte

/-- FREE VALUE. The n-th word drawn (93_implementation_defined U11; assumption log 6). -/
opaque Config.freeWord : Nat → Word

/-- FREE VALUE. One less than `F_CLK` where no run fixes it (00_scope R6, OPEN with the constraint `> 0`). -/
opaque Config.fClkPred : Nat

/-- FREE VALUES. The base addresses in words (00_scope R6, OPEN, word aligned; no rule uses them). -/
opaque Config.baseItcWords : Nat
opaque Config.baseRbWords : Nat
opaque Config.baseUartWords : Nat → Nat

end Sys2Proof
end

