-- ==== Sys2Proof/Machine/State.lean ====
section
/-! DEFINITION. The state of the machine as plain data: the block's three units (spec/10_state.md R22 to R28), the host's
contexts and programs (R20, R21, spec/60_exceptions.md R270 to R284), the environment's pins, the schedule, and the state
after reset (spec/70_reset_and_hazards.md R301). -/

namespace Sys2Proof.Machine

/-! ### Outcomes -/

/-- The faults of 60_exceptions R271. The run ends; a fault is no event of the hardware. Each is SAFE: where the hardware
does something the spec does not say, the model stops. -/
inductive Fault where
  /-- a sequence reads a host temporary it never wrote; raised by the evaluation of an expression (10_state R20) -/
  | unwrittenTemporary
  /-- a command word that is no operation of the block; raised by decoding and by the index check of each primitive
  (20_memory R64, 30_encoding R87) -/
  | busUndefined
  /-- `RB.write` with `FULL`; raised by `RB.WRITE` (40_ring_buffer R104) -/
  | rbWriteFull
  /-- `RB.read` with `EMPTY`; raised by `RB.READ` (40_ring_buffer R105) -/
  | rbReadEmpty
  /-- `RB.init` above the instance's storage; raised by `RB.INIT` (40_ring_buffer R106) -/
  | badCapacity
  /-- a source operand not below `NSRC`; raised by the seven ITC commands with a source id (41_interrupt_controller R161) -/
  | badSource
  /-- a service sequence with nothing to dispatch; raised by `ITC.SERVICE_NORMAL`, `ITC.SERVICE_FAST` (41 R172, R173) -/
  | spuriousDispatch
  /-- a dispatch to a source without a handler, or `Invoke` of a token with no program (41 R172, R173, 60 R284) -/
  | noHandler
  /-- `UBR` written with `TXE` or `RXE` set; raised by `UART.BR.W` (42_uart_engine R192) -/
  | baudWhileEnabled
  /-- `INC > MOD > 0`; raised by `UART.BR.W` (42_uart_engine R192) and by `UART.INIT` (43_uart_driver R242) -/
  | badDivisor
  /-- `SEND`, `RECEIVE`, `SEND_BYTE`, `RECEIVE_BYTE`, `ISR` with `p ≥ NPORTS` (43_uart_driver R240) -/
  | badPort
deriving DecidableEq, Repr

/-- Refusals. The one kind is raised by an arm of `exec` that gives its instruction no meaning yet (SAFE: the model stops);
in this model no arm does, and no meaning refuses anything. -/
inductive Refusal where
  /-- the instruction of this mnemonic has no meaning yet -/
  | notModelled (mnemonic : String)
deriving DecidableEq, Repr

/-! ### Memories -/

/-- Bytes by address. The canonical form is `Memory.wf`; an unlisted address holds no value (assumption logs 5, 17). -/
abbrev Memory := List Host.Cell

/-- The canonical form: addresses strictly rising. No entry can equal what an unlisted address reads as, for an unlisted
address holds no value. -/
abbrev Memory.wf (m : Memory) : Prop := (m.map Prod.fst).Pairwise (· < ·)

/-! ### The RB unit (10_state R22, R23) -/

/-- One RB instance. `wqR` and `rqW` are the two pointer copies; they are state only when the instance's synchroniser depth
is positive (R22; assumption log 22). -/
structure RB where
  k : BitVec 5
  mem : Memory
  wbin : BitVec 16
  rbin : BitVec 16
  wqR : BitVec 16
  rqW : BitVec 16
deriving DecidableEq, Repr

/-- An instance after reset: `K = AW(I)`, pointers 0, no byte written (R22, 70_reset R301). -/
def RB.reset (aw : Nat) : RB where
  k := BitVec.ofNat 5 aw
  mem := []
  wbin := 0
  rbin := 0
  wqR := 0
  rqW := 0

/-! ### The ITC unit (10_state R24) -/

structure Itc where
  nae : Bool
  fae : Bool
  prithr : BitVec 6
  intenable : Word
  inttype : Word
  intfrc : Word
  intsave : Word
  vecvalid : Word
  vect : Vector Word 32
deriving DecidableEq, Repr

/-- The ITC after reset (70_reset R301). `VECT` is unspecified there; DESIGN CHOICE 0, assumption log 4. -/
def Itc.reset : Itc where
  nae := false
  fae := false
  prithr := 0
  intenable := 0
  inttype := 0
  intfrc := 0
  intsave := 0
  vecvalid := 0
  vect := Vector.replicate 32 0

/-! ### The UART unit (10_state R25, R26) -/

inductive TxState where
  | idle | start | data | par | stop
deriving DecidableEq, Repr

inductive RxState where
  | idle | start | data | par | stop
deriving DecidableEq, Repr

/-- One port: its registers (R25), its hardware FIFOs (R23), its engines (R26) and its input pins (R28). -/
structure Port where
  -- UCON
  txe : Bool
  rxe : Bool
  pen : Bool
  eps : Bool
  fce : Bool
  mtxr : Bool
  mrxr : Bool
  -- USTAT, the sticky flags
  fe : Bool
  pe : Bool
  oe : Bool
  ue : Bool
  toe : Bool
  -- watermarks, divisor, callbacks
  rxwm : BitVec 8
  txwm : BitVec 8
  brMod : BitVec 16
  brInc : BitVec 16
  ucbrx : Word
  ucbtx : Word
  cbvalidTx : Bool
  cbvalidRx : Bool
  -- the hardware FIFOs
  hwtx : RB
  hwrx : RB
  -- the baud generator and the transmit engine
  bacc : BitVec 17
  txstate : TxState
  txsr : BitVec 8
  txbit : BitVec 3
  txtick : BitVec 4
  txpar : Bool
  txdO : Bool
  -- the receive engine
  rxstate : RxState
  rxsr : BitVec 8
  rxbit : BitVec 3
  rxtick : BitVec 4
  rxperr : Bool
  rxdS : Bool
  rtsS : Bool
  -- the input pins, driven by LINE(p)
  rxdI : Bool
  rtsI : Bool
deriving DecidableEq, Repr

/-- A port after reset, its pins at the given levels: reset does not drive them (70_reset R301, R302).
`UCBRX` and `UCBTX` are unspecified there; DESIGN CHOICE 0, assumption log 4. -/
def Port.reset (aw : Nat) (rxdI rtsI : Bool) : Port where
  txe := false
  rxe := false
  pen := false
  eps := false
  fce := false
  mtxr := true
  mrxr := true
  fe := false
  pe := false
  oe := false
  ue := false
  toe := false
  rxwm := 1
  txwm := 1
  brMod := 0
  brInc := 0
  ucbrx := 0
  ucbtx := 0
  cbvalidTx := false
  cbvalidRx := false
  hwtx := RB.reset aw
  hwrx := RB.reset aw
  bacc := 0
  txstate := .idle
  txsr := 0
  txbit := 0
  txtick := 0
  txpar := false
  txdO := true
  rxstate := .idle
  rxsr := 0
  rxbit := 0
  rxtick := 0
  rxperr := false
  rxdS := true
  rtsS := true
  rxdI := rxdI
  rtsI := rtsI

/-! ### The language of the sequences (00_scope R9, 43_uart_driver R240) -/

/-- A host temporary's number (10_state R20; the spec's names are numbered in Machine/Sequences.lean). -/
abbrev Temp := Nat

/-- Expressions on host temporaries: 32-bit unsigned. -/
inductive Expr where
  | lit (v : Word)
  | tmp (t : Temp)
  | add (a b : Expr)
  | and (a b : Expr)
  | or (a b : Expr)
  | shl (a : Expr) (n : Nat)
  | shr (a : Expr) (n : Nat)
  /-- bit number `i` of `a`, as 0 or 1 -/
  | bit (a i : Expr)
deriving DecidableEq, Repr

/-- Tests on host temporaries. -/
inductive Cond where
  | eq (a b : Expr)
  | ne (a b : Expr)
  | both (c d : Cond)
deriving DecidableEq, Repr

inductive PriorityClass where
  | fast | normal
deriving DecidableEq, Repr

/-- The driver sequences of 30_encoding R90 with their arguments of type `α`: expressions in a program, words in a call.
A token `none` is SE's "none"; a name `none` is SE's "absent". `buf` is the address of the caller's buffer. -/
inductive Seq (α : Type) where
  | itcInit
  | itcSetPriority (s : α) (c : PriorityClass)
  | serviceNormal
  | serviceFast
  | uartInit (p baud : α) (name : Option α)
  | sendByte (p b : α)
  | receiveByte (p : α)
  | send (p buf n : α)
  | receive (p buf n : α)
  | setReceiveCallback (p : α) (cb : Option α)
  | setSendCallback (p : α) (cb : Option α)
  | isr (p : α)
deriving DecidableEq, Repr

/-- The error kinds a driver sequence reports (60_exceptions R270). -/
inductive ErrKind where
  | noSuchDevice | badAddress | timeout
deriving DecidableEq, Repr

/-- The results of driver sequences (60_exceptions R270). -/
inductive Result where
  | ok
  | okValue (v : Word)
  | err (e : ErrKind)
deriving DecidableEq, Repr

/-- What a `return` line hands back: nothing (the bare `return` of a handler, a service sequence or a service routine;
assumption log 33), `Ok`, `Ok(v)` or `Err(kind)`. -/
inductive Answer where
  | plain
  | ok
  | okValue (e : Expr)
  | err (e : ErrKind)
deriving DecidableEq, Repr

/-- One of the four pin roles (43_uart_driver R242 line 4). -/
inductive PinRole where
  | tx | cts | rx | rts
deriving DecidableEq, Repr

/-- The opaque environment calls of 43_uart_driver R241. -/
inductive EnvCall where
  | pinConfig (port : Word) (role : PinRole)
  | devRegister (name : Word) (port : Word)
deriving DecidableEq, Repr

/-- One statement of a sequence (00_scope R9, 43_uart_driver R240). Targets are positions in the same program. -/
inductive Stmt where
  /-- one bus transaction: the header is the low 16 bits of `hdr`; the answer goes to `dst` -/
  | bus (dst : Option Temp) (hdr data : Expr)
  | set (t : Temp) (e : Expr)
  /-- go to `target` if the test holds -/
  | branch (c : Cond) (target : Nat)
  | goto (target : Nat)
  /-- `Invoke(t)` (60_exceptions R284) -/
  | invoke (token : Expr)
  /-- run a driver sequence (60_exceptions R294) -/
  | call (dst : Option Temp) (q : Seq Expr)
  /-- `t <- buf[i]`, the byte of host memory at an address (10_state R20) -/
  | loadByte (t : Temp) (addr : Expr)
  /-- `buf[i] <- v[7:0]` -/
  | storeByte (addr v : Expr)
  | env (c : EnvCall)
  /-- a wait loop begins: no poll made yet (43_uart_driver R259) -/
  | waitStart
  /-- a poll found nothing: poll again at `target`, or give up (43_uart_driver R259) -/
  | waitAgain (target : Nat)
  | ret (a : Answer)
  /-- `raise Fault(kind)` -/
  | raise (f : Fault)
deriving DecidableEq, Repr

/-- A statement and whether entry is shut at the gap before it (60_exceptions R282(b)). -/
structure Line where
  stmt : Stmt
  shut : Bool := false
deriving DecidableEq, Repr

abbrev Program := List Line

/-! ### The host (10_state R20, R21, 60_exceptions R280 to R284) -/

/-- One activation of one program: its position, its temporaries, the poll count of its wait loop (assumption log 24), and
the caller's temporary that takes its result. -/
structure Activation where
  prog : Program
  pos : Nat
  temps : List (Temp × Word)
  polls : Nat
  dst : Option Temp
deriving DecidableEq, Repr

/-- The start of a program: position 0, no temporary written. -/
def Activation.start (prog : Program) (dst : Option Temp) : Activation where
  prog := prog
  pos := 0
  temps := []
  polls := 0
  dst := dst

inductive ContextKind where
  | mainline | normal | fast
deriving DecidableEq, Repr

/-- A host context: its kind, the activation that runs in it and the activations waiting for it to return, innermost first
(assumption log 25). -/
structure Context where
  kind : ContextKind
  act : Activation
  callers : List Activation
deriving DecidableEq, Repr

def Context.start (kind : ContextKind) (prog : Program) : Context where
  kind := kind
  act := Activation.start prog none
  callers := []

/-- The host: the running context and those it interrupted, innermost first; the host's own program; the map `HANDLERS`;
host memory; the result of the last driver sequence that ended (assumption log 16). -/
structure HostSide where
  running : Context
  below : List Context
  main : Program
  handlers : List (Word × Program)
  mem : Memory
  result : Option Result
deriving DecidableEq, Repr

/-! ### The schedule -/

/-- The RB instances that a `SYNC` agent can serve (10_state R23). -/
inductive FifoId where
  | ring (i : BitVec 3)
  | hwtx (p : BitVec 2)
  | hwrx (p : BitVec 2)
deriving DecidableEq, Repr

/-- The direction of a pointer copy (40_ring_buffer R110). -/
inductive SyncDir where
  | w2r | r2w
deriving DecidableEq, Repr

/-- Which agent moves (00_scope R7). -/
inductive Event where
  /-- the host's next statement -/
  | host
  /-- the host takes the interrupt entry that is enabled and admitted, if one is (60_exceptions R281) -/
  | enter
  /-- `SYNC(I, dir)` (40_ring_buffer R110) -/
  | sync (i : FifoId) (d : SyncDir)
  /-- one cycle of `uclk(p)` (42_uart_engine R215) -/
  | uclk (p : BitVec 2)
  /-- `LINE(p)` sets `rxd_i(p)` and `rts_i(p)` (42_uart_engine R234) -/
  | line (p : BitVec 2) (rxd rts : Bool)
  /-- `SRC` sets the raw lines (00_scope R7) -/
  | src (lines : Word)
  /-- the reset event (70_reset R300) -/
  | reset
deriving DecidableEq, Repr

/-! ### The state -/

/-- The whole machine. `params` are the parameters of 00_scope R6 and are never written. `srcLines` are the levels `SRC`
drives. `rdata` is the bus's read data pin (10_state R28). `agenda` says which agents move next; when it is empty the host
moves. `draws` numbers the free values drawn (assumption logs 1, 6, 7, 8). -/
structure State where
  params : Params
  itc : Itc
  rings : Vector RB 8
  ports : Vector Port 4
  srcLines : Word
  rdata : Word
  host : HostSide
  agenda : List Event
  draws : Nat
deriving DecidableEq, Repr

/-- The state after reset of a machine with parameters `P` whose host runs `main` and binds `handlers` (70_reset R300, R301).
Pins, `rdata` and host memory have no reset value: DESIGN CHOICE, assumption logs 8, 13, 17. -/
def State.resetOf (P : Params) (main : Program) (handlers : List (Word × Program)) : State where
  params := P
  itc := Itc.reset
  rings := Vector.replicate 8 (RB.reset P.ringAw)
  ports := Vector.replicate 4 (Port.reset P.hwfifoAw true true)
  srcLines := 0
  rdata := 0
  host :=
    { running := Context.start .mainline main
      below := []
      main := main
      handlers := handlers
      mem := []
      result := none }
  agenda := []
  draws := 0

/-- The machine right after reset, with the default parameters and no program placed (70_reset R301; assumption log 9). -/
def State.reset : State := State.resetOf Params.default [] []

end Sys2Proof.Machine
end

