-- ==== Sys2Proof/Machine/Operands.lean ====
section
/-! DEFINITION. Bit fields, register images, the gray code and parity: how values are taken from and packed into words
(30_encoding R83, 10_state R24, R25, 40_ring_buffer R101, 42_uart_engine R222). -/

namespace Sys2Proof.Machine

/-! ### Single bits of a word -/

/-- `v` with bit `n` set to `b`. -/
def putBit (v : Word) (n : Nat) (b : Bool) : Word :=
  if b then v ||| (1#32 <<< n) else v &&& ~~~(1#32 <<< n)

/-- The mask of the sources that exist, bits `NSRC-1 .. 0` (10_state R24). -/
def sourceMask (P : Params) : Word := BitVec.ofNat 32 (2 ^ P.nsrc - 1)

/-- One bit as a one-bit vector. -/
def bit1 (b : Bool) : BitVec 1 := BitVec.ofBool b

/-- The number of ones (00_scope R8). -/
def popcount {w : Nat} (v : BitVec w) : Nat := (List.range w).countP (fun j => v.getLsbD j)

/-! ### The gray code (40_ring_buffer R101) -/

/-- `bin2gray(b) = b xor (b >> 1)`. -/
def bin2gray {w : Nat} (b : BitVec w) : BitVec w := b ^^^ (b >>> 1)

/-- The bits of `gray2bin(g)` from bit `n-1` down: each is the one above it xor the gray bit. -/
def grayBits {w : Nat} (g : BitVec w) : Nat → Bool → BitVec w → BitVec w
  | 0, _, acc => acc
  | n + 1, above, acc =>
    let b := above.xor (g.getLsbD n)
    grayBits g n b (if b then acc ||| (1#w <<< n) else acc)

/-- `gray2bin(g)`: `b[N-1] = g[N-1]`, `b[j] = b[j+1] xor g[j]`. -/
def gray2bin {w : Nat} (g : BitVec w) : BitVec w := grayBits g w false 0

/-! ### Parity (42_uart_engine R222) -/

/-- `parity(b) = (popcount(b) mod 2) xor (1 - EPS)`. -/
def parity (eps : Bool) (b : Byte) : Bool := (popcount b % 2 == 1).xor (!eps)

/-! ### Register images -/

/-- `{30'b0, FAE, NAE}` (41_interrupt_controller R135). -/
def cntlImage (c : Itc) : Word := 0#30 ++ bit1 c.fae ++ bit1 c.nae

/-- `{NONE, 26'b0, ID[4:0]}` (41_interrupt_controller R145, R146). -/
def vectorImage : Option Nat → Word
  | none => 1#1 ++ 0#26 ++ 0#5
  | some s => 0#1 ++ 0#26 ++ BitVec.ofNat 5 s

/-- `{22'b0, MRXR, MTXR, 3'b0, FCE, EPS, PEN, RXE, TXE}` (42_uart_engine R184). -/
def conImage (q : Port) : Word :=
  0#22 ++ bit1 q.mrxr ++ bit1 q.mtxr ++ 0#3 ++ bit1 q.fce ++ bit1 q.eps ++ bit1 q.pen ++ bit1 q.rxe
    ++ bit1 q.txe

/-- `{INC, MOD}` (42_uart_engine R193). -/
def brImage (q : Port) : Word := q.brInc ++ q.brMod

/-- `{30'b0, UCBVALID.RX, UCBVALID.TX}` (42_uart_engine R198). -/
def cbvalidImage (q : Port) : Word := 0#30 ++ bit1 q.cbvalidRx ++ bit1 q.cbvalidTx

/-- `{16'b0, WM, LEVEL[7:0]}` (42_uart_engine R189, R191). -/
def levelImage (wm : BitVec 8) (level : Nat) : Word := 0#16 ++ wm ++ BitVec.ofNat 8 level

/-- `v[31:16]`, the `INC` field of `UBR` (10_state R25). -/
def incField (v : Word) : BitVec 16 := v.extractLsb' 16 16

/-- `v[15:0]`, the `MOD` field of `UBR` (10_state R25). -/
def modField (v : Word) : BitVec 16 := v.extractLsb' 0 16

/-- `v[15:8]`, the watermark field of `URXCON` and `UTXCON` (10_state R25). -/
def watermarkField (v : Word) : BitVec 8 := v.extractLsb' 8 8

/-! ### The divisor (43_uart_driver R243) -/

/-- The port clock: the run's, or the free value where it is OPEN (00_scope R6; assumption log 2). -/
def clockHz (P : Params) : Nat := P.fClk.getD (Config.fClkPred + 1)

/-- `INC(baud) = floor(baud · 16 · BAUD_MOD / F_CLK)`, in unbounded integers. -/
def baudIncrement (P : Params) (baud : Word) : Nat := baud.toNat * osr * P.baudMod.toNat / clockHz P

end Sys2Proof.Machine
end

