-- ==== Sys2Proof/Machine/Flags.lean ====
section
/-! DEFINITION. Every flag, level and output that is a function of the state: ring occupancy and flags (40_ring_buffer R102,
R103, R121), port levels, ready flags and requests (42_uart_engine R181, R182, R231), the arbiter of the ITC
(41_interrupt_controller R131). -/

namespace Sys2Proof.Machine

/-! ### Ring occupancy and flags. `sy` is the instance's synchroniser depth. -/

/-- `CAP = 2^K` (40_ring_buffer R102). -/
def RB.cap (r : RB) : Nat := 2 ^ r.k.toNat

/-- `M = 2^(K+1)` (40_ring_buffer R102). -/
def RB.modulus (r : RB) : Nat := 2 ^ (r.k.toNat + 1)

/-- `(a - b) mod M`, the non-negative remainder. -/
def ringDistance (m : Nat) (a b : BitVec 16) : Nat := (a.toNat + (m - b.toNat % m)) % m

/-- The writer's copy of `rbin`: the register, or `rbin` itself when the depth is 0 (10_state R22). -/
def RB.writerCopy (sy : Nat) (r : RB) : BitVec 16 := if sy = 0 then r.rbin else r.wqR

/-- The reader's copy of `wbin`: the register, or `wbin` itself when the depth is 0 (10_state R22). -/
def RB.readerCopy (sy : Nat) (r : RB) : BitVec 16 := if sy = 0 then r.wbin else r.rqW

/-- The true count `(wbin - rbin) mod M` (40_ring_buffer R102). -/
def RB.count (r : RB) : Nat := ringDistance r.modulus r.wbin r.rbin

/-- The writer's view `(wbin - wq_r) mod M` (40_ring_buffer R102). -/
def RB.wcount (sy : Nat) (r : RB) : Nat := ringDistance r.modulus r.wbin (r.writerCopy sy)

/-- The reader's view `(rq_w - rbin) mod M` (40_ring_buffer R102). -/
def RB.rcount (sy : Nat) (r : RB) : Nat := ringDistance r.modulus (r.readerCopy sy) r.rbin

/-- `FULL = (wcount == CAP)` (40_ring_buffer R103, R107). -/
def RB.full (sy : Nat) (r : RB) : Bool := r.wcount sy == r.cap

/-- `EMPTY = (rcount == 0)` (40_ring_buffer R103, R108). -/
def RB.empty (sy : Nat) (r : RB) : Bool := r.rcount sy == 0

/-- `FREE = CAP - wcount` (40_ring_buffer R103; assumption log 23). -/
def RB.free (sy : Nat) (r : RB) : Nat := r.cap - r.wcount sy

/-- `AVAIL = rcount` (40_ring_buffer R103). -/
def RB.avail (sy : Nat) (r : RB) : Nat := r.rcount sy

/-- The slot the next write goes to, `wbin mod CAP` (40_ring_buffer R104). -/
def RB.writeSlot (r : RB) : Nat := r.wbin.toNat % r.cap

/-- The slot the next read takes, `rbin mod CAP` (40_ring_buffer R105). -/
def RB.readSlot (r : RB) : Nat := r.rbin.toNat % r.cap

/-- `x + 1` modulo `M` (40_ring_buffer R104, R105, R110). -/
def ringNext (m : Nat) (x : BitVec 16) : BitVec 16 := BitVec.ofNat 16 ((x.toNat + 1) % m)

/-- A pointer's gray code at width `K+1`, as it leaves its clock domain (40_ring_buffer R101). -/
def RB.grayOf (r : RB) (x : BitVec 16) : BitVec (r.k.toNat + 1) := bin2gray (x.setWidth (r.k.toNat + 1))

/-- The gray-coded comparison for `FULL`: the writer's code equals the copy's with its top two bits inverted, or at `K = 0`
its one bit inverted (40_ring_buffer R121; no rule depends on it). -/
def RB.fullGray (sy : Nat) (r : RB) : Bool :=
  let inverted : BitVec (r.k.toNat + 1) :=
    if r.k.toNat = 0 then 1 else (1 <<< r.k.toNat) ||| (1 <<< (r.k.toNat - 1))
  r.grayOf r.wbin == r.grayOf (r.writerCopy sy) ^^^ inverted

/-- The gray-coded comparison for `EMPTY` (40_ring_buffer R121; no rule depends on it). -/
def RB.emptyGray (sy : Nat) (r : RB) : Bool := r.grayOf r.rbin == r.grayOf (r.readerCopy sy)

/-! ### Register words of a ring (40_ring_buffer R116 to R120) -/

/-- `{FREE[15:0], 15'b0, FULL}`. -/
def RB.wstatWord (sy : Nat) (r : RB) : Word := BitVec.ofNat 16 (r.free sy) ++ 0#15 ++ bit1 (r.full sy)

/-- `{AVAIL[15:0], 15'b0, EMPTY}`. -/
def RB.rstatWord (sy : Nat) (r : RB) : Word := BitVec.ofNat 16 (r.avail sy) ++ 0#15 ++ bit1 (r.empty sy)

/-- `{(2^K)[23:0], 3'b0, K[4:0]}`. -/
def RB.capWord (r : RB) : Word := BitVec.ofNat 24 r.cap ++ 0#3 ++ r.k

/-- `zext_32(bin2gray(wbin))` at width `K+1`. -/
def RB.wptrWord (r : RB) : Word := (r.grayOf r.wbin).setWidth 32

/-- `zext_32(bin2gray(rbin))` at width `K+1`. -/
def RB.rptrWord (r : RB) : Word := (r.grayOf r.rbin).setWidth 32

/-! ### Port levels, ready flags, request and pins (42_uart_engine R181, R182, R231) -/

/-- `TXSPACE(p) = FREE(HWTX(p))`. -/
def Port.txspace (P : Params) (q : Port) : Nat := q.hwtx.free P.syncHwfifo

/-- `RXLEVEL(p) = AVAIL(HWRX(p))`. -/
def Port.rxlevel (P : Params) (q : Port) : Nat := q.hwrx.avail P.syncHwfifo

/-- `TXRDY(p) = (TXSPACE(p) >= TXWM)`. -/
def Port.txrdy (P : Params) (q : Port) : Bool := decide (q.txwm.toNat ≤ q.txspace P)

/-- `RXRDY(p) = (RXLEVEL(p) >= RXWM)`. -/
def Port.rxrdy (P : Params) (q : Port) : Bool := decide (q.rxwm.toNat ≤ q.rxlevel P)

/-- `irq_o(p)`. -/
def Port.irq (P : Params) (q : Port) : Bool := (q.txrdy P && !q.mtxr) || (q.rxrdy P && !q.mrxr)

/-- `cts_o(p)`: 1 (deasserted) iff `FCE = 1` and fewer than two free slots in the writer's view (R231). -/
def Port.ctsO (P : Params) (q : Port) : Bool := q.fce && decide (q.hwrx.free P.syncHwfifo < 2)

/-- `{24'b0, RXRDY, TXRDY, 1'b0, TOE, UE, OE, PE, FE}` (42_uart_engine R185). -/
def statImage (P : Params) (q : Port) : Word :=
  0#24 ++ bit1 (q.rxrdy P) ++ bit1 (q.txrdy P) ++ 0#1 ++ bit1 q.toe ++ bit1 q.ue ++ bit1 q.oe ++ bit1 q.pe
    ++ bit1 q.fe

/-! ### The arbiter and mux of the ITC (41_interrupt_controller R131) -/

/-- The highest set bit below `n`. -/
def highestBelow (v : Word) : Nat → Option Nat
  | 0 => none
  | n + 1 => if v.getLsbD n then some n else highestBelow v n

/-- The highest set bit of a word: `max` of a set of sources. -/
def highest (v : Word) : Option Nat := highestBelow v 32

/-- The line of source `UART_SRC(p)` follows `irq_o(p)` for every port that exists; other lines are `SRC`'s
(42_uart_engine R181, 10_state R28). -/
def wirePort (s : State) (v : Word) (p : Fin 4) : Word :=
  if p.val < s.params.nports then
    putBit v (s.params.uartSrc[p.val]).toNat ((s.ports[p.val]).irq s.params)
  else v

/-- `INTSRC`: the raw lines `src_i`, bits not below `NSRC` zero. -/
def intsrc (s : State) : Word :=
  wirePort s (wirePort s (wirePort s (wirePort s s.srcLines 0) 1) 2) 3 &&& sourceMask s.params

/-- `pend = (src_i | INTFRC) & INTENABLE`. -/
def pend (s : State) : Word := (intsrc s ||| s.itc.intfrc) &&& s.itc.intenable

/-- `NIPEND = pend & ~INTTYPE`. -/
def nipend (s : State) : Word := pend s &&& ~~~s.itc.inttype

/-- `FIPEND = pend & INTTYPE`. -/
def fipend (s : State) : Word := pend s &&& s.itc.inttype

/-- `npass`: the pending normal sources `s >= PRITHR`. -/
def npass (s : State) : Word := nipend s &&& (BitVec.allOnes 32 <<< s.itc.prithr.toNat)

/-- `NIVECTOR`: the highest passing source, if any. -/
def nivector (s : State) : Option Nat := highest (npass s)

/-- `FIVECTOR`: the highest pending fast source, if any; no threshold. -/
def fivector (s : State) : Option Nat := highest (fipend s)

/-- `irq_o = NAE & (npass is not empty)`. -/
def irqO (s : State) : Bool := s.itc.nae && decide (npass s ≠ 0)

/-- `fiq_o = FAE & (FIPEND != 0)`. -/
def fiqO (s : State) : Bool := s.itc.fae && decide (fipend s ≠ 0)

end Sys2Proof.Machine
end

