-- ==== Sys2Proof/Syntax.lean ====
section
/-! DEFINITION. The instructions of the block: its 54 primitives, one constructor per row of spec/opcode_table.json
(30_encoding R84, R85, R86). Operands are the fields R83 extracts: a source id `n`, a token `t`, a mask `m`, a register
image `v`, a byte `b`, a direction set `d`, a threshold `thr`, a capacity exponent `k`, the source index `x` of `VECT[x]`,
the ring instance `i`, the port `p`. -/

namespace Sys2Proof

inductive Instr where
  -- ITC (30_encoding R84)
  | itcCntlW (v : Word)
  | itcCntlR
  | itcNimaskW (thr : BitVec 6)
  | itcNimaskR
  | itcEnableInt (n : Word)
  | itcDisableInt (n : Word)
  | itcIntenableW (m : Word)
  | itcIntenableR
  | itcInttypeR
  | itcSetFast (n : Word)
  | itcSetNormal (n : Word)
  | itcNivectorR
  | itcFivectorR
  | itcIntsrcR
  | itcIntfrcW (m : Word)
  | itcIntfrcR
  | itcForceInt (n : Word)
  | itcUnforceInt (n : Word)
  | itcNipendR
  | itcFipendR
  | itcIntsaveR
  | itcDisableInts
  | itcRestoreInts
  | itcVecvalidR
  | itcClearHandler (n : Word)
  | itcSetHandler (x : BitVec 5) (t : Word)
  | itcVectR (x : BitVec 5)
  -- RB bank (30_encoding R85)
  | rbInit (i : BitVec 7) (k : Word)
  | rbWrite (i : BitVec 7) (b : Byte)
  | rbRead (i : BitVec 7)
  | rbWstat (i : BitVec 7)
  | rbRstat (i : BitVec 7)
  | rbCap (i : BitVec 7)
  | rbWptr (i : BitVec 7)
  | rbRptr (i : BitVec 7)
  -- UART (30_encoding R86)
  | uartConW (p : BitVec 2) (v : Word)
  | uartConR (p : BitVec 2)
  | uartStatR (p : BitVec 2)
  | uartDataW (p : BitVec 2) (b : Byte)
  | uartDataR (p : BitVec 2)
  | uartRxconW (p : BitVec 2) (v : Word)
  | uartRxconR (p : BitVec 2)
  | uartTxconW (p : BitVec 2) (v : Word)
  | uartTxconR (p : BitVec 2)
  | uartBrW (p : BitVec 2) (v : Word)
  | uartBrR (p : BitVec 2)
  | uartCbrxW (p : BitVec 2) (t : Word)
  | uartCbrxR (p : BitVec 2)
  | uartCbtxW (p : BitVec 2) (t : Word)
  | uartCbtxR (p : BitVec 2)
  | uartCbvalidR (p : BitVec 2)
  | uartCbclr (p : BitVec 2) (d : BitVec 2)
  | uartMaskset (p : BitVec 2) (d : BitVec 2)
  | uartMaskclr (p : BitVec 2) (d : BitVec 2)
deriving DecidableEq, Repr

end Sys2Proof
end

