-- ==== Sys2Proof/Machine/Ops.lean ====
section
/-! DEFINITION. The named operations that meanings, engines and the host share: byte memories, ring operations
(40_ring_buffer R104 to R106, R110), access to rings and ports, the answers of a primitive, temporaries, interrupt entry and
return (spec/60_exceptions.md R281, R285). -/

namespace Sys2Proof.Machine

/-! ### Lists of numbered values in canonical form: numbers strictly rising -/

/-- The value listed at `a`. -/
def listedAt {α : Type} : List (Nat × α) → Nat → Option α
  | [], _ => none
  | (n, x) :: rest, a => if n = a then some x else listedAt rest a

/-- The list with `x` at `a`, every other entry kept, in the canonical form. -/
def putAt {α : Type} : List (Nat × α) → Nat → α → List (Nat × α)
  | [], a, x => [(a, x)]
  | (n, y) :: rest, a, x =>
    if a < n then (a, x) :: (n, y) :: rest
    else if n = a then (a, x) :: rest
    else (n, y) :: putAt rest a x

/-- The byte a memory holds at an address; `none` where nothing was written (assumption logs 5, 17). -/
def Memory.read (m : Memory) (a : Nat) : Option Byte := listedAt m a

/-- The memory with a byte written. -/
def Memory.write (m : Memory) (a : Nat) (b : Byte) : Memory := putAt m a b

/-! ### Operations on a ring -/

/-- The effect of `RB.write` where it is allowed (40_ring_buffer R104). -/
def RB.push (r : RB) (b : Byte) : RB :=
  { r with mem := r.mem.write r.writeSlot b, wbin := ringNext r.modulus r.wbin }

/-- The byte the next read takes; a slot nothing has written gives the free byte (40_ring_buffer R105, 93 U9). -/
def RB.front (r : RB) (free : Byte) : Byte := (r.mem.read r.readSlot).getD free

/-- The effect of `RB.read` on the pointers where it is allowed; the slot is not erased (40_ring_buffer R105). -/
def RB.pop (r : RB) : RB := { r with rbin := ringNext r.modulus r.rbin }

/-- The effect of `RB.init` where it is allowed; the storage keeps its contents (40_ring_buffer R106). -/
def RB.init (r : RB) (k : BitVec 5) : RB := { r with k := k, wbin := 0, rbin := 0, wqR := 0, rqW := 0 }

/-- One `SYNC(I, dir)` step; nothing where the depth is 0 or the copy has caught up (40_ring_buffer R110). -/
def RB.sync (sy : Nat) (d : SyncDir) (r : RB) : RB :=
  if sy = 0 then r
  else
    match d with
    | .w2r => if r.rqW = r.wbin then r else { r with rqW := ringNext r.modulus r.rqW }
    | .r2w => if r.wqR = r.rbin then r else { r with wqR := ringNext r.modulus r.wqR }

/-! ### Access to rings and ports -/

/-- The instance a bank number selects; for the numbers that pass the index check its low three bits are the number
(20_memory R61: `i < 2·NPORTS ≤ 8`). -/
def ringIndex (i : BitVec 7) : BitVec 3 := i.setWidth 3

def State.ring (s : State) (i : BitVec 3) : RB := s.rings[i.toNat]'(i.isLt)

def State.setRing (s : State) (i : BitVec 3) (r : RB) : State :=
  { s with rings := s.rings.set i.toNat r i.isLt }

def State.port (s : State) (p : BitVec 2) : Port := s.ports[p.toNat]'(p.isLt)

def State.setPort (s : State) (p : BitVec 2) (q : Port) : State :=
  { s with ports := s.ports.set p.toNat q p.isLt }

def State.setItc (s : State) (c : Itc) : State := { s with itc := c }

/-- `VECT[x]` (10_state R24). -/
def State.vect (s : State) (x : BitVec 5) : Word := s.itc.vect[x.toNat]'(x.isLt)

/-! ### What a primitive answers -/

/-- The result type of a primitive, of a statement and of a step. -/
abbrev Answered := Host.Outcome State Fault Refusal

/-- The answer of a read: the word on `rdata` (30_encoding R80). -/
def answer (s : State) (v : Word) : State := { s with rdata := v }

/-- The next free byte (assumption log 6). -/
def State.freeByte (s : State) : Byte := Config.freeByte s.draws

/-- The next free word (assumption log 6). -/
def State.freeWord (s : State) : Word := Config.freeWord s.draws

/-- One free value used up. -/
def State.drawn (s : State) : State := { s with draws := s.draws + 1 }

/-- The check of a source operand (41_interrupt_controller R161): `BadSource` unless `n < NSRC`. -/
def withSource (s : State) (n : Word) (f : Nat → State) : Answered :=
  if n.toNat < s.params.nsrc then .next (f n.toNat) else .fault .badSource

/-- The index check of format VEC (30_encoding R82, R87). -/
def withVector (s : State) (x : BitVec 5) (f : Unit → Answered) : Answered :=
  if x.toNat < s.params.nsrc then f () else .fault .busUndefined

/-- The index check of format RB (30_encoding R82, R87), with the instance it selects. -/
def withRing (s : State) (i : BitVec 7) (f : BitVec 3 → Answered) : Answered :=
  if i.toNat < 2 * s.params.nports then f (ringIndex i) else .fault .busUndefined

/-- The index check of format UART (30_encoding R82, R87). -/
def withPort (s : State) (p : BitVec 2) (f : Port → Answered) : Answered :=
  if p.toNat < s.params.nports then f (s.port p) else .fault .busUndefined

/-! ### Temporaries (10_state R20) -/

/-- The value of an expression; `none` where it reads a temporary never assigned. -/
def evalExpr (ts : List (Temp × Word)) : Expr → Option Word
  | .lit v => some v
  | .tmp t => listedAt ts t
  | .add a b => (evalExpr ts a).bind fun x => (evalExpr ts b).map fun y => x + y
  | .and a b => (evalExpr ts a).bind fun x => (evalExpr ts b).map fun y => x &&& y
  | .or a b => (evalExpr ts a).bind fun x => (evalExpr ts b).map fun y => x ||| y
  | .shl a n => (evalExpr ts a).map fun (x : Word) => x <<< n
  | .shr a n => (evalExpr ts a).map fun (x : Word) => x >>> n
  | .bit a i =>
    (evalExpr ts a).bind fun x => (evalExpr ts i).map fun y => (x >>> y.toNat) &&& 1#32

/-- The value of a test. -/
def evalCond (ts : List (Temp × Word)) : Cond → Option Bool
  | .eq a b => (evalExpr ts a).bind fun x => (evalExpr ts b).map fun y => x == y
  | .ne a b => (evalExpr ts a).bind fun x => (evalExpr ts b).map fun y => x != y
  | .both c d => (evalCond ts c).bind fun x => (evalCond ts d).map fun y => x && y

/-- An optional argument. -/
def evalOption (ts : List (Temp × Word)) : Option Expr → Option (Option Word)
  | none => some none
  | some e => (evalExpr ts e).map some

/-- A call's arguments, by value (assumption log 19). -/
def evalSeq (ts : List (Temp × Word)) : Seq Expr → Option (Seq Word)
  | .itcInit => some .itcInit
  | .itcSetPriority n c => (evalExpr ts n).map fun n => .itcSetPriority n c
  | .serviceNormal => some .serviceNormal
  | .serviceFast => some .serviceFast
  | .uartInit p baud name =>
    (evalExpr ts p).bind fun p => (evalExpr ts baud).bind fun baud =>
      (evalOption ts name).map fun name => .uartInit p baud name
  | .sendByte p b => (evalExpr ts p).bind fun p => (evalExpr ts b).map fun b => .sendByte p b
  | .receiveByte p => (evalExpr ts p).map fun p => .receiveByte p
  | .send p buf n =>
    (evalExpr ts p).bind fun p => (evalExpr ts buf).bind fun buf =>
      (evalExpr ts n).map fun n => .send p buf n
  | .receive p buf n =>
    (evalExpr ts p).bind fun p => (evalExpr ts buf).bind fun buf =>
      (evalExpr ts n).map fun n => .receive p buf n
  | .setReceiveCallback p cb =>
    (evalExpr ts p).bind fun p => (evalOption ts cb).map fun cb => .setReceiveCallback p cb
  | .setSendCallback p cb =>
    (evalExpr ts p).bind fun p => (evalOption ts cb).map fun cb => .setSendCallback p cb
  | .isr p => (evalExpr ts p).map fun p => .isr p

/-- The activation with a temporary assigned, if one is named. -/
def Activation.assign (a : Activation) (dst : Option Temp) (v : Word) : Activation :=
  match dst with
  | none => a
  | some t => { a with temps := putAt a.temps t v }

/-- The activation at a position. -/
def Activation.goto (a : Activation) (pos : Nat) : Activation := { a with pos := pos }

/-- The activation at the next statement. -/
def Activation.advance (a : Activation) : Activation := { a with pos := a.pos + 1 }

/-- The state with the running activation replaced. -/
def State.setAct (s : State) (a : Activation) : State :=
  { s with host := { s.host with running := { s.host.running with act := a } } }

/-- The running activation. -/
def State.act (s : State) : Activation := s.host.running.act

/-! ### Results (60_exceptions R270) -/

/-- The codes of 60_exceptions R270. -/
def ErrKind.code : ErrKind → Word
  | .noSuchDevice => 1
  | .badAddress => 2
  | .timeout => 3

/-- A result as the word a caller's temporary takes: `Err(k)` is `-code` (60_exceptions R270; assumption log 16). -/
def Result.word : Result → Word
  | .ok => 0
  | .okValue v => v
  | .err e => -e.code

/-! ### Interrupt entry and return: what stands in the place of exceptions (60_exceptions R281, R283, R285) -/

/-- Entry: the host pushes a context of the given kind with its program. The interrupted context, its position and its
temporaries are kept; nothing in the block changes (60_exceptions R281, R283). -/
def enterContext (s : State) (kind : ContextKind) (prog : Program) : State :=
  { s with
    host := { s.host with
      running := Context.start kind prog
      below := s.host.running :: s.host.below } }

/-- Return from a context: the one below resumes where it was interrupted; the mainline's end leaves the host idle, its
position behind its last statement (60_exceptions R285; assumption log 10). -/
def leaveContext (s : State) : State :=
  match s.host.below with
  | c :: rest => { s with host := { s.host with running := c, below := rest } }
  | [] => s.setAct (s.act.goto s.act.prog.length)

/-- A `return`: to the activation that waits in the same context, its temporary assigned if a result is given
(60_exceptions R284), or out of the context (R285). A result is recorded as the last one (R270). -/
def returnFrom (s : State) (r : Option Result) : State :=
  let s := match r with
    | none => s
    | some x => { s with host := { s.host with result := some x } }
  match s.host.running.callers with
  | a :: rest =>
    let a := match r with
      | none => a
      | some x => a.assign s.act.dst x.word
    { s with host := { s.host with running := { s.host.running with act := a, callers := rest } } }
  | [] => leaveContext s

/-- A call inside the running context: the caller goes on at its next statement when the program has returned
(60_exceptions R284). -/
def enterProgram (s : State) (prog : Program) (dst : Option Temp) : State :=
  { s with
    host := { s.host with
      running := { s.host.running with
        act := Activation.start prog dst
        callers := s.act.advance :: s.host.running.callers } } }

end Sys2Proof.Machine
end

