-- ==== Sys2Proof/Machine/Uart.lean ====
section
/-! DEFINITION. The meanings of the 19 UART primitives (spec/42_uart_engine.md R183 to R201). Every one answers
`BusUndefined` for a port that does not exist (30_encoding R87). -/

namespace Sys2Proof.Machine

/-- TX abort (R225): the frame is cut, `HWTX` is not flushed. -/
def Port.abortTx (q : Port) : Port := { q with txstate := .idle, txdO := true, txtick := 0, txbit := 0 }

/-- RX abort (R230): the frame is dropped with no flag, `HWRX` is not flushed. -/
def Port.abortRx (q : Port) : Port := { q with rxstate := .idle, rxtick := 0, rxbit := 0, rxperr := false }

/-- The fields of `UCON` from a register image (10_state R25). -/
def Port.setCon (q : Port) (v : Word) : Port :=
  { q with
    txe := v.getLsbD 0, rxe := v.getLsbD 1, pen := v.getLsbD 2, eps := v.getLsbD 3, fce := v.getLsbD 4
    mtxr := v.getLsbD 8, mrxr := v.getLsbD 9 }

/-- R183: the fields, then the aborts of the engines that the write disables. -/
def execUartConW (p : BitVec 2) (v : Word) (s : State) : Answered :=
  withPort s p fun q =>
    let q1 := q.setCon v
    let q2 := if q.txe && !v.getLsbD 0 then q1.abortTx else q1
    let q3 := if q.rxe && !v.getLsbD 1 then q2.abortRx else q2
    .next (s.setPort p q3)

/-- R184. -/
def execUartConR (p : BitVec 2) (s : State) : Answered :=
  withPort s p fun q => .next (answer s (conImage q))

/-- R185, one atomic step: the image, then the five error flags clear. -/
def execUartStatR (p : BitVec 2) (s : State) : Answered :=
  withPort s p fun q =>
    .next (answer
      (s.setPort p { q with fe := false, pe := false, oe := false, ue := false, toe := false })
      (statImage s.params q))

/-- R186: the byte enters `HWTX`, or is lost with `TOE` when there is no space. -/
def execUartDataW (p : BitVec 2) (b : Byte) (s : State) : Answered :=
  withPort s p fun q =>
    if q.txspace s.params = 0 then .next (s.setPort p { q with toe := true })
    else .next (s.setPort p { q with hwtx := q.hwtx.push b })

/-- R187: the byte leaves `HWRX`; on underrun `UE` is set and the byte is any value. -/
def execUartDataR (p : BitVec 2) (s : State) : Answered :=
  withPort s p fun q =>
    if q.rxlevel s.params = 0 then
      .next (answer (s.drawn.setPort p { q with ue := true }) (s.freeByte.setWidth 32))
    else
      .next (answer (s.drawn.setPort p { q with hwrx := q.hwrx.pop })
        ((q.hwrx.front s.freeByte).setWidth 32))

/-- R188: `URXCON.RXWM <- v[15:8]`. -/
def execUartRxconW (p : BitVec 2) (v : Word) (s : State) : Answered :=
  withPort s p fun q => .next (s.setPort p { q with rxwm := watermarkField v })

/-- R189. -/
def execUartRxconR (p : BitVec 2) (s : State) : Answered :=
  withPort s p fun q => .next (answer s (levelImage q.rxwm (q.rxlevel s.params)))

/-- R190: `UTXCON.TXWM <- v[15:8]`. -/
def execUartTxconW (p : BitVec 2) (v : Word) (s : State) : Answered :=
  withPort s p fun q => .next (s.setPort p { q with txwm := watermarkField v })

/-- R191. -/
def execUartTxconR (p : BitVec 2) (s : State) : Answered :=
  withPort s p fun q => .next (answer s (levelImage q.txwm (q.txspace s.params)))

/-- R192: `BaudWhileEnabled`, `BadDivisor`, else `UBR` is written and `bacc` cleared. -/
def execUartBrW (p : BitVec 2) (v : Word) (s : State) : Answered :=
  withPort s p fun q =>
    if q.txe || q.rxe then .fault .baudWhileEnabled
    else if 0 < (modField v).toNat ∧ (modField v).toNat < (incField v).toNat then .fault .badDivisor
    else .next (s.setPort p { q with brMod := modField v, brInc := incField v, bacc := 0 })

/-- R193. -/
def execUartBrR (p : BitVec 2) (s : State) : Answered :=
  withPort s p fun q => .next (answer s (brImage q))

/-- R194: `UCBRX <- t; UCBVALID.RX <- 1`. -/
def execUartCbrxW (p : BitVec 2) (t : Word) (s : State) : Answered :=
  withPort s p fun q => .next (s.setPort p { q with ucbrx := t, cbvalidRx := true })

/-- R195: with `UCBVALID.RX = 0` the value is a draw. -/
def execUartCbrxR (p : BitVec 2) (s : State) : Answered :=
  withPort s p fun q => .next (if q.cbvalidRx then answer s q.ucbrx else answer s.drawn s.freeWord)

/-- R196: `UCBTX <- t; UCBVALID.TX <- 1`. -/
def execUartCbtxW (p : BitVec 2) (t : Word) (s : State) : Answered :=
  withPort s p fun q => .next (s.setPort p { q with ucbtx := t, cbvalidTx := true })

/-- R197: with `UCBVALID.TX = 0` the value is a draw. -/
def execUartCbtxR (p : BitVec 2) (s : State) : Answered :=
  withPort s p fun q => .next (if q.cbvalidTx then answer s q.ucbtx else answer s.drawn s.freeWord)

/-- R198. -/
def execUartCbvalidR (p : BitVec 2) (s : State) : Answered :=
  withPort s p fun q => .next (answer s (cbvalidImage q))

/-- R199: clears the named callback slots. -/
def execUartCbclr (p : BitVec 2) (d : BitVec 2) (s : State) : Answered :=
  withPort s p fun q =>
    .next (s.setPort p { q with
      cbvalidTx := q.cbvalidTx && !d.getLsbD 0
      cbvalidRx := q.cbvalidRx && !d.getLsbD 1 })

/-- R200, atomic: sets the named masks. -/
def execUartMaskset (p : BitVec 2) (d : BitVec 2) (s : State) : Answered :=
  withPort s p fun q =>
    .next (s.setPort p { q with mtxr := q.mtxr || d.getLsbD 0, mrxr := q.mrxr || d.getLsbD 1 })

/-- R201, atomic: clears the named masks. -/
def execUartMaskclr (p : BitVec 2) (d : BitVec 2) (s : State) : Answered :=
  withPort s p fun q =>
    .next (s.setPort p { q with mtxr := q.mtxr && !d.getLsbD 0, mrxr := q.mrxr && !d.getLsbD 1 })

end Sys2Proof.Machine
end

