-- ==== Sys2Proof/Machine/Engine.lean ====
section
/-! DEFINITION. The engines of a port: the baud generator, the transmit engine and the receive engine
(spec/42_uart_engine.md R215 to R230). `free` is the free byte a slot nothing has written would give (assumption log 6). -/

namespace Sys2Proof.Machine

/-! ### Transmit (R223, R224) -/

/-- `tx_try_load(p)` (R223). -/
def txTryLoad (P : Params) (free : Byte) (q : Port) : Port :=
  if !q.hwtx.empty P.syncHwfifo && (!q.fce || !q.rtsS) then
    let b := q.hwtx.front free
    { q with
      hwtx := q.hwtx.pop
      txsr := b, txpar := parity q.eps b, txbit := 0, txtick := 0
      txdO := false, txstate := .start }
  else { q with txdO := true, txstate := .idle }

/-- The end of a bit, `txtick = 15` (R224). -/
def txBitEnd (P : Params) (free : Byte) (q : Port) : Port :=
  match q.txstate with
  | .idle => txTryLoad P free q
  | .start => { q with txdO := q.txsr.getLsbD 0, txbit := 0, txstate := .data }
  | .data =>
    if q.txbit.toNat < 7 then
      { q with txdO := q.txsr.getLsbD 1, txsr := q.txsr >>> 1, txbit := q.txbit + 1 }
    else if q.pen then { q with txdO := q.txpar, txstate := .par }
    else { q with txdO := true, txstate := .stop }
  | .par => { q with txdO := true, txstate := .stop }
  | .stop => txTryLoad P free q

/-- `TXENG(p)` tick step, taken only when `TXE = 1` (R224). -/
def txTick (P : Params) (free : Byte) (q : Port) : Port :=
  if !q.txe then q
  else
    match q.txstate with
    | .idle => txTryLoad P free q
    | .start | .data | .par | .stop =>
      if q.txtick.toNat < 15 then { q with txtick := q.txtick + 1 }
      else txBitEnd P free { q with txtick := 0 }

/-! ### Receive (R226 to R229) -/

/-- Stop and delivery, `act(R_STOP, 8)` (R229). -/
def rxDeliver (P : Params) (q : Port) : Port :=
  let q1 := { q with fe := q.fe || !q.rxdS, pe := q.pe || q.rxperr, rxstate := .idle }
  if q.hwrx.full P.syncHwfifo then { q1 with oe := true } else { q1 with hwrx := q.hwrx.push q.rxsr }

/-- `act(rxstate, 8)`: the middle of a bit (R226 to R229). -/
def rxMiddle (P : Params) (q : Port) : Port :=
  match q.rxstate with
  | .idle => q
  | .start => if q.rxdS then { q with rxstate := .idle } else q
  | .data => { q with rxsr := bit1 q.rxdS ++ q.rxsr.extractLsb' 1 7 }
  | .par => { q with rxperr := q.rxdS != parity q.eps q.rxsr }
  | .stop => rxDeliver P q

/-- `act(rxstate, 0)`: the end of a bit (R226 to R228). -/
def rxBitEnd (q : Port) : Port :=
  match q.rxstate with
  | .idle => q
  | .start => { q with rxstate := .data, rxbit := 0, rxperr := false }
  | .data =>
    if q.rxbit = 7 then { q with rxstate := if q.pen then .par else .stop }
    else { q with rxbit := q.rxbit + 1 }
  | .par => { q with rxstate := .stop }
  | .stop => q

/-- `RXENG(p)` tick step, taken only when `RXE = 1` (R226). -/
def rxTick (P : Params) (q : Port) : Port :=
  if !q.rxe then q
  else
    match q.rxstate with
    | .idle => if q.rxdS then q else { q with rxstate := .start, rxtick := 0 }
    | .start | .data | .par | .stop =>
      let q1 := { q with rxtick := q.rxtick + 1 }
      if q1.rxtick = 8 then rxMiddle P q1 else if q1.rxtick = 0 then rxBitEnd q1 else q1

/-! ### The baud generator (R215) -/

/-- `tick(p)`: `RXENG(p)`, then `TXENG(p)`, in the same cycle (R215). -/
def portTick (P : Params) (free : Byte) (q : Port) : Port := txTick P free (rxTick P q)

/-- Whether this cycle makes a tick: the 17-bit sum reaches `MOD` (R215). -/
def Port.ticks (q : Port) : Bool :=
  (q.txe || q.rxe) && decide (0 < q.brMod.toNat) && decide (q.brMod.toNat ≤ q.bacc.toNat + q.brInc.toNat)

/-- The accumulator after this cycle (R215). -/
def Port.baccNext (q : Port) : BitVec 17 :=
  if (q.txe || q.rxe) && decide (0 < q.brMod.toNat) then
    if q.brMod.toNat ≤ q.bacc.toNat + q.brInc.toNat then
      BitVec.ofNat 17 (q.bacc.toNat + q.brInc.toNat - q.brMod.toNat)
    else BitVec.ofNat 17 (q.bacc.toNat + q.brInc.toNat)
  else 0

/-- `BAUD(p)`: one `uclk(p)` cycle (R215). -/
def baud (P : Params) (free : Byte) (q : Port) : Port :=
  if q.ticks then portTick P free { q with bacc := q.baccNext } else { q with bacc := q.baccNext }

/-- The input synchronisers, without their delay: `rxd_s` and `rts_s` take the levels `LINE(p)` last drove (R223, R226;
assumption log 13). -/
def samplePins (q : Port) : Port := { q with rxdS := q.rxdI, rtsS := q.rtsI }

/-- One cycle of `uclk(p)`: the pins are sampled, then `BAUD(p)` steps. -/
def uclkCycle (P : Params) (free : Byte) (q : Port) : Port := baud P free (samplePins q)

end Sys2Proof.Machine
end

