-- ==== Sys2Proof/WellFormed.lean ====
section
/-! DEFINITION. Which instructions are operations of the block: the index check of 30_encoding R82 (`s < NSRC`,
`i < 2·NPORTS`, `pp < NPORTS`), made after a row matches. Operand values outside R83's legal values are well formed: they
decode and fault when performed (95_test_vectors V-E15). -/

namespace Sys2Proof

/-- `s < NSRC` (format VEC, 30_encoding R82). -/
def sourceExists (P : Params) (x : BitVec 5) : Bool := decide (x.toNat < P.nsrc)

/-- `i < 2·NPORTS` (format RB, 30_encoding R82). -/
def instanceExists (P : Params) (i : BitVec 7) : Bool := decide (i.toNat < 2 * P.nports)

/-- `pp < NPORTS` (format UART, 30_encoding R82). -/
def portExists (P : Params) (p : BitVec 2) : Bool := decide (p.toNat < P.nports)

/-- The index check of the instruction's format (30_encoding R82, R91 step 4). -/
def Instr.wf (P : Params) : Instr → Bool
  | .itcCntlW _ | .itcCntlR | .itcNimaskW _ | .itcNimaskR | .itcEnableInt _ | .itcDisableInt _
  | .itcIntenableW _ | .itcIntenableR | .itcInttypeR | .itcSetFast _ | .itcSetNormal _
  | .itcNivectorR | .itcFivectorR | .itcIntsrcR | .itcIntfrcW _ | .itcIntfrcR | .itcForceInt _
  | .itcUnforceInt _ | .itcNipendR | .itcFipendR | .itcIntsaveR | .itcDisableInts
  | .itcRestoreInts | .itcVecvalidR | .itcClearHandler _ => true
  | .itcSetHandler x _ | .itcVectR x => sourceExists P x
  | .rbInit i _ | .rbWrite i _ | .rbRead i | .rbWstat i | .rbRstat i | .rbCap i | .rbWptr i
  | .rbRptr i => instanceExists P i
  | .uartConW p _ | .uartConR p | .uartStatR p | .uartDataW p _ | .uartDataR p
  | .uartRxconW p _ | .uartRxconR p | .uartTxconW p _ | .uartTxconR p | .uartBrW p _
  | .uartBrR p | .uartCbrxW p _ | .uartCbrxR p | .uartCbtxW p _ | .uartCbtxR p
  | .uartCbvalidR p | .uartCbclr p _ | .uartMaskset p _ | .uartMaskclr p _ => portExists P p

end Sys2Proof
end

