-- ==== Sys2Proof/Decode.lean ====
section
/-! DEFINITION. Decoding of command words, total on every 48-bit word (30_encoding R80 to R91), and the encoder. -/

namespace Sys2Proof

/-! ### The fields of a command word (30_encoding R80, R82) -/

/-- `HDR = CW[47:32]`. -/
def CommandWord.header (cw : BitVec 48) : Header := cw.extractLsb' 32 16

/-- `DATA = CW[31:0]`. -/
def CommandWord.data (cw : BitVec 48) : Word := cw.extractLsb' 0 32

/-- The command word of a header and its data, `CW = {HDR, DATA}`. -/
def commandWord (h : Header) (d : Word) : CommandWord := h ++ d

/-- `W`, bit 15 of the header: 1 is a write. -/
def Header.isWrite (h : BitVec 16) : Bool := h.getLsbD 15

/-- `UNIT`, bits 14 to 12 of the header. -/
def Header.unit (h : BitVec 16) : BitVec 3 := h.extractLsb' 12 3

/-- `OFF`, bits 11 to 0 of the header. -/
def Header.off (h : BitVec 16) : BitVec 12 := h.extractLsb' 0 12

/-- Format VEC: `s = OFF[6:2]`. -/
def Header.source (h : BitVec 16) : BitVec 5 := h.extractLsb' 2 5

/-- Format RB: `i = OFF[11:5]`. -/
def Header.ring (h : BitVec 16) : BitVec 7 := h.extractLsb' 5 7

/-- Format UART: `pp = UNIT[1:0]`. -/
def Header.port (h : BitVec 16) : BitVec 2 := h.extractLsb' 12 2

/-! ### The operands of `DATA` (30_encoding R83) -/

/-- `DATA[7:0]`, the byte of `RB.WRITE` and `UART.DATA.W`. -/
def dataByte (d : Word) : Byte := d.extractLsb' 0 8

/-- `DATA[5:0]`, the threshold of `ITC.NIMASK.W`. -/
def dataThreshold (d : Word) : BitVec 6 := d.extractLsb' 0 6

/-- `DATA[1:0]`, the direction set: bit 0 is TX, bit 1 is RX. -/
def dataDirections (d : Word) : BitVec 2 := d.extractLsb' 0 2

/-! ### The opcode map (30_encoding R84, R85, R86; the same rows as spec/opcode_table.json) -/

/-- One row: the header's mask and match, and the instruction the row stands for. `DATA` is in no mask (R82), so the
48-bit mask and match of the table are these followed by 32 zero bits. -/
structure Row where
  mnemonic : String
  mask : Header
  pat : Header
  build : Header → Word → Instr

/-- The row's test on a header: `(CW & mask) == match`. -/
def Row.selects (r : Row) (h : Header) : Bool := h &&& r.mask == r.pat

/-- Rows of format ITC, mask `0xFFFF_0000_0000`. -/
def itcRows : List Row :=
  [ ⟨"ITC.CNTL.W", 0xFFFF, 0x8000, fun _ d => .itcCntlW d⟩,
    ⟨"ITC.CNTL.R", 0xFFFF, 0x0000, fun _ _ => .itcCntlR⟩,
    ⟨"ITC.NIMASK.W", 0xFFFF, 0x8004, fun _ d => .itcNimaskW (dataThreshold d)⟩,
    ⟨"ITC.NIMASK.R", 0xFFFF, 0x0004, fun _ _ => .itcNimaskR⟩,
    ⟨"ITC.ENABLE_INT", 0xFFFF, 0x8008, fun _ d => .itcEnableInt d⟩,
    ⟨"ITC.DISABLE_INT", 0xFFFF, 0x800C, fun _ d => .itcDisableInt d⟩,
    ⟨"ITC.INTENABLE.W", 0xFFFF, 0x8010, fun _ d => .itcIntenableW d⟩,
    ⟨"ITC.INTENABLE.R", 0xFFFF, 0x0010, fun _ _ => .itcIntenableR⟩,
    ⟨"ITC.INTTYPE.R", 0xFFFF, 0x0014, fun _ _ => .itcInttypeR⟩,
    ⟨"ITC.SET_FAST", 0xFFFF, 0x8018, fun _ d => .itcSetFast d⟩,
    ⟨"ITC.SET_NORMAL", 0xFFFF, 0x801C, fun _ d => .itcSetNormal d⟩,
    ⟨"ITC.NIVECTOR.R", 0xFFFF, 0x0020, fun _ _ => .itcNivectorR⟩,
    ⟨"ITC.FIVECTOR.R", 0xFFFF, 0x0024, fun _ _ => .itcFivectorR⟩,
    ⟨"ITC.INTSRC.R", 0xFFFF, 0x0028, fun _ _ => .itcIntsrcR⟩,
    ⟨"ITC.INTFRC.W", 0xFFFF, 0x802C, fun _ d => .itcIntfrcW d⟩,
    ⟨"ITC.INTFRC.R", 0xFFFF, 0x002C, fun _ _ => .itcIntfrcR⟩,
    ⟨"ITC.FORCE_INT", 0xFFFF, 0x8030, fun _ d => .itcForceInt d⟩,
    ⟨"ITC.UNFORCE_INT", 0xFFFF, 0x8034, fun _ d => .itcUnforceInt d⟩,
    ⟨"ITC.NIPEND.R", 0xFFFF, 0x0038, fun _ _ => .itcNipendR⟩,
    ⟨"ITC.FIPEND.R", 0xFFFF, 0x003C, fun _ _ => .itcFipendR⟩,
    ⟨"ITC.INTSAVE.R", 0xFFFF, 0x0040, fun _ _ => .itcIntsaveR⟩,
    ⟨"ITC.DISABLE_INTS", 0xFFFF, 0x8044, fun _ _ => .itcDisableInts⟩,
    ⟨"ITC.RESTORE_INTS", 0xFFFF, 0x8048, fun _ _ => .itcRestoreInts⟩,
    ⟨"ITC.VECVALID.R", 0xFFFF, 0x004C, fun _ _ => .itcVecvalidR⟩,
    ⟨"ITC.CLEAR_HANDLER", 0xFFFF, 0x8050, fun _ d => .itcClearHandler d⟩ ]

/-- Rows of format VEC, mask `0xFF83_0000_0000`. -/
def vecRows : List Row :=
  [ ⟨"ITC.SET_HANDLER", 0xFF83, 0x8100, fun h d => .itcSetHandler (Header.source h) d⟩,
    ⟨"ITC.VECT.R", 0xFF83, 0x0100, fun h _ => .itcVectR (Header.source h)⟩ ]

/-- Rows of format RB, mask `0xF01F_0000_0000`. -/
def rbRows : List Row :=
  [ ⟨"RB.INIT", 0xF01F, 0x9000, fun h d => .rbInit (Header.ring h) d⟩,
    ⟨"RB.WRITE", 0xF01F, 0x9004, fun h d => .rbWrite (Header.ring h) (dataByte d)⟩,
    ⟨"RB.READ", 0xF01F, 0x1008, fun h _ => .rbRead (Header.ring h)⟩,
    ⟨"RB.WSTAT", 0xF01F, 0x100C, fun h _ => .rbWstat (Header.ring h)⟩,
    ⟨"RB.RSTAT", 0xF01F, 0x1010, fun h _ => .rbRstat (Header.ring h)⟩,
    ⟨"RB.CAP", 0xF01F, 0x1014, fun h _ => .rbCap (Header.ring h)⟩,
    ⟨"RB.WPTR", 0xF01F, 0x1018, fun h _ => .rbWptr (Header.ring h)⟩,
    ⟨"RB.RPTR", 0xF01F, 0x101C, fun h _ => .rbRptr (Header.ring h)⟩ ]

/-- Rows of format UART, mask `0xCFFF_0000_0000`. -/
def uartRows : List Row :=
  [ ⟨"UART.CON.W", 0xCFFF, 0xC000, fun h d => .uartConW (Header.port h) d⟩,
    ⟨"UART.CON.R", 0xCFFF, 0x4000, fun h _ => .uartConR (Header.port h)⟩,
    ⟨"UART.STAT.R", 0xCFFF, 0x4004, fun h _ => .uartStatR (Header.port h)⟩,
    ⟨"UART.DATA.W", 0xCFFF, 0xC008, fun h d => .uartDataW (Header.port h) (dataByte d)⟩,
    ⟨"UART.DATA.R", 0xCFFF, 0x4008, fun h _ => .uartDataR (Header.port h)⟩,
    ⟨"UART.RXCON.W", 0xCFFF, 0xC00C, fun h d => .uartRxconW (Header.port h) d⟩,
    ⟨"UART.RXCON.R", 0xCFFF, 0x400C, fun h _ => .uartRxconR (Header.port h)⟩,
    ⟨"UART.TXCON.W", 0xCFFF, 0xC010, fun h d => .uartTxconW (Header.port h) d⟩,
    ⟨"UART.TXCON.R", 0xCFFF, 0x4010, fun h _ => .uartTxconR (Header.port h)⟩,
    ⟨"UART.BR.W", 0xCFFF, 0xC014, fun h d => .uartBrW (Header.port h) d⟩,
    ⟨"UART.BR.R", 0xCFFF, 0x4014, fun h _ => .uartBrR (Header.port h)⟩,
    ⟨"UART.CBRX.W", 0xCFFF, 0xC018, fun h d => .uartCbrxW (Header.port h) d⟩,
    ⟨"UART.CBRX.R", 0xCFFF, 0x4018, fun h _ => .uartCbrxR (Header.port h)⟩,
    ⟨"UART.CBTX.W", 0xCFFF, 0xC01C, fun h d => .uartCbtxW (Header.port h) d⟩,
    ⟨"UART.CBTX.R", 0xCFFF, 0x401C, fun h _ => .uartCbtxR (Header.port h)⟩,
    ⟨"UART.CBVALID.R", 0xCFFF, 0x4020, fun h _ => .uartCbvalidR (Header.port h)⟩,
    ⟨"UART.CBCLR", 0xCFFF, 0xC024, fun h d => .uartCbclr (Header.port h) (dataDirections d)⟩,
    ⟨"UART.MASKSET", 0xCFFF, 0xC028, fun h d => .uartMaskset (Header.port h) (dataDirections d)⟩,
    ⟨"UART.MASKCLR", 0xCFFF, 0xC02C, fun h d => .uartMaskclr (Header.port h) (dataDirections d)⟩ ]

/-- All 54 rows. -/
def rows : List Row := itcRows ++ vecRows ++ rbRows ++ uartRows

/-! ### The decoder -/

/-- Why a command word is not an operation of the block (30_encoding R87, R91). -/
inductive DecodeError where
  /-- no row matches (R91 step 3) -/
  | noRow
  /-- a row matches and its index check fails (R91 step 4) -/
  | noIndex
deriving DecidableEq, Repr

/-- The decoding procedure of 30_encoding R91, steps 1 to 5, on a header and its data. -/
def decodeParts (P : Params) (h : Header) (d : Word) : Except DecodeError Instr :=
  match rows.find? (fun r => r.selects h) with
  | none => .error .noRow
  | some r => if (r.build h d).wf P then .ok (r.build h d) else .error .noIndex

/-- The decoder, total on every command word (30_encoding R91). -/
def decode (P : Params) (cw : CommandWord) : Except DecodeError Instr :=
  decodeParts P (CommandWord.header cw) (CommandWord.data cw)

/-! ### The encoder (30_encoding R80 to R86): the canonical word of an instruction, ignored `DATA` bits zero -/

/-- `HDR = {W, 0b000, 0b00010, s, 0b00}`, format VEC. -/
def vecHeader (w : BitVec 1) (x : BitVec 5) : Header := w ++ 0#3 ++ 2#5 ++ x ++ 0#2

/-- `HDR = {W, 0b001, i, reg}`, format RB. -/
def rbHeader (w : BitVec 1) (i : BitVec 7) (reg : BitVec 5) : Header := w ++ 1#3 ++ i ++ reg

/-- `HDR = {W, 0b1, pp, OFF}`, format UART. -/
def uartHeader (w : BitVec 1) (p : BitVec 2) (off : BitVec 12) : Header := w ++ 1#1 ++ p ++ off

/-- The header of an instruction. -/
def encodeHeader : Instr → Header
  | .itcCntlW _ => 0x8000
  | .itcCntlR => 0x0000
  | .itcNimaskW _ => 0x8004
  | .itcNimaskR => 0x0004
  | .itcEnableInt _ => 0x8008
  | .itcDisableInt _ => 0x800C
  | .itcIntenableW _ => 0x8010
  | .itcIntenableR => 0x0010
  | .itcInttypeR => 0x0014
  | .itcSetFast _ => 0x8018
  | .itcSetNormal _ => 0x801C
  | .itcNivectorR => 0x0020
  | .itcFivectorR => 0x0024
  | .itcIntsrcR => 0x0028
  | .itcIntfrcW _ => 0x802C
  | .itcIntfrcR => 0x002C
  | .itcForceInt _ => 0x8030
  | .itcUnforceInt _ => 0x8034
  | .itcNipendR => 0x0038
  | .itcFipendR => 0x003C
  | .itcIntsaveR => 0x0040
  | .itcDisableInts => 0x8044
  | .itcRestoreInts => 0x8048
  | .itcVecvalidR => 0x004C
  | .itcClearHandler _ => 0x8050
  | .itcSetHandler x _ => vecHeader 1 x
  | .itcVectR x => vecHeader 0 x
  | .rbInit i _ => rbHeader 1 i 0x00
  | .rbWrite i _ => rbHeader 1 i 0x04
  | .rbRead i => rbHeader 0 i 0x08
  | .rbWstat i => rbHeader 0 i 0x0C
  | .rbRstat i => rbHeader 0 i 0x10
  | .rbCap i => rbHeader 0 i 0x14
  | .rbWptr i => rbHeader 0 i 0x18
  | .rbRptr i => rbHeader 0 i 0x1C
  | .uartConW p _ => uartHeader 1 p 0x000
  | .uartConR p => uartHeader 0 p 0x000
  | .uartStatR p => uartHeader 0 p 0x004
  | .uartDataW p _ => uartHeader 1 p 0x008
  | .uartDataR p => uartHeader 0 p 0x008
  | .uartRxconW p _ => uartHeader 1 p 0x00C
  | .uartRxconR p => uartHeader 0 p 0x00C
  | .uartTxconW p _ => uartHeader 1 p 0x010
  | .uartTxconR p => uartHeader 0 p 0x010
  | .uartBrW p _ => uartHeader 1 p 0x014
  | .uartBrR p => uartHeader 0 p 0x014
  | .uartCbrxW p _ => uartHeader 1 p 0x018
  | .uartCbrxR p => uartHeader 0 p 0x018
  | .uartCbtxW p _ => uartHeader 1 p 0x01C
  | .uartCbtxR p => uartHeader 0 p 0x01C
  | .uartCbvalidR p => uartHeader 0 p 0x020
  | .uartCbclr p _ => uartHeader 1 p 0x024
  | .uartMaskset p _ => uartHeader 1 p 0x028
  | .uartMaskclr p _ => uartHeader 1 p 0x02C

/-- The canonical `DATA` of an instruction: its operand, 0 on reads and on the operand-free commands. -/
def encodeData : Instr → Word
  | .itcCntlW v => v
  | .itcCntlR => 0
  | .itcNimaskW thr => thr.setWidth 32
  | .itcNimaskR => 0
  | .itcEnableInt n => n
  | .itcDisableInt n => n
  | .itcIntenableW m => m
  | .itcIntenableR => 0
  | .itcInttypeR => 0
  | .itcSetFast n => n
  | .itcSetNormal n => n
  | .itcNivectorR => 0
  | .itcFivectorR => 0
  | .itcIntsrcR => 0
  | .itcIntfrcW m => m
  | .itcIntfrcR => 0
  | .itcForceInt n => n
  | .itcUnforceInt n => n
  | .itcNipendR => 0
  | .itcFipendR => 0
  | .itcIntsaveR => 0
  | .itcDisableInts => 0
  | .itcRestoreInts => 0
  | .itcVecvalidR => 0
  | .itcClearHandler n => n
  | .itcSetHandler _ t => t
  | .itcVectR _ => 0
  | .rbInit _ k => k
  | .rbWrite _ b => b.setWidth 32
  | .rbRead _ => 0
  | .rbWstat _ => 0
  | .rbRstat _ => 0
  | .rbCap _ => 0
  | .rbWptr _ => 0
  | .rbRptr _ => 0
  | .uartConW _ v => v
  | .uartConR _ => 0
  | .uartStatR _ => 0
  | .uartDataW _ b => b.setWidth 32
  | .uartDataR _ => 0
  | .uartRxconW _ v => v
  | .uartRxconR _ => 0
  | .uartTxconW _ v => v
  | .uartTxconR _ => 0
  | .uartBrW _ v => v
  | .uartBrR _ => 0
  | .uartCbrxW _ t => t
  | .uartCbrxR _ => 0
  | .uartCbtxW _ t => t
  | .uartCbtxR _ => 0
  | .uartCbvalidR _ => 0
  | .uartCbclr _ d => d.setWidth 32
  | .uartMaskset _ d => d.setWidth 32
  | .uartMaskclr _ d => d.setWidth 32

/-- The command word of an instruction. -/
def encode (i : Instr) : CommandWord := commandWord (encodeHeader i) (encodeData i)

/-- The bits of a table row given as a number, bit 0 the least significant bit of `CW` (assumption log 27): the low `nbits`
bits count, every other bit of the 48 is 0. -/
def tableWord (nbits w : Nat) : CommandWord := BitVec.ofNat 48 (w % 2 ^ nbits)

/-- What the decoder reads from a table row's word, with the default parameters (assumption log 27). -/
def decodeTableWord (nbits w : Nat) : Option Instr :=
  match decode Params.default (tableWord nbits w) with
  | .ok i => some i
  | .error _ => none

/-! ### The physical address of a register (20_memory R61); no rule reads it (assumption log 3) -/

/-- `BASE_<unit> + OFF`; `none` for the reserved units 2 and 3. -/
def physicalAddress (h : Header) : Option Nat :=
  if Header.unit h = 0 then some (4 * Config.baseItcWords + (Header.off h).toNat)
  else if Header.unit h = 1 then some (4 * Config.baseRbWords + (Header.off h).toNat)
  else if (Header.unit h).getLsbD 2 then
    some (4 * Config.baseUartWords (Header.port h).toNat + (Header.off h).toNat)
  else none

end Sys2Proof
end

