-- ==== Sys2Proof/Machine/Sequences.lean ====
section
/-! DEFINITION. The twelve driver sequences (30_encoding R90) as programs of primitives: spec/41_interrupt_controller.md
R170 to R173 and spec/43_uart_driver.md R242 to R255. A line number of a rule stands behind the statements it expands to. -/

namespace Sys2Proof.Machine

/-! ### Lines -/

/-- A line at which entry is admitted. -/
def line (st : Stmt) : Line where
  stmt := st
  shut := false

/-- A line before which entry is shut (60_exceptions R282(b)). -/
def shutLine (st : Stmt) : Line where
  stmt := st
  shut := true

/-- The header of a primitive, as a literal. -/
def headerLit (i : Instr) : Expr := .lit ((encodeHeader i).setWidth 32)

/-- A transaction whose answer nobody keeps. -/
def wr (i : Instr) : Stmt := .bus none (headerLit i) (.lit (encodeData i))

/-- A write primitive whose `DATA` is computed. -/
def wrData (i : Instr) (data : Expr) : Stmt := .bus none (headerLit i) data

/-- `t <- <read primitive>`. -/
def rd (t : Temp) (i : Instr) : Stmt := .bus (some t) (headerLit i) (.lit (encodeData i))

/-! ### The names of the temporaries, numbered (10_state R20) -/

def tV : Temp := 0
def tS : Temp := 1
def tM : Temp := 2
def tH : Temp := 3
def tR : Temp := 4
def tL : Temp := 5
def tW : Temp := 6
def tI : Temp := 7
def tC : Temp := 8
def tT : Temp := 9
def tSt : Temp := 10
def tB : Temp := 11

/-! ### Fields of a value read (43_uart_driver R240) -/

/-- Bit `n` of a temporary. -/
def bitOf (t : Temp) (n : Word) : Expr := .bit (.tmp t) (.lit n)

/-- Bits [7:0] of a temporary. -/
def lowByte (t : Temp) : Expr := .and (.tmp t) (.lit 0xFF)

/-- A bit is 1. -/
def isOne (e : Expr) : Cond := .eq e (.lit 1)

/-- A value is 0. -/
def isZero (e : Expr) : Cond := .eq e (.lit 0)

/-- A value is not 0. -/
def isNonzero (e : Expr) : Cond := .ne e (.lit 0)

/-! ### Ports and rings (00_scope R10) -/

/-- The port number of a sequence called with `p < NPORTS ≤ 4`. -/
def portOf (p : Word) : BitVec 2 := p.setWidth 2

/-- `rxr(p) = 2p`. -/
def rxr (p : Word) : BitVec 7 := BitVec.ofNat 7 (2 * (portOf p).toNat)

/-- `txr(p) = 2p + 1`. -/
def txr (p : Word) : BitVec 7 := BitVec.ofNat 7 (2 * (portOf p).toNat + 1)

/-- The direction bits `TX = 0b01`, `RX = 0b10` (00_scope R10). -/
def dirTX : BitVec 2 := 1
def dirRX : BitVec 2 := 2

/-! ### The ITC sequences -/

/-- `ITC.INIT` (41 R170). The expansion shows no return line; the model returns `Ok` (60_exceptions R270; DEDUCED,
assumption log 33). -/
def itcInitProgram (P : Params) : Program :=
  (List.range P.nsrc).map (fun j => line (wr (.itcClearHandler (BitVec.ofNat 32 j)))) ++
  [ line (wr (.itcIntfrcW 0)),
    line (wr (.itcIntenableW 0)),
    line (wr (.itcCntlW 3)),
    line (.ret .ok) ]

/-- `ITC.SET_PRIORITY(s, class)` (41 R171). The expansion shows no return line; the model returns `Ok` (60_exceptions
R270; DEDUCED, assumption log 33). -/
def itcSetPriorityProgram (n : Word) (c : PriorityClass) : Program :=
  match c with
  | .fast => [ line (wr (.itcSetFast n)), line (.ret .ok) ]
  | .normal => [ line (wr (.itcSetNormal n)), line (.ret .ok) ]

/-- The header of `ITC.VECT.R s` for a computed `s`: `0x0100 + 4s` (30_encoding R84). -/
def vectHeader (n : Expr) : Expr := .add (.lit 0x0100) (.shl n 2)

/-- `ITC.SERVICE_NORMAL` (41 R172). Entry is shut before the statements of lines 1 to 4 and between lines 8 and 9
(60_exceptions R282(b)). -/
def serviceNormalProgram : Program :=
  [ /- 0 -/ shutLine (rd tV .itcNivectorR),                                       -- 1
    /- 1 -/ shutLine (.branch (isZero (bitOf tV 31)) 3),                          -- 2
    /- 2 -/ shutLine (.raise .spuriousDispatch),                                  -- 2
    /- 3 -/ shutLine (.set tS (.and (.tmp tV) (.lit 0x1F))),                      -- 3
    /- 4 -/ shutLine (wrData (.itcNimaskW 0) (.add (.tmp tS) (.lit 1))),          -- 4
    /- 5 -/ line (rd tM .itcVecvalidR),                                           -- 5
    /- 6 -/ line (.branch (isOne (.bit (.tmp tM) (.tmp tS))) 8),                  -- 5
    /- 7 -/ line (.raise .noHandler),                                             -- 5
    /- 8 -/ line (.bus (some tH) (vectHeader (.tmp tS)) (.lit 0)),                -- 6
    /- 9 -/ line (.invoke (.tmp tH)),                                             -- 7
    /- 10 -/ line (wr (.itcNimaskW 0)),                                           -- 8
    /- 11 -/ shutLine (.ret .plain) ]                                             -- 9

/-- `ITC.SERVICE_FAST` (41 R173). Entry is shut by the kind of its context (60_exceptions R282(a)). -/
def serviceFastProgram : Program :=
  [ /- 0 -/ line (rd tV .itcFivectorR),                                           -- 1
    /- 1 -/ line (.branch (isZero (bitOf tV 31)) 3),                              -- 2
    /- 2 -/ line (.raise .spuriousDispatch),                                      -- 2
    /- 3 -/ line (.set tS (.and (.tmp tV) (.lit 0x1F))),                          -- 3
    /- 4 -/ line (rd tM .itcVecvalidR),                                           -- 4
    /- 5 -/ line (.branch (isOne (.bit (.tmp tM) (.tmp tS))) 7),                  -- 4
    /- 6 -/ line (.raise .noHandler),                                             -- 4
    /- 7 -/ line (.bus (some tH) (vectHeader (.tmp tS)) (.lit 0)),                -- 5
    /- 8 -/ line (.invoke (.tmp tH)),                                             -- 6
    /- 9 -/ line (.ret .plain) ]                                                  -- 7

/-! ### The UART sequences -/

/-- Line 2 of `UART.INIT`: the divisor; an increment that no longer fits its field is above every `MOD`, so
`BadDivisor` (43 R242, R243; assumption log 18). -/
def divisorLine (P : Params) (p baud : Word) : Line :=
  if baudIncrement P baud < 2 ^ 16 then
    line (wr (.uartBrW (portOf p) (BitVec.ofNat 16 (baudIncrement P baud) ++ P.baudMod)))
  else line (.raise .badDivisor)

/-- `UART.INIT(p, baud, name)` (43 R242). -/
def uartInitProgram (P : Params) (p baud : Word) (name : Option Word) : Program :=
  if P.nports ≤ p.toNat then [ line (.ret (.err .noSuchDevice)) ]                 -- 0
  else
    match name with
    | none => [ line (.ret (.err .badAddress)) ]                                  -- 0
    | some nm =>
      let q := portOf p
      let src := P.uartSrc[q.toNat]'(q.isLt)
      [ line (wr (.uartConW q 0x300)),                                            -- 1
        divisorLine P p baud,                                                     -- 2
        line (wr (.uartConW q 0x303)),                                            -- 3
        line (.env (.pinConfig p .tx)), line (.env (.pinConfig p .cts)),          -- 4
        line (.env (.pinConfig p .rx)), line (.env (.pinConfig p .rts)),          -- 4
        line (wr (.rbInit (rxr p) (BitVec.ofNat 32 P.ringAw))),                   -- 5
        line (wr (.rbInit (txr p) (BitVec.ofNat 32 P.ringAw))),                   -- 6
        line (wr (.uartTxconW q (BitVec.ofNat 32 ((2 ^ P.hwfifoAw - 1) * 256)))), -- 7
        line (wr (.uartRxconW q 0x100)),                                          -- 8
        line (wr (.itcSetHandler src (P.isrToken[q.toNat]'(q.isLt)))),            -- 9
        line (wr (.itcSetNormal (src.setWidth 32))),                              -- 10
        line (wr (.itcEnableInt (src.setWidth 32))),                              -- 11
        line (wr (.uartCbclr q 3)),                                               -- 12
        line (wr (.uartMaskclr q dirRX)),                                         -- 13
        line (.env (.devRegister nm p)),                                          -- 14
        line (.ret .ok) ]                                                         -- 15

/-- A port out of range where SE defines no error (43 R240). -/
def badPortProgram : Program := [ line (.raise .badPort) ]

/-- `UART.SEND_BYTE(p, b)` (43 R244, R259). -/
def sendByteProgram (P : Params) (p b : Word) : Program :=
  if P.nports ≤ p.toNat then badPortProgram
  else
    let q := portOf p
    [ /- 0 -/ line (wr (.uartMaskset q dirTX)),                                   -- 1
      /- 1 -/ line (rd tR (.rbRstat (txr p))),                                    -- 3
      /- 2 -/ line (.branch (isOne (bitOf tR 0)) 10),                             -- 3
      /- 3 -/ line .waitStart,                                                    -- 4
      /- 4 -/ line (rd tL (.uartTxconR q)),                                       -- 4
      /- 5 -/ line (.branch (isNonzero (lowByte tL)) 7),                          -- 4
      /- 6 -/ line (.waitAgain 4),                                                -- 4
      /- 7 -/ line (rd tV (.rbRead (txr p))),                                     -- 5
      /- 8 -/ line (wrData (.uartDataW q 0) (.tmp tV)),                           -- 6
      /- 9 -/ line (.goto 1),                                                     -- 2
      /- 10 -/ line .waitStart,                                                   -- 7
      /- 11 -/ line (rd tL (.uartTxconR q)),                                      -- 7
      /- 12 -/ line (.branch (isNonzero (lowByte tL)) 14),                        -- 7
      /- 13 -/ line (.waitAgain 11),                                              -- 7
      /- 14 -/ line (wrData (.uartDataW q 0) (.lit b)),                           -- 8
      /- 15 -/ line (.ret .ok) ]                                                  -- 9

/-- `UART.RECEIVE_BYTE(p)` (43 R245, R259; `RXBYTE_QUIRK`, 90_conflicts C4). -/
def receiveByteProgram (P : Params) (p : Word) : Program :=
  if P.nports ≤ p.toNat then badPortProgram
  else
    let q := portOf p
    [ /- 0 -/ line (rd tR (.rbRstat (rxr p))),                                    -- 1
      /- 1 -/ line (.branch (isOne (bitOf tR 0)) 4),                              -- 2
      /- 2 -/ line (rd tV (.rbRead (if P.rxbyteQuirk then txr p else rxr p))),    -- 3
      /- 3 -/ line (.ret (.okValue (lowByte tV))),                                -- 4
      /- 4 -/ line .waitStart,                                                    -- 5
      /- 5 -/ line (rd tL (.uartRxconR q)),                                       -- 5
      /- 6 -/ line (.branch (isNonzero (lowByte tL)) 8),                          -- 5
      /- 7 -/ line (.waitAgain 5),                                                -- 5
      /- 8 -/ line (rd tV (.uartDataR q)),                                        -- 6
      /- 9 -/ line (.ret (.okValue (lowByte tV))) ]                               -- 7

/-- `UART.SEND(p, buf, n)` (43 R246). -/
def sendProgram (P : Params) (p buf n : Word) : Program :=
  if P.nports ≤ p.toNat then badPortProgram
  else
    let q := portOf p
    [ /- 0 -/ line (wr (.uartMaskset q dirTX)),                                   -- 1
      /- 1 -/ line (.set tI (.lit 0)),                                            -- 2
      /- 2 -/ line (.branch (.eq (.tmp tI) (.lit n)) 9),                          -- 4
      /- 3 -/ line (rd tW (.rbWstat (txr p))),                                    -- 5
      /- 4 -/ line (.branch (isOne (bitOf tW 0)) 9),                              -- 5
      /- 5 -/ line (.loadByte tB (.add (.lit buf) (.tmp tI))),                    -- 6
      /- 6 -/ line (wrData (.rbWrite (txr p) 0) (.tmp tB)),                       -- 6
      /- 7 -/ line (.set tI (.add (.tmp tI) (.lit 1))),                           -- 7
      /- 8 -/ line (.goto 2),                                                     -- 3
      /- 9 -/ line (wr (.uartMaskclr q dirTX)),                                   -- 8
      /- 10 -/ line (.ret (.okValue (.tmp tI))) ]                                 -- 9

/-- `UART.RECEIVE(p, buf, n)` (43 R247). -/
def receiveProgram (P : Params) (p buf n : Word) : Program :=
  if P.nports ≤ p.toNat then badPortProgram
  else
    let q := portOf p
    [ /- 0 -/ line (wr (.uartMaskset q dirRX)),                                   -- 1
      /- 1 -/ line (.set tI (.lit 0)),                                            -- 2
      /- 2 -/ line (.branch (.eq (.tmp tI) (.lit n)) 9),                          -- 4
      /- 3 -/ line (rd tR (.rbRstat (rxr p))),                                    -- 5
      /- 4 -/ line (.branch (isOne (bitOf tR 0)) 9),                              -- 5
      /- 5 -/ line (rd tV (.rbRead (rxr p))),                                     -- 6
      /- 6 -/ line (.storeByte (.add (.lit buf) (.tmp tI)) (.tmp tV)),            -- 7
      /- 7 -/ line (.set tI (.add (.tmp tI) (.lit 1))),                           -- 8
      /- 8 -/ line (.goto 2),                                                     -- 3
      /- 9 -/ line (wr (.uartMaskclr q dirRX)),                                   -- 9
      /- 10 -/ line (.ret (.okValue (.tmp tI))) ]                                 -- 10

/-- `UART.SET_RECEIVE_CALLBACK(p, cb)` (43 R248). -/
def setReceiveCallbackProgram (P : Params) (p : Word) (cb : Option Word) : Program :=
  if P.nports ≤ p.toNat then [ line (.ret (.err .noSuchDevice)) ]                 -- 0
  else
    match cb with
    | none => [ line (wr (.uartCbclr (portOf p) dirRX)), line (.ret .ok) ]        -- 1, 2
    | some t => [ line (wr (.uartCbrxW (portOf p) t)), line (.ret .ok) ]          -- 1, 2

/-- `UART.SET_SEND_CALLBACK(p, cb)` (43 R249). -/
def setSendCallbackProgram (P : Params) (p : Word) (cb : Option Word) : Program :=
  if P.nports ≤ p.toNat then [ line (.ret (.err .noSuchDevice)) ]                 -- 0
  else
    match cb with
    | none => [ line (wr (.uartCbclr (portOf p) dirTX)), line (.ret .ok) ]        -- 1, 2
    | some t => [ line (wr (.uartCbtxW (portOf p) t)), line (.ret .ok) ]          -- 1, 2

/-- `UART.ISR(p)` (43 R255). -/
def isrProgram (P : Params) (p : Word) : Program :=
  if P.nports ≤ p.toNat then badPortProgram
  else
    let q := portOf p
    [ /- 0 -/ line (rd tSt (.uartStatR q)),                                       -- 1
      /- 1 -/ line (rd tC (.uartConR q)),                                         -- 2
      /- 2 -/ line (.branch (.both (isOne (bitOf tSt 7)) (isZero (bitOf tC 9))) 4), -- 3
      /- 3 -/ line (.goto 18),                                                    -- 3
      /- 4 -/ line (rd tW (.rbWstat (rxr p))),                                    -- 5
      /- 5 -/ line (.branch (isOne (bitOf tW 0)) 11),                             -- 5
      /- 6 -/ line (rd tL (.uartRxconR q)),                                       -- 6
      /- 7 -/ line (.branch (isZero (lowByte tL)) 11),                            -- 6
      /- 8 -/ line (rd tV (.uartDataR q)),                                        -- 7
      /- 9 -/ line (wrData (.rbWrite (rxr p) 0) (lowByte tV)),                    -- 8
      /- 10 -/ line (.goto 4),                                                    -- 4
      /- 11 -/ line (rd tM (.uartCbvalidR q)),                                    -- 9
      /- 12 -/ line (.branch (isZero (bitOf tM 1)) 15),                           -- 9
      /- 13 -/ line (rd tT (.uartCbrxR q)),                                       -- 9
      /- 14 -/ line (.invoke (.tmp tT)),                                          -- 9
      /- 15 -/ line (rd tW (.rbWstat (rxr p))),                                   -- 10
      /- 16 -/ line (.branch (isZero (bitOf tW 0)) 18),                           -- 10
      /- 17 -/ line (wr (.uartMaskset q dirRX)),                                  -- 10
      /- 18 -/ line (.branch (.both (isOne (bitOf tSt 6)) (isZero (bitOf tC 8))) 20), -- 11
      /- 19 -/ line (.goto 34),                                                   -- 11
      /- 20 -/ line (rd tR (.rbRstat (txr p))),                                   -- 13
      /- 21 -/ line (.branch (isOne (bitOf tR 0)) 27),                            -- 13
      /- 22 -/ line (rd tL (.uartTxconR q)),                                      -- 14
      /- 23 -/ line (.branch (isZero (lowByte tL)) 27),                           -- 14
      /- 24 -/ line (rd tV (.rbRead (txr p))),                                    -- 15
      /- 25 -/ line (wrData (.uartDataW q 0) (.tmp tV)),                          -- 16
      /- 26 -/ line (.goto 20),                                                   -- 12
      /- 27 -/ line (rd tM (.uartCbvalidR q)),                                    -- 17
      /- 28 -/ line (.branch (isZero (bitOf tM 0)) 31),                           -- 17
      /- 29 -/ line (rd tT (.uartCbtxR q)),                                       -- 17
      /- 30 -/ line (.invoke (.tmp tT)),                                          -- 17
      /- 31 -/ line (rd tR (.rbRstat (txr p))),                                   -- 18
      /- 32 -/ line (.branch (isZero (bitOf tR 0)) 34),                           -- 18
      /- 33 -/ line (wr (.uartMaskset q dirTX)),                                  -- 18
      /- 34 -/ line (.ret .plain) ]                                               -- 19

/-- The program of a driver sequence call (30_encoding R90). -/
def seqProgram (P : Params) : Seq Word → Program
  | .itcInit => itcInitProgram P
  | .itcSetPriority n c => itcSetPriorityProgram n c
  | .serviceNormal => serviceNormalProgram
  | .serviceFast => serviceFastProgram
  | .uartInit p baud name => uartInitProgram P p baud name
  | .sendByte p b => sendByteProgram P p b
  | .receiveByte p => receiveByteProgram P p
  | .send p buf n => sendProgram P p buf n
  | .receive p buf n => receiveProgram P p buf n
  | .setReceiveCallback p cb => setReceiveCallbackProgram P p cb
  | .setSendCallback p cb => setSendCallbackProgram P p cb
  | .isr p => isrProgram P p

/-! ### The map HANDLERS (60_exceptions R284) -/

/-- The program of port `p`'s service routine if the token is `UART_ISR_TOKEN(p)` and the port exists. -/
def isrBinding (P : Params) (t : Word) (p : Fin 4) : Option Program :=
  if p.val < P.nports ∧ P.isrToken[p.val] = t then some (isrProgram P (BitVec.ofNat 32 p.val)) else none

/-- The program bound to a token in a map of the environment. -/
def boundProgram : List (Word × Program) → Word → Option Program
  | [], _ => none
  | (u, prog) :: rest, t => if u = t then some prog else boundProgram rest t

/-- `HANDLERS`: `UART_ISR_TOKEN(p)` is always bound to `UART.ISR(p)`, other tokens as the environment binds them. -/
def handlerProgram (P : Params) (handlers : List (Word × Program)) (t : Word) : Option Program :=
  (isrBinding P t 0).orElse fun _ => (isrBinding P t 1).orElse fun _ =>
    (isrBinding P t 2).orElse fun _ => (isrBinding P t 3).orElse fun _ => boundProgram handlers t

end Sys2Proof.Machine
end

