-- ==== Sys2Proof/Machine/Agents.lean ====
section
/-! DEFINITION. The agents other than the host's statements (spec/00_scope.md R7): interrupt entry (60_exceptions R281,
R282), `SYNC` (40_ring_buffer R110), the port clocks (42_uart_engine R215), `LINE` (R234), `SRC`, and the reset event
(70_reset R300). A step of an agent that is absent or not enabled changes nothing (assumption log 12). -/

namespace Sys2Proof.Machine

/-! ### Interrupt entry -/

/-- Entry is admitted at the gap before the running context's next statement: not in a fast context, not at a shut line
(60_exceptions R282). -/
def entryAdmitted (s : State) : Bool :=
  decide (s.host.running.kind ≠ .fast) &&
    match s.act.prog[s.act.pos]? with
    | some l => !l.shut
    | none => true

/-- The host takes the fast entry if `fiq_o`, else the normal entry if `irq_o`, where entry is admitted
(60_exceptions R273(a), R281). -/
def enterInterrupt (s : State) : State :=
  if entryAdmitted s then
    if fiqO s then enterContext s .fast serviceFastProgram
    else if irqO s then enterContext s .normal serviceNormalProgram
    else s
  else s

/-! ### The synchronisers -/

/-- One `SYNC(I, dir)` step. Ring `i` exists for `i < 2·NPORTS`, the hardware FIFOs for `p < NPORTS` (10_state R23). -/
def syncStep (s : State) (i : FifoId) (d : SyncDir) : State :=
  match i with
  | .ring j =>
    if j.toNat < 2 * s.params.nports then s.setRing j ((s.ring j).sync s.params.syncRing d) else s
  | .hwtx p =>
    if p.toNat < s.params.nports then
      s.setPort p { s.port p with hwtx := (s.port p).hwtx.sync s.params.syncHwfifo d }
    else s
  | .hwrx p =>
    if p.toNat < s.params.nports then
      s.setPort p { s.port p with hwrx := (s.port p).hwrx.sync s.params.syncHwfifo d }
    else s

/-! ### Clocks, pins and lines -/

/-- One cycle of `uclk(p)`. -/
def uclkStep (s : State) (p : BitVec 2) : State :=
  if p.toNat < s.params.nports then
    s.drawn.setPort p (uclkCycle s.params s.freeByte (s.port p))
  else s

/-- `LINE(p)` sets its two pins. -/
def lineStep (s : State) (p : BitVec 2) (rxd rts : Bool) : State :=
  if p.toNat < s.params.nports then s.setPort p { s.port p with rxdI := rxd, rtsI := rts } else s

/-- `SRC` sets the raw lines; those wired to a UART follow it whatever `SRC` drives (assumption log 29). -/
def srcStep (s : State) (lines : Word) : State := { s with srcLines := lines }

/-! ### Reset -/

/-- A port after the reset event: its pins are the environment's and stay (70_reset R302). -/
def resetPort (P : Params) (q : Port) : Port := Port.reset P.hwfifoAw q.rxdI q.rtsI

/-- The reset event: the block in its reset state, the host in the mainline at the start of its own program with nothing
below and no temporary written; the environment's pins, programs and memory stay (70_reset R300 to R302; assumption
log 21). -/
def resetStep (s : State) : State :=
  { s with
    itc := Itc.reset
    rings := Vector.replicate 8 (RB.reset s.params.ringAw)
    ports := s.ports.map (resetPort s.params)
    host := { s.host with
      running := Context.start .mainline s.host.main
      below := []
      result := none } }

end Sys2Proof.Machine
end

