-- ==== Sys2Proof/Machine/Itc.lean ====
section
/-! DEFINITION. The meanings of the 27 ITC primitives (spec/41_interrupt_controller.md R134 to R161). -/

namespace Sys2Proof.Machine

/-- R134: `INTCNTL.NAE <- v[0]; INTCNTL.FAE <- v[1]`. -/
def execItcCntlW (v : Word) (s : State) : Answered :=
  .next (s.setItc { s.itc with nae := v.getLsbD 0, fae := v.getLsbD 1 })

/-- R135. -/
def execItcCntlR (s : State) : Answered := .next (answer s (cntlImage s.itc))

/-- R136: `NIMASK.PRITHR <- v[5:0]`. -/
def execItcNimaskW (thr : BitVec 6) (s : State) : Answered :=
  .next (s.setItc { s.itc with prithr := thr })

/-- R137. -/
def execItcNimaskR (s : State) : Answered := .next (answer s (s.itc.prithr.setWidth 32))

/-- R138: `INTENABLE[n] <- 1`. -/
def execItcEnableInt (n : Word) (s : State) : Answered :=
  withSource s n fun j => s.setItc { s.itc with intenable := putBit s.itc.intenable j true }

/-- R139: `INTENABLE[n] <- 0`. -/
def execItcDisableInt (n : Word) (s : State) : Answered :=
  withSource s n fun j => s.setItc { s.itc with intenable := putBit s.itc.intenable j false }

/-- R142: `INTENABLE <- v & (2^NSRC - 1)`. -/
def execItcIntenableW (m : Word) (s : State) : Answered :=
  .next (s.setItc { s.itc with intenable := m &&& sourceMask s.params })

/-- R143. -/
def execItcIntenableR (s : State) : Answered := .next (answer s s.itc.intenable)

/-- R144. -/
def execItcInttypeR (s : State) : Answered := .next (answer s s.itc.inttype)

/-- R140: `INTTYPE <- 1 << n`, all 32 bits. -/
def execItcSetFast (n : Word) (s : State) : Answered :=
  withSource s n fun j => s.setItc { s.itc with inttype := 1#32 <<< j }

/-- R141: `INTTYPE[n] <- 0`. -/
def execItcSetNormal (n : Word) (s : State) : Answered :=
  withSource s n fun j => s.setItc { s.itc with inttype := putBit s.itc.inttype j false }

/-- R145: the live normal vector; reading acknowledges nothing. -/
def execItcNivectorR (s : State) : Answered := .next (answer s (vectorImage (nivector s)))

/-- R146: the live fast vector. -/
def execItcFivectorR (s : State) : Answered := .next (answer s (vectorImage (fivector s)))

/-- R147. -/
def execItcIntsrcR (s : State) : Answered := .next (answer s (intsrc s))

/-- R148: `INTFRC <- v & (2^NSRC - 1)`. -/
def execItcIntfrcW (m : Word) (s : State) : Answered :=
  .next (s.setItc { s.itc with intfrc := m &&& sourceMask s.params })

/-- R149. -/
def execItcIntfrcR (s : State) : Answered := .next (answer s s.itc.intfrc)

/-- R150: `INTFRC[n] <- 1`. -/
def execItcForceInt (n : Word) (s : State) : Answered :=
  withSource s n fun j => s.setItc { s.itc with intfrc := putBit s.itc.intfrc j true }

/-- R151: `INTFRC[n] <- 0`. -/
def execItcUnforceInt (n : Word) (s : State) : Answered :=
  withSource s n fun j => s.setItc { s.itc with intfrc := putBit s.itc.intfrc j false }

/-- R152: the threshold is not applied. -/
def execItcNipendR (s : State) : Answered := .next (answer s (nipend s))

/-- R153. -/
def execItcFipendR (s : State) : Answered := .next (answer s (fipend s))

/-- R154. -/
def execItcIntsaveR (s : State) : Answered := .next (answer s s.itc.intsave)

/-- R155, one atomic step: `INTSAVE <- INTENABLE; INTENABLE <- 0`. -/
def execItcDisableInts (s : State) : Answered :=
  .next (s.setItc { s.itc with intsave := s.itc.intenable, intenable := 0 })

/-- R156: `INTENABLE <- INTSAVE`; `INTSAVE` keeps its value (90_conflicts C8). -/
def execItcRestoreInts (s : State) : Answered :=
  .next (s.setItc { s.itc with intenable := s.itc.intsave })

/-- R157. -/
def execItcVecvalidR (s : State) : Answered := .next (answer s s.itc.vecvalid)

/-- R158: `VECVALID[n] <- 0`; `VECT[n]` keeps its bits. -/
def execItcClearHandler (n : Word) (s : State) : Answered :=
  withSource s n fun j => s.setItc { s.itc with vecvalid := putBit s.itc.vecvalid j false }

/-- R159: `VECT[s] <- h; VECVALID[s] <- 1`. -/
def execItcSetHandler (x : BitVec 5) (t : Word) (s : State) : Answered :=
  withVector s x fun _ =>
    .next (s.setItc { s.itc with
      vect := s.itc.vect.set x.toNat t x.isLt
      vecvalid := putBit s.itc.vecvalid x.toNat true })

/-- R160: with `VECVALID[s] = 0` the value is a draw. -/
def execItcVectR (x : BitVec 5) (s : State) : Answered :=
  withVector s x fun _ =>
    .next (if s.itc.vecvalid.getLsbD x.toNat then answer s (s.vect x) else answer s.drawn s.freeWord)

end Sys2Proof.Machine
end

