-- ==== Sys2Proof/Machine/Ring.lean ====
section
/-! DEFINITION. The meanings of the eight RB-bank primitives (spec/40_ring_buffer.md R113 to R120). Every one answers
`BusUndefined` for an instance that does not exist (30_encoding R87). -/

namespace Sys2Proof.Machine

/-- R113 with R106: `BadCapacity` when `k > RING_AW`. -/
def execRbInit (i : BitVec 7) (k : Word) (s : State) : Answered :=
  withRing s i fun j =>
    if k.toNat ≤ s.params.ringAw then .next (s.setRing j ((s.ring j).init (k.setWidth 5)))
    else .fault .badCapacity

/-- R114 with R104: `RBWriteFull` on a full ring. -/
def execRbWrite (i : BitVec 7) (b : Byte) (s : State) : Answered :=
  withRing s i fun j =>
    if (s.ring j).full s.params.syncRing then .fault .rbWriteFull
    else .next (s.setRing j ((s.ring j).push b))

/-- R115 with R105: `RBReadEmpty` on an empty ring. -/
def execRbRead (i : BitVec 7) (s : State) : Answered :=
  withRing s i fun j =>
    if (s.ring j).empty s.params.syncRing then .fault .rbReadEmpty
    else .next (answer (s.drawn.setRing j (s.ring j).pop) (((s.ring j).front s.freeByte).setWidth 32))

/-- R116. -/
def execRbWstat (i : BitVec 7) (s : State) : Answered :=
  withRing s i fun j => .next (answer s ((s.ring j).wstatWord s.params.syncRing))

/-- R117. -/
def execRbRstat (i : BitVec 7) (s : State) : Answered :=
  withRing s i fun j => .next (answer s ((s.ring j).rstatWord s.params.syncRing))

/-- R118. -/
def execRbCap (i : BitVec 7) (s : State) : Answered :=
  withRing s i fun j => .next (answer s (s.ring j).capWord)

/-- R119. -/
def execRbWptr (i : BitVec 7) (s : State) : Answered :=
  withRing s i fun j => .next (answer s (s.ring j).wptrWord)

/-- R120. -/
def execRbRptr (i : BitVec 7) (s : State) : Answered :=
  withRing s i fun j => .next (answer s (s.ring j).rptrWord)

end Sys2Proof.Machine
end

