-- ==== Sys2Proof/Machine/Dispatch.lean ====
section
/-! DEFINITION. The meaning of every instruction: one arm per constructor of Instr, one meaning each. -/

namespace Sys2Proof.Machine

def exec (i : Instr) (s : State) : Host.Outcome State Fault Refusal :=
  match i with
  | .itcCntlW v => Sys2Proof.Machine.execItcCntlW v s
  | .itcCntlR => Sys2Proof.Machine.execItcCntlR s
  | .itcNimaskW thr => Sys2Proof.Machine.execItcNimaskW thr s
  | .itcNimaskR => Sys2Proof.Machine.execItcNimaskR s
  | .itcEnableInt n => Sys2Proof.Machine.execItcEnableInt n s
  | .itcDisableInt n => Sys2Proof.Machine.execItcDisableInt n s
  | .itcIntenableW m => Sys2Proof.Machine.execItcIntenableW m s
  | .itcIntenableR => Sys2Proof.Machine.execItcIntenableR s
  | .itcInttypeR => Sys2Proof.Machine.execItcInttypeR s
  | .itcSetFast n => Sys2Proof.Machine.execItcSetFast n s
  | .itcSetNormal n => Sys2Proof.Machine.execItcSetNormal n s
  | .itcNivectorR => Sys2Proof.Machine.execItcNivectorR s
  | .itcFivectorR => Sys2Proof.Machine.execItcFivectorR s
  | .itcIntsrcR => Sys2Proof.Machine.execItcIntsrcR s
  | .itcIntfrcW m => Sys2Proof.Machine.execItcIntfrcW m s
  | .itcIntfrcR => Sys2Proof.Machine.execItcIntfrcR s
  | .itcForceInt n => Sys2Proof.Machine.execItcForceInt n s
  | .itcUnforceInt n => Sys2Proof.Machine.execItcUnforceInt n s
  | .itcNipendR => Sys2Proof.Machine.execItcNipendR s
  | .itcFipendR => Sys2Proof.Machine.execItcFipendR s
  | .itcIntsaveR => Sys2Proof.Machine.execItcIntsaveR s
  | .itcDisableInts => Sys2Proof.Machine.execItcDisableInts s
  | .itcRestoreInts => Sys2Proof.Machine.execItcRestoreInts s
  | .itcVecvalidR => Sys2Proof.Machine.execItcVecvalidR s
  | .itcClearHandler n => Sys2Proof.Machine.execItcClearHandler n s
  | .itcSetHandler x t => Sys2Proof.Machine.execItcSetHandler x t s
  | .itcVectR x => Sys2Proof.Machine.execItcVectR x s
  | .rbInit j k => Sys2Proof.Machine.execRbInit j k s
  | .rbWrite j b => Sys2Proof.Machine.execRbWrite j b s
  | .rbRead j => Sys2Proof.Machine.execRbRead j s
  | .rbWstat j => Sys2Proof.Machine.execRbWstat j s
  | .rbRstat j => Sys2Proof.Machine.execRbRstat j s
  | .rbCap j => Sys2Proof.Machine.execRbCap j s
  | .rbWptr j => Sys2Proof.Machine.execRbWptr j s
  | .rbRptr j => Sys2Proof.Machine.execRbRptr j s
  | .uartConW p v => Sys2Proof.Machine.execUartConW p v s
  | .uartConR p => Sys2Proof.Machine.execUartConR p s
  | .uartStatR p => Sys2Proof.Machine.execUartStatR p s
  | .uartDataW p b => Sys2Proof.Machine.execUartDataW p b s
  | .uartDataR p => Sys2Proof.Machine.execUartDataR p s
  | .uartRxconW p v => Sys2Proof.Machine.execUartRxconW p v s
  | .uartRxconR p => Sys2Proof.Machine.execUartRxconR p s
  | .uartTxconW p v => Sys2Proof.Machine.execUartTxconW p v s
  | .uartTxconR p => Sys2Proof.Machine.execUartTxconR p s
  | .uartBrW p v => Sys2Proof.Machine.execUartBrW p v s
  | .uartBrR p => Sys2Proof.Machine.execUartBrR p s
  | .uartCbrxW p t => Sys2Proof.Machine.execUartCbrxW p t s
  | .uartCbrxR p => Sys2Proof.Machine.execUartCbrxR p s
  | .uartCbtxW p t => Sys2Proof.Machine.execUartCbtxW p t s
  | .uartCbtxR p => Sys2Proof.Machine.execUartCbtxR p s
  | .uartCbvalidR p => Sys2Proof.Machine.execUartCbvalidR p s
  | .uartCbclr p d => Sys2Proof.Machine.execUartCbclr p d s
  | .uartMaskset p d => Sys2Proof.Machine.execUartMaskset p d s
  | .uartMaskclr p d => Sys2Proof.Machine.execUartMaskclr p d s

end Sys2Proof.Machine
end

