-- ==== Sys2Proof/Machine/HostLine.lean ====
section
/-! DEFINITION. The host: one statement of the running context's sequence (spec/00_scope.md R9, 10_state R20, R21,
43_uart_driver R240, 60_exceptions R281 to R285), and one event of the schedule. -/

namespace Sys2Proof.Machine

/-- What an expression's value is used for; an unwritten temporary is `UnwrittenTemporary` (10_state R20). -/
def withValue {α : Type} (v : Option α) (f : α → Answered) : Answered :=
  match v with
  | none => .fault .unwrittenTemporary
  | some x => f x

/-- The state with the running activation at its next statement. -/
def advanced (s : State) : State := s.setAct s.act.advance

/-- The state with a temporary of the running activation assigned and the next statement reached. -/
def assigned (s : State) (dst : Option Temp) (v : Word) : State :=
  s.setAct (s.act.assign dst v).advance

/-- The command word of a transaction: the low 16 bits of the header value, and the data (30_encoding R80). -/
def busWord (h d : Word) : CommandWord := commandWord (h.setWidth 16) d

/-- One bus transaction: the word is decoded and performed, the answer goes to the temporary (20_memory R62,
30_encoding R91). A write that names a temporary, which the spec's listings never do (R89), assigns it the word
`rdata` holds: DESIGN CHOICE, assumption log 34. -/
def transact (s : State) (dst : Option Temp) (cw : CommandWord) : Answered :=
  match decode s.params cw with
  | .error _ => .fault .busUndefined
  | .ok i =>
    match exec i s with
    | .next t => .next (assigned t dst t.rdata)
    | .fault f => .fault f
    | .refused r => .refused r

/-- `Invoke(t)` (60_exceptions R284). -/
def invokeToken (s : State) (t : Word) : Answered :=
  match handlerProgram s.params s.host.handlers t with
  | none => .fault .noHandler
  | some prog => .next (enterProgram s prog none)

/-- The byte of host memory a sequence reads; one nothing has written is a free value (assumption log 17). -/
def loadHostByte (s : State) (t : Temp) (a : Word) : State :=
  assigned s.drawn (some t) (((s.host.mem.read a.toNat).getD s.freeByte).setWidth 32)

/-- The byte of host memory a sequence writes, `v[7:0]`. -/
def storeHostByte (s : State) (a v : Word) : State :=
  advanced { s with host := { s.host with mem := s.host.mem.write a.toNat (dataByte v) } }

/-- A poll found nothing: poll again, or after `BUSY_BOUND` polls return `Err(Timeout)` (43_uart_driver R259). -/
def waitOn (s : State) (target : Nat) : State :=
  let polls := s.act.polls + 1
  match s.params.busyBound with
  | none => s.setAct { s.act with polls := polls, pos := target }
  | some n =>
    if n ≤ polls then returnFrom s (some (.err .timeout))
    else s.setAct { s.act with polls := polls, pos := target }

/-- A `return` line (60_exceptions R270, R285). -/
def runReturn (s : State) : Answer → Answered
  | .plain => .next (returnFrom s none)
  | .ok => .next (returnFrom s (some .ok))
  | .okValue e => withValue (evalExpr s.act.temps e) fun v => .next (returnFrom s (some (.okValue v)))
  | .err k => .next (returnFrom s (some (.err k)))

/-- One statement of the running activation. -/
def runStmt (s : State) : Stmt → Answered
  | .bus dst hdr data =>
    withValue (evalExpr s.act.temps hdr) fun h =>
      withValue (evalExpr s.act.temps data) fun d => transact s dst (busWord h d)
  | .set t e => withValue (evalExpr s.act.temps e) fun v => .next (assigned s (some t) v)
  | .branch c target =>
    withValue (evalCond s.act.temps c) fun b =>
      .next (if b then s.setAct (s.act.goto target) else advanced s)
  | .goto target => .next (s.setAct (s.act.goto target))
  | .invoke e => withValue (evalExpr s.act.temps e) fun t => invokeToken s t
  | .call dst q =>
    withValue (evalSeq s.act.temps q) fun q => .next (enterProgram s (seqProgram s.params q) dst)
  | .loadByte t e => withValue (evalExpr s.act.temps e) fun a => .next (loadHostByte s t a)
  | .storeByte e v =>
    withValue (evalExpr s.act.temps e) fun a =>
      withValue (evalExpr s.act.temps v) fun x => .next (storeHostByte s a x)
  | .env _ => .next (advanced s)
  | .waitStart => .next (s.setAct { s.act with polls := 0, pos := s.act.pos + 1 })
  | .waitAgain target => .next (waitOn s target)
  | .ret a => runReturn s a
  | .raise f => .fault f

/-- The host's next statement; behind the last one, the program returns (assumption log 10). -/
def hostStep (s : State) : Answered :=
  match s.act.prog[s.act.pos]? with
  | none => .next (returnFrom s none)
  | some l => runStmt s l.stmt

/-- One event of the schedule (00_scope R7, 70_reset R325). -/
def runEvent (s : State) : Event → Answered
  | .host => hostStep s
  | .enter => .next (enterInterrupt s)
  | .sync i d => .next (syncStep s i d)
  | .uclk p => .next (uclkStep s p)
  | .line p rxd rts => .next (lineStep s p rxd rts)
  | .src lines => .next (srcStep s lines)
  | .reset => .next (resetStep s)

/-- One step: the first event of the agenda, or the host when the agenda is empty (assumption log 7). -/
def agendaStep (s : State) : Answered :=
  match s.agenda with
  | [] => hostStep s
  | e :: rest => runEvent { s with agenda := rest } e

/-- The line of one given command word, as a program of the host writes it. -/
def wordLine (cw : CommandWord) : Line :=
  line (.bus none (.lit ((CommandWord.header cw).setWidth 32)) (.lit (CommandWord.data cw)))

/-- The state with the host about to issue the command word: the running activation's next statement is that
transaction and the agenda lets the host move (assumption log 9). -/
def placeWord (s : State) (cw : CommandWord) : State :=
  let before := s.act.prog.take s.act.pos
  { s.setAct { s.act with
      prog := before ++ wordLine cw :: s.act.prog.drop (s.act.pos + 1)
      pos := before.length } with
    agenda := [] }

end Sys2Proof.Machine
end

