-- ==== Sys2Proof/Machine/Step.lean ====
section
/-! DEFINITION. The step of the machine, and the placing of one command word where the step takes its next one. -/

namespace Sys2Proof.Machine

/-- One step of the machine (00_scope R7; assumption log 7). -/
def step (s : State) : Host.Outcome State Fault Refusal := agendaStep s

/-- The state whose very next step issues the command word of a table row (assumption logs 9, 27). -/
def State.withFetchWord (s : State) (nbits w : Nat) : State := placeWord s (tableWord nbits w)

end Sys2Proof.Machine
end

