-- ==== Sys2Proof/Safety.lean ====
section
/-! DEFINITION. The terms the statements use: the invariants of a reachable fault-free state (spec/10_state.md R30), the
register map as the access columns give it (R24, R25, 40_ring_buffer R100), the contents of a ring as a queue, runs of the
engines by ticks and cycles, and fair schedules (70_reset R325). -/

namespace Sys2Proof.Machine

/-! ### Invariants (10_state R30) -/

/-- R30(b) for one instance, with the ranges of its registers (R22): `K ≤ AW`, pointers below `M`,
`rcount ≤ count ≤ wcount ≤ CAP`, storage in canonical form inside `2^AW`. -/
abbrev RB.Inv (aw sy : Nat) (r : RB) : Prop :=
  r.k.toNat ≤ aw ∧
  (r.wbin.toNat < r.modulus ∧ r.rbin.toNat < r.modulus ∧ r.wqR.toNat < r.modulus ∧ r.rqW.toNat < r.modulus) ∧
  (r.rcount sy ≤ r.count ∧ r.count ≤ r.wcount sy ∧ r.wcount sy ≤ r.cap) ∧
  (r.mem.wf ∧ ∀ c ∈ r.mem, c.1 < 2 ^ aw)

/-- The bits of sources that do not exist are 0 (R30(c)). -/
abbrev OnlySources (P : Params) (v : Word) : Prop := v &&& ~~~(sourceMask P) = 0

/-- R30(a), R30(c). -/
abbrev Itc.Inv (P : Params) (c : Itc) : Prop :=
  popcount c.inttype ≤ 1 ∧ OnlySources P c.intenable ∧ OnlySources P c.intfrc ∧ OnlySources P c.inttype ∧
  OnlySources P c.vecvalid ∧ OnlySources P c.intsave

/-- The FIFOs of a port, a legal divisor (42_uart_engine R217) and R30(d), `bacc < max(MOD, 1)` (10_state R26). -/
abbrev Port.Inv (P : Params) (q : Port) : Prop :=
  q.hwtx.Inv P.hwfifoAw P.syncHwfifo ∧ q.hwrx.Inv P.hwfifoAw P.syncHwfifo ∧
  (q.brMod.toNat = 0 ∨ q.brInc.toNat ≤ q.brMod.toNat) ∧ q.bacc.toNat < max q.brMod.toNat 1

/-- The context stack: the mainline is the bottom and only the bottom, a fast context is only the top (60_exceptions R280,
R282(a)). -/
abbrev ContextsInv (h : HostSide) : Prop :=
  ((h.running :: h.below).getLast (List.cons_ne_nil _ _)).kind = .mainline ∧
  (∀ c ∈ (h.running :: h.below).dropLast, c.kind ≠ .mainline) ∧
  (∀ c ∈ h.below, c.kind ≠ .fast)

/-- Every invariant of a reachable fault-free state. -/
abbrev State.Inv (s : State) : Prop :=
  s.params.wf ∧ s.itc.Inv s.params ∧
  (∀ j : Fin 8, (s.rings[j.val]).Inv s.params.ringAw s.params.syncRing) ∧
  (∀ p : Fin 4, (s.ports[p.val]).Inv s.params) ∧
  ContextsInv s.host ∧ s.host.mem.wf

/-! ### The register map by its access columns (10_state R24, R25, 40_ring_buffer R100) -/

/-- Offsets of ITC registers that may be written. -/
def itcWritable : List Nat :=
  [0x000, 0x004, 0x008, 0x00C, 0x010, 0x018, 0x01C, 0x02C, 0x030, 0x034, 0x044, 0x048, 0x050]

/-- Offsets of ITC registers that may be read. -/
def itcReadable : List Nat :=
  [0x000, 0x004, 0x010, 0x014, 0x020, 0x024, 0x028, 0x02C, 0x038, 0x03C, 0x040, 0x04C]

/-- Registers of a ring that may be written, and read. -/
def rbWritable : List Nat := [0x00, 0x04]
def rbReadable : List Nat := [0x08, 0x0C, 0x10, 0x14, 0x18, 0x1C]

/-- Offsets of UART registers that may be written, and read. -/
def uartWritable : List Nat := [0x00, 0x08, 0x0C, 0x10, 0x14, 0x18, 0x1C, 0x24, 0x28, 0x2C]
def uartReadable : List Nat := [0x00, 0x04, 0x08, 0x0C, 0x10, 0x14, 0x18, 0x1C, 0x20]

/-- The access column allows this access: unit, byte offset, direction (30_encoding R81, R82, R87). -/
def Accessible (P : Params) (write : Bool) (unit off : Nat) : Prop :=
  (unit = 0 ∧ off ∈ (if write then itcWritable else itcReadable)) ∨
  (unit = 0 ∧ ∃ x, x < 32 ∧ x < P.nsrc ∧ off = 0x100 + 4 * x) ∨
  (unit = 1 ∧ off / 32 < 2 * P.nports ∧ off % 32 ∈ (if write then rbWritable else rbReadable)) ∨
  (4 ≤ unit ∧ unit - 4 < P.nports ∧ off ∈ (if write then uartWritable else uartReadable))

/-! ### Which words are a primitive (30_encoding R80, R82, R83) -/

/-- Header `h` with any data `d` is the instruction `f d`, wherever its index exists; where it does not, the word is refused.
`f` says which bits of `DATA` count. -/
def Performs (h : Header) (f : Word → Instr) : Prop :=
  ∀ (P : Params) (d : Word),
    decode P (commandWord h d) = if (f d).wf P then .ok (f d) else .error .noIndex

/-- `base | i << 5`, the header for ring instance `i` (40_ring_buffer R113 to R120). -/
def atRing (base : Header) (i : BitVec 7) : Header := base ||| (i.setWidth 16 <<< 5)

/-- `base + (p << 12)`, the header for port `p` (42_uart_engine section 2). -/
def atPort (base : Header) (p : BitVec 2) : Header := base + (p.setWidth 16 <<< 12)

/-- `base + 4s`, the header for source `s` (41_interrupt_controller R159, R160). -/
def atSource (base : Header) (x : BitVec 5) : Header := base + 4 * x.setWidth 16

/-! ### The arbiter's set (41_interrupt_controller R131) -/

/-- Source `k` is pending, normal and at or above the threshold: a member of `npass`. -/
def passes (s : State) (k : Nat) : Bool := (nipend s).getLsbD k && decide (s.itc.prithr.toNat ≤ k)

/-! ### A ring as a queue (40_ring_buffer R109) -/

/-- What the slots between `rbin` and `wbin` hold, oldest first. -/
def RB.contents (r : RB) : List (Option Byte) :=
  (List.range r.count).map fun j => r.mem.read ((r.rbin.toNat + j) % r.cap)

/-- What happens to one instance. -/
inductive RingOp where
  | write (b : Byte)
  | read
  | sync (d : SyncDir)
deriving DecidableEq, Repr

/-- The bytes written, in order. -/
def RingOp.written : List RingOp → List Byte
  | [] => []
  | .write b :: rest => b :: RingOp.written rest
  | .read :: rest => RingOp.written rest
  | .sync _ :: rest => RingOp.written rest

/-- A run of operations on an instance with what its reads found; `none` where a precondition fails. -/
def ringRun (sy : Nat) : RB → List RingOp → Option (RB × List (Option Byte))
  | r, [] => some (r, [])
  | r, .write b :: rest => if r.full sy then none else ringRun sy (r.push b) rest
  | r, .read :: rest =>
    if r.empty sy then none
    else (ringRun sy r.pop rest).map fun x => (x.1, r.mem.read r.readSlot :: x.2)
  | r, .sync d :: rest => ringRun sy (r.sync sy d) rest

/-! ### Runs of the engines -/

/-- `n` cycles of the port clock; `free` gives the free byte of each. -/
def portCycles (P : Params) (free : Nat → Byte) : Nat → Port → Port
  | 0, q => q
  | n + 1, q => uclkCycle P (free n) (portCycles P free n q)

/-- How many of the first `n` cycles make a tick. -/
def portTicks (P : Params) (free : Nat → Byte) : Nat → Port → Nat
  | 0, _ => 0
  | n + 1, q => portTicks P free n q + if (samplePins (portCycles P free n q)).ticks then 1 else 0

/-- `n` tick steps of the transmit engine. -/
def txTicks (P : Params) (free : Nat → Byte) : Nat → Port → Port
  | 0, q => q
  | n + 1, q => txTick P (free n) (txTicks P free n q)

/-- `n` tick steps of the receive engine, `level j` on the line at tick `j`. -/
def rxTicks (P : Params) (level : Nat → Bool) : Nat → Port → Port
  | 0, q => q
  | n + 1, q => rxTick P { rxTicks P level n q with rxdS := level n }

/-- The levels of a frame in line order: start, eight data bits least significant first, the parity bit if present, stop
(42_uart_engine R220, R221, R233). -/
def frameLevels (pen eps : Bool) (b : Byte) : List Bool :=
  [false] ++ (List.range 8).map (fun j => b.getLsbD j) ++ (if pen then [parity eps b] else []) ++ [true]

/-! ### Schedules and fairness (70_reset R325) -/

/-- An unending run: the agent of event `σ n` moves from state `t n` to state `t (n + 1)`. -/
def IsRun (σ : Nat → Event) (t : Nat → State) : Prop := ∀ n, runEvent (t n) (σ n) = .next (t (n + 1))

/-- An event that stays enabled is taken. -/
def WeaklyFair (σ : Nat → Event) (t : Nat → State) (enabled : State → Prop) (e : Event) : Prop :=
  ∀ n, (∀ m, n ≤ m → enabled (t m)) → ∃ m, n ≤ m ∧ σ m = e

/-- The fairness of 70_reset R325: every `SYNC` step, the port clocks, interrupt entry and the host's next line are weakly
fair; `LINE`, `SRC` and reset are not. -/
def FairRun (σ : Nat → Event) (t : Nat → State) : Prop :=
  IsRun σ t ∧
  (∀ i d, WeaklyFair σ t (fun s => syncStep s i d ≠ s) (.sync i d)) ∧
  (∀ p, WeaklyFair σ t
    (fun s => ((s.port p).txe || (s.port p).rxe) = true ∧ (s.port p).brMod ≠ 0 ∧ (s.port p).brInc ≠ 0) (.uclk p)) ∧
  WeaklyFair σ t (fun s => entryAdmitted s = true ∧ (fiqO s || irqO s) = true) .enter ∧
  WeaklyFair σ t (fun _ => True) .host

/-! ### Frames -/

/-- The block's units are as they were. -/
def BlockUnchanged (s t : State) : Prop := t.itc = s.itc ∧ t.rings = s.rings ∧ t.ports = s.ports

end Sys2Proof.Machine
end

