-- ==== Sys2Proof/Certificates/Slice0/Obligations.lean ====
section
/-! DEFINITION. The statements for the provers, one `def Obligations.<Name> : Prop` each (OBLIGATIONS.json lists them).
Most of them say three things of an instruction at once: that it answers a next state, what that state holds, and that it
is the old state with nothing else replaced; that `rdata` is among what a write leaves is the model's choice (assumption
log 8). -/

open Sys2Proof Sys2Proof.Machine

/-! ### Encoding (spec/30_encoding.md) -/

/-- R80 to R86, R91: the decoder reads back every well-formed instruction from its command word. -/
def Obligations.DecodeOfEncodeIsTheInstruction : Prop :=
  ∀ (P : Params) (i : Instr), i.wf P = true → decode P (encode i) = .ok i

/-- R80, R82, R91: a word the decoder accepts differs from the canonical word of its instruction in `DATA` only. -/
def Obligations.DecodedWordKeepsItsHeader : Prop :=
  ∀ (P : Params) (cw : CommandWord) (i : Instr), decode P cw = .ok i →
    i.wf P = true ∧ CommandWord.header (encode i) = CommandWord.header cw

/-- R91 step 2 (the spec marks R91 as derived from its tables): at most one row of the opcode map selects a header,
and the map has 54 rows of distinct mnemonics. -/
def Obligations.OpcodeRowsAreDisjoint : Prop :=
  rows.length = 54 ∧ (rows.map Row.mnemonic).Nodup ∧
  ∀ (h : Header) (a b : Row), a ∈ rows → b ∈ rows → a.selects h = true → b.selects h = true →
    a.mnemonic = b.mnemonic

/-- R81, R82, R87 against the access columns of R24, R25 and R100: the decoder accepts exactly the accesses the
register map allows, whatever the data. -/
def Obligations.DecoderAcceptsTheRegisterMap : Prop :=
  ∀ (P : Params) (cw : CommandWord),
    (∃ i, decode P cw = .ok i) ↔
      Accessible P (Header.isWrite (CommandWord.header cw)) (Header.unit (CommandWord.header cw)).toNat
        (Header.off (CommandWord.header cw)).toNat

/-- Words written out from R80 to R86 (95_test_vectors V-E1 to V-E7) decode to the instructions they stand for, for
one row of every format and family. -/
def Obligations.SpecWordsDecode : Prop :=
  decode Params.default 0x800800000005 = .ok (.itcEnableInt 5) ∧
  decode Params.default 0x810C00003000 = .ok (.itcSetHandler 3 0x3000) ∧
  decode Params.default 0x011400000000 = .ok (.itcVectR 5) ∧
  decode Params.default 0x902400000041 = .ok (.rbWrite 1 0x41) ∧
  decode Params.default 0x103C00000000 = .ok (.rbRptr 1) ∧
  decode Params.default 0xD00800000055 = .ok (.uartDataW 1 0x55) ∧
  decode Params.default 0xC01403002710 = .ok (.uartBrW 0 0x03002710)

/-- The host's next statement being a bus transaction, one step (with an empty agenda, or with `host` at its head)
performs the decoded primitive, puts its answer into the named temporary and goes to the next statement (R62, R91). A
header or data that reads a temporary never assigned is `Fault(UnwrittenTemporary)` (R20, R271), and a temporary reads
as such exactly while nothing is stored for it. Model's choice: the agenda (assumption log 7), and that a write which
names a temporary assigns it the word `rdata` holds (assumption logs 8, 34). -/
def Obligations.StepPerformsTheDecodedPrimitive : Prop :=
  (∀ (s r : State) (dst : Option Temp) (hdr data : Expr) (shut : Bool),
    ((s.agenda = [] ∧ r = s) ∨ (s.agenda = .host :: r.agenda ∧ r = { s with agenda := r.agenda })) →
    s.act.prog[s.act.pos]? = some { stmt := .bus dst hdr data, shut := shut } →
    (∀ (h d : Word) (i : Instr),
      evalExpr s.act.temps hdr = some h → evalExpr s.act.temps data = some d →
      decode s.params (busWord h d) = .ok i →
      step s = match exec i r with
        | .next t => .next (assigned t dst t.rdata)
        | .fault f => .fault f
        | .refused e => .refused e) ∧
    (evalExpr s.act.temps hdr = none ∨ evalExpr s.act.temps data = none →
      step s = .fault .unwrittenTemporary)) ∧
  ∀ (temps : List (Temp × Word)) (t : Temp), evalExpr temps (.tmp t) = none ↔ ∀ w, (t, w) ∉ temps

/-- The word of a well-formed instruction, placed where the step fetches, is what the very next step performs (the
placing is the model's, assumption logs 9, 27). -/
def Obligations.FetchedWordIsPerformed : Prop :=
  ∀ (s : State) (i : Instr), i.wf s.params = true →
    step (s.withFetchWord 48 (encode i).toNat) =
      match exec i (s.withFetchWord 48 (encode i).toNat) with
      | .next t => .next (advanced t)
      | .fault f => .fault f
      | .refused e => .refused e

/-- R87: a transaction the register map does not allow, and a primitive whose index names nothing, is
`Fault(BusUndefined)`. -/
def Obligations.UndefinedAccessFaults : Prop :=
  (∀ (s : State) (dst : Option Temp) (hdr data : Expr) (shut : Bool) (h d : Word),
    s.agenda = [] →
    s.act.prog[s.act.pos]? = some { stmt := .bus dst hdr data, shut := shut } →
    evalExpr s.act.temps hdr = some h → evalExpr s.act.temps data = some d →
    ¬ Accessible s.params (h.getLsbD 15) (h.extractLsb' 12 3).toNat (h.extractLsb' 0 12).toNat →
    step s = .fault .busUndefined) ∧
  ∀ (s : State) (i : Instr), i.wf s.params = false → exec i s = .fault .busUndefined

/-! ### The ITC (spec/41_interrupt_controller.md) -/

/-- R161: a source id out of range faults in each of the seven commands that take one. -/
def Obligations.SourceOutOfRangeFaults : Prop :=
  ∀ (s : State) (n : Word), s.params.nsrc ≤ n.toNat →
    exec (.itcEnableInt n) s = .fault .badSource ∧ exec (.itcDisableInt n) s = .fault .badSource ∧
    exec (.itcSetFast n) s = .fault .badSource ∧ exec (.itcSetNormal n) s = .fault .badSource ∧
    exec (.itcForceInt n) s = .fault .badSource ∧ exec (.itcUnforceInt n) s = .fault .badSource ∧
    exec (.itcClearHandler n) s = .fault .badSource

/-- R134, R136, R142, R148: the writable ITC registers take their fields; every other bit and all else stays. -/
def Obligations.ControlAndMaskRegisterWrites : Prop :=
  Performs 0x8000 .itcCntlW ∧ Performs 0x8004 (fun d => .itcNimaskW (d.setWidth 6)) ∧
  Performs 0x8010 .itcIntenableW ∧ Performs 0x802C .itcIntfrcW ∧
  ∀ s : State,
    (∀ v : Word, ∃ t, exec (.itcCntlW v) s = .next t ∧ t.itc.nae = v.getLsbD 0 ∧ t.itc.fae = v.getLsbD 1 ∧
      t = s.setItc { s.itc with nae := t.itc.nae, fae := t.itc.fae }) ∧
    (∀ thr : BitVec 6, ∃ t, exec (.itcNimaskW thr) s = .next t ∧ t.itc.prithr = thr ∧
      t = s.setItc { s.itc with prithr := t.itc.prithr }) ∧
    (∀ m : Word, ∃ t, exec (.itcIntenableW m) s = .next t ∧
      t = s.setItc { s.itc with intenable := t.itc.intenable } ∧
      ∀ k < 32, t.itc.intenable.getLsbD k = (m.getLsbD k && decide (k < s.params.nsrc))) ∧
    (∀ m : Word, ∃ t, exec (.itcIntfrcW m) s = .next t ∧ t = s.setItc { s.itc with intfrc := t.itc.intfrc } ∧
      ∀ k < 32, t.itc.intfrc.getLsbD k = (m.getLsbD k && decide (k < s.params.nsrc)))

/-- R135, R137, R143, R149, R154, R157, and the read of R144: the reads of stored ITC registers answer the register
and change nothing. -/
def Obligations.StoredItcRegistersRead : Prop :=
  Performs 0x0000 (fun _ => .itcCntlR) ∧ Performs 0x0004 (fun _ => .itcNimaskR) ∧
  Performs 0x0010 (fun _ => .itcIntenableR) ∧ Performs 0x0014 (fun _ => .itcInttypeR) ∧
  Performs 0x002C (fun _ => .itcIntfrcR) ∧ Performs 0x0040 (fun _ => .itcIntsaveR) ∧
  Performs 0x004C (fun _ => .itcVecvalidR) ∧
  ∀ s : State,
    (∃ v, exec .itcCntlR s = .next (answer s v) ∧
      v.toNat = (if s.itc.nae then 1 else 0) + (if s.itc.fae then 2 else 0)) ∧
    (∃ v, exec .itcNimaskR s = .next (answer s v) ∧ v.toNat = s.itc.prithr.toNat) ∧
    exec .itcIntenableR s = .next (answer s s.itc.intenable) ∧
    exec .itcInttypeR s = .next (answer s s.itc.inttype) ∧
    exec .itcIntfrcR s = .next (answer s s.itc.intfrc) ∧
    exec .itcIntsaveR s = .next (answer s s.itc.intsave) ∧
    exec .itcVecvalidR s = .next (answer s s.itc.vecvalid)

/-- R138, R139, R150, R151: one bit of the enable or of the force register changes, every other bit and all else
stays; a source out of range is `Fault(BadSource)`. -/
def Obligations.EnableAndForceChangeOneBit : Prop :=
  Performs 0x8008 .itcEnableInt ∧ Performs 0x800C .itcDisableInt ∧
  Performs 0x8030 .itcForceInt ∧ Performs 0x8034 .itcUnforceInt ∧
  ∀ (s : State) (n : Word),
    (s.params.nsrc ≤ n.toNat →
      exec (.itcEnableInt n) s = .fault .badSource ∧ exec (.itcDisableInt n) s = .fault .badSource ∧
      exec (.itcForceInt n) s = .fault .badSource ∧ exec (.itcUnforceInt n) s = .fault .badSource) ∧
    (n.toNat < s.params.nsrc →
      (∃ t, exec (.itcEnableInt n) s = .next t ∧ t = s.setItc { s.itc with intenable := t.itc.intenable } ∧
        ∀ k < 32, t.itc.intenable.getLsbD k = (s.itc.intenable.getLsbD k || k == n.toNat)) ∧
      (∃ t, exec (.itcDisableInt n) s = .next t ∧ t = s.setItc { s.itc with intenable := t.itc.intenable } ∧
        (pend t).getLsbD n.toNat = false ∧
        ∀ k < 32, t.itc.intenable.getLsbD k = (s.itc.intenable.getLsbD k && k != n.toNat)) ∧
      (∃ t, exec (.itcForceInt n) s = .next t ∧ t = s.setItc { s.itc with intfrc := t.itc.intfrc } ∧
        (pend t).getLsbD n.toNat = s.itc.intenable.getLsbD n.toNat ∧
        ∀ k < 32, t.itc.intfrc.getLsbD k = (s.itc.intfrc.getLsbD k || k == n.toNat)) ∧
      (∃ t, exec (.itcUnforceInt n) s = .next t ∧ t = s.setItc { s.itc with intfrc := t.itc.intfrc } ∧
        ∀ k < 32, t.itc.intfrc.getLsbD k = (s.itc.intfrc.getLsbD k && k != n.toNat)))

/-- R140: the whole selection is replaced; R141: one bit is cleared; a source out of range is `Fault(BadSource)`. -/
def Obligations.FastReplacesNormalClears : Prop :=
  Performs 0x8018 .itcSetFast ∧ Performs 0x801C .itcSetNormal ∧
  ∀ (s : State) (n : Word),
    (s.params.nsrc ≤ n.toNat →
      exec (.itcSetFast n) s = .fault .badSource ∧ exec (.itcSetNormal n) s = .fault .badSource) ∧
    (n.toNat < s.params.nsrc →
      (∃ t, exec (.itcSetFast n) s = .next t ∧ t = s.setItc { s.itc with inttype := t.itc.inttype } ∧
        ∀ k < 32, t.itc.inttype.getLsbD k = (k == n.toNat)) ∧
      (∃ t, exec (.itcSetNormal n) s = .next t ∧ t = s.setItc { s.itc with inttype := t.itc.inttype } ∧
        ∀ k < 32, t.itc.inttype.getLsbD k = (s.itc.inttype.getLsbD k && k != n.toNat)))

/-- R147, R152, R153, with R131 and R181: what the live views of the sources answer, bit by bit. -/
def Obligations.PendingViewsRead : Prop :=
  Performs 0x0028 (fun _ => .itcIntsrcR) ∧ Performs 0x0038 (fun _ => .itcNipendR) ∧
  Performs 0x003C (fun _ => .itcFipendR) ∧
  ∀ s : State, s.params.wf →
    ∃ src ni fi : Word,
      exec .itcIntsrcR s = .next (answer s src) ∧ exec .itcNipendR s = .next (answer s ni) ∧
      exec .itcFipendR s = .next (answer s fi) ∧
      (∀ p : Fin 4, p.val < s.params.nports →
        src.getLsbD (s.params.uartSrc[p.val]).toNat =
          (((s.ports[p.val]).txrdy s.params && !(s.ports[p.val]).mtxr) ||
            ((s.ports[p.val]).rxrdy s.params && !(s.ports[p.val]).mrxr))) ∧
      (∀ k < 32, (∀ p : Fin 4, p.val < s.params.nports → (s.params.uartSrc[p.val]).toNat ≠ k) →
        src.getLsbD k = (s.srcLines.getLsbD k && decide (k < s.params.nsrc))) ∧
      ∀ k < 32,
        ni.getLsbD k = ((src.getLsbD k || s.itc.intfrc.getLsbD k) && s.itc.intenable.getLsbD k
          && !s.itc.inttype.getLsbD k) ∧
        fi.getLsbD k = ((src.getLsbD k || s.itc.intfrc.getLsbD k) && s.itc.intenable.getLsbD k
          && s.itc.inttype.getLsbD k)

/-- R145, R146, with R131: each vector register names the highest source of its class that passes, or reads
`0x8000_0000`; reading changes nothing; the request lines assert exactly when their arbiter is enabled and a source
passes. -/
def Obligations.VectorsNameTheHighestSource : Prop :=
  Performs 0x0020 (fun _ => .itcNivectorR) ∧ Performs 0x0024 (fun _ => .itcFivectorR) ∧
  ∀ s : State,
    ((∀ k < 32, passes s k = false) → exec .itcNivectorR s = .next (answer s 0x80000000)) ∧
    (∀ k < 32, passes s k = true → (∀ j < 32, k < j → passes s j = false) →
      exec .itcNivectorR s = .next (answer s (BitVec.ofNat 32 k))) ∧
    (∃ v, exec .itcNivectorR s = .next (answer s v) ∧ (v = 0x80000000 ↔ ∀ k < 32, passes s k = false)) ∧
    ((∀ k < 32, (fipend s).getLsbD k = false) → exec .itcFivectorR s = .next (answer s 0x80000000)) ∧
    (∀ k < 32, (fipend s).getLsbD k = true → (∀ j < 32, k < j → (fipend s).getLsbD j = false) →
      exec .itcFivectorR s = .next (answer s (BitVec.ofNat 32 k))) ∧
    (∃ v, exec .itcFivectorR s = .next (answer s v) ∧
      (v = 0x80000000 ↔ ∀ k < 32, (fipend s).getLsbD k = false)) ∧
    (irqO s = true ↔ s.itc.nae = true ∧ ∃ k, k < 32 ∧ passes s k = true) ∧
    (fiqO s = true ↔ s.itc.fae = true ∧ ∃ k, k < 32 ∧ (fipend s).getLsbD k = true)

/-- R155: the snapshot is taken and the mask cleared in one step, nothing is pending after it, and a second one loses
the first snapshot; R156: the restore writes the snapshot back and keeps it, as often as it is issued. -/
def Obligations.CriticalSectionSnapshotsAndRestores : Prop :=
  Performs 0x8044 (fun _ => .itcDisableInts) ∧ Performs 0x8048 (fun _ => .itcRestoreInts) ∧
  ∀ s : State,
    (∃ t, exec .itcDisableInts s = .next t ∧
      t = s.setItc { s.itc with intsave := s.itc.intenable, intenable := 0 } ∧
      pend t = 0 ∧ irqO t = false ∧ fiqO t = false ∧
      ∃ u, exec .itcDisableInts t = .next u ∧ u.itc.intsave = 0 ∧ u.itc.intenable = 0 ∧
        exec .itcRestoreInts u = .next u) ∧
    (∃ t, exec .itcRestoreInts s = .next t ∧ t = s.setItc { s.itc with intenable := s.itc.intsave } ∧
      exec .itcRestoreInts t = .next t)

/-- R158, R159, R160: the handler table. A read while the slot is invalid answers some word. -/
def Obligations.HandlerTableSetClearRead : Prop :=
  Performs 0x8050 .itcClearHandler ∧
  (∀ x : BitVec 5, Performs (atSource 0x8100 x) (.itcSetHandler x) ∧
    Performs (atSource 0x0100 x) (fun _ => .itcVectR x)) ∧
  ∀ s : State,
    (∀ (x : BitVec 5) (h : Word),
      (s.params.nsrc ≤ x.toNat → exec (.itcSetHandler x h) s = .fault .busUndefined ∧
        exec (.itcVectR x) s = .fault .busUndefined) ∧
      (x.toNat < s.params.nsrc →
        (∃ t, exec (.itcSetHandler x h) s = .next t ∧
          t = s.setItc { s.itc with vect := t.itc.vect, vecvalid := t.itc.vecvalid } ∧
          t.vect x = h ∧ (∀ y, y ≠ x → t.vect y = s.vect y) ∧
          ∀ k < 32, t.itc.vecvalid.getLsbD k = (s.itc.vecvalid.getLsbD k || k == x.toNat)) ∧
        (s.itc.vecvalid.getLsbD x.toNat = true → exec (.itcVectR x) s = .next (answer s (s.vect x))) ∧
        (s.itc.vecvalid.getLsbD x.toNat = false → ∃ w, exec (.itcVectR x) s = .next (answer s.drawn w)))) ∧
    (∀ n : Word,
      (s.params.nsrc ≤ n.toNat → exec (.itcClearHandler n) s = .fault .badSource) ∧
      (n.toNat < s.params.nsrc →
        ∃ t, exec (.itcClearHandler n) s = .next t ∧
          t = s.setItc { s.itc with vecvalid := t.itc.vecvalid } ∧
          ∀ k < 32, t.itc.vecvalid.getLsbD k = (s.itc.vecvalid.getLsbD k && k != n.toNat)))

/-- Whole-machine rule (R24 access columns; R294, which the spec marks as derived): among the primitives only the
named ones change the enables, the class selection, the forced sources, the snapshot, the threshold, the arbiter
enables and the handler table with its valid bits. -/
def Obligations.ItcRegistersHaveTheirOnlyWriters : Prop :=
  ∀ (i : Instr) (s t : State), exec i s = .next t →
    (t.itc.intenable ≠ s.itc.intenable →
      (∃ n, i = .itcEnableInt n ∨ i = .itcDisableInt n) ∨ (∃ m, i = .itcIntenableW m) ∨
        i = .itcDisableInts ∨ i = .itcRestoreInts) ∧
    (t.itc.inttype ≠ s.itc.inttype → ∃ n, i = .itcSetFast n ∨ i = .itcSetNormal n) ∧
    (t.itc.intfrc ≠ s.itc.intfrc →
      (∃ m, i = .itcIntfrcW m) ∨ ∃ n, i = .itcForceInt n ∨ i = .itcUnforceInt n) ∧
    (t.itc.intsave ≠ s.itc.intsave → i = .itcDisableInts) ∧
    (t.itc.prithr ≠ s.itc.prithr → ∃ thr, i = .itcNimaskW thr) ∧
    ((t.itc.nae ≠ s.itc.nae ∨ t.itc.fae ≠ s.itc.fae) → ∃ v, i = .itcCntlW v) ∧
    (t.itc.vect ≠ s.itc.vect → ∃ x h, i = .itcSetHandler x h) ∧
    (t.itc.vecvalid ≠ s.itc.vecvalid → (∃ x h, i = .itcSetHandler x h) ∨ ∃ n, i = .itcClearHandler n)

/-- No primitive touches the host's contexts, programs and memory, the parameters, the schedule or `SRC`'s lines (R60,
R283). -/
def Obligations.PrimitivesLeaveTheHostAlone : Prop :=
  ∀ (i : Instr) (s t : State), exec i s = .next t →
    t.host = s.host ∧ t.params = s.params ∧ t.agenda = s.agenda ∧ t.srcLines = s.srcLines

/-! ### The RB unit (spec/40_ring_buffer.md) -/

/-- R113 with R106: after `RB.INIT` the ring is empty with the capacity asked for; its storage is kept; nothing else
changes. An exponent above the storage, and an absent instance, fault. -/
def Obligations.RingInitEmptiesTheRing : Prop :=
  (∀ i : BitVec 7, Performs (atRing 0x9000 i) (.rbInit i)) ∧
  ∀ (s : State) (i : BitVec 7) (k : Word),
    (2 * s.params.nports ≤ i.toNat → exec (.rbInit i k) s = .fault .busUndefined) ∧
    (i.toNat < 2 * s.params.nports → s.params.ringAw < k.toNat → exec (.rbInit i k) s = .fault .badCapacity) ∧
    (s.params.wf → i.toNat < 2 * s.params.nports → k.toNat ≤ s.params.ringAw →
      ∃ t, exec (.rbInit i k) s = .next t ∧ t = s.setRing (ringIndex i) (t.ring (ringIndex i)) ∧
        (t.ring (ringIndex i)).k.toNat = k.toNat ∧ (t.ring (ringIndex i)).cap = 2 ^ k.toNat ∧
        (t.ring (ringIndex i)).wbin = 0 ∧ (t.ring (ringIndex i)).rbin = 0 ∧
        (t.ring (ringIndex i)).wqR = 0 ∧ (t.ring (ringIndex i)).rqW = 0 ∧
        (t.ring (ringIndex i)).mem = (s.ring (ringIndex i)).mem ∧ (t.ring (ringIndex i)).count = 0 ∧
        (t.ring (ringIndex i)).empty s.params.syncRing = true ∧
        (t.ring (ringIndex i)).full s.params.syncRing = false)

/-- R114 with R104: the byte goes to slot `wbin mod CAP`, every other slot reads as before, `wbin` advances modulo
`M`; `FREE` falls by one, `AVAIL` grows by one at once only when the depth is 0; nothing else changes. A full ring,
and an absent instance, fault. -/
def Obligations.RingWriteStoresOneByte : Prop :=
  (∀ i : BitVec 7, Performs (atRing 0x9004 i) (fun d => .rbWrite i (d.setWidth 8))) ∧
  ∀ (s : State) (i : BitVec 7) (b : Byte),
    (2 * s.params.nports ≤ i.toNat → exec (.rbWrite i b) s = .fault .busUndefined) ∧
    (i.toNat < 2 * s.params.nports → (s.ring (ringIndex i)).full s.params.syncRing = true →
      exec (.rbWrite i b) s = .fault .rbWriteFull) ∧
    (s.params.wf → i.toNat < 2 * s.params.nports →
      (s.ring (ringIndex i)).Inv s.params.ringAw s.params.syncRing →
      (s.ring (ringIndex i)).full s.params.syncRing = false →
      ∃ t, exec (.rbWrite i b) s = .next t ∧ t = s.setRing (ringIndex i) (t.ring (ringIndex i)) ∧
        t.ring (ringIndex i) = { s.ring (ringIndex i) with
          mem := (t.ring (ringIndex i)).mem, wbin := (t.ring (ringIndex i)).wbin } ∧
        (t.ring (ringIndex i)).wbin.toNat =
          ((s.ring (ringIndex i)).wbin.toNat + 1) % (s.ring (ringIndex i)).modulus ∧
        (t.ring (ringIndex i)).count = (s.ring (ringIndex i)).count + 1 ∧
        (t.ring (ringIndex i)).free s.params.syncRing + 1 = (s.ring (ringIndex i)).free s.params.syncRing ∧
        (t.ring (ringIndex i)).avail s.params.syncRing =
          (s.ring (ringIndex i)).avail s.params.syncRing + (if s.params.syncRing = 0 then 1 else 0) ∧
        (t.ring (ringIndex i)).mem.read ((s.ring (ringIndex i)).wbin.toNat % (s.ring (ringIndex i)).cap) = some b ∧
        ∀ a, a ≠ (s.ring (ringIndex i)).wbin.toNat % (s.ring (ringIndex i)).cap →
          (t.ring (ringIndex i)).mem.read a = (s.ring (ringIndex i)).mem.read a)

/-- R115 with R105: the byte of slot `rbin mod CAP` is answered, zero-extended, `rbin` advances modulo `M`, no slot
changes; `AVAIL` falls by one, `FREE` grows by one at once only when the depth is 0; nothing else changes. A slot
nothing has written answers some byte. An empty ring, and an absent instance, fault. -/
def Obligations.RingReadTakesOneByte : Prop :=
  (∀ i : BitVec 7, Performs (atRing 0x1008 i) (fun _ => .rbRead i)) ∧
  ∀ (s : State) (i : BitVec 7),
    (2 * s.params.nports ≤ i.toNat → exec (.rbRead i) s = .fault .busUndefined) ∧
    (i.toNat < 2 * s.params.nports → (s.ring (ringIndex i)).empty s.params.syncRing = true →
      exec (.rbRead i) s = .fault .rbReadEmpty) ∧
    (s.params.wf → i.toNat < 2 * s.params.nports →
      (s.ring (ringIndex i)).Inv s.params.ringAw s.params.syncRing →
      (s.ring (ringIndex i)).empty s.params.syncRing = false →
      ∃ t, exec (.rbRead i) s = .next t ∧
        t = answer (s.drawn.setRing (ringIndex i) (t.ring (ringIndex i))) t.rdata ∧
        t.ring (ringIndex i) = { s.ring (ringIndex i) with rbin := (t.ring (ringIndex i)).rbin } ∧
        (t.ring (ringIndex i)).rbin.toNat =
          ((s.ring (ringIndex i)).rbin.toNat + 1) % (s.ring (ringIndex i)).modulus ∧
        (t.ring (ringIndex i)).count + 1 = (s.ring (ringIndex i)).count ∧
        (t.ring (ringIndex i)).avail s.params.syncRing + 1 = (s.ring (ringIndex i)).avail s.params.syncRing ∧
        (t.ring (ringIndex i)).free s.params.syncRing =
          (s.ring (ringIndex i)).free s.params.syncRing + (if s.params.syncRing = 0 then 1 else 0) ∧
        t.rdata.toNat < 256 ∧
        ∀ b, (s.ring (ringIndex i)).mem.read ((s.ring (ringIndex i)).rbin.toNat % (s.ring (ringIndex i)).cap) = some b →
          t.rdata.toNat = b.toNat)

/-- R116 to R120: the two status words, the capacity word and the two gray-coded pointers, as numbers; reading changes
nothing; an absent instance faults. -/
def Obligations.RingRegistersRead : Prop :=
  (∀ i : BitVec 7, Performs (atRing 0x100C i) (fun _ => .rbWstat i) ∧
    Performs (atRing 0x1010 i) (fun _ => .rbRstat i) ∧ Performs (atRing 0x1014 i) (fun _ => .rbCap i) ∧
    Performs (atRing 0x1018 i) (fun _ => .rbWptr i) ∧ Performs (atRing 0x101C i) (fun _ => .rbRptr i)) ∧
  ∀ (s : State) (i : BitVec 7),
    (2 * s.params.nports ≤ i.toNat →
      exec (.rbWstat i) s = .fault .busUndefined ∧ exec (.rbRstat i) s = .fault .busUndefined ∧
      exec (.rbCap i) s = .fault .busUndefined ∧ exec (.rbWptr i) s = .fault .busUndefined ∧
      exec (.rbRptr i) s = .fault .busUndefined) ∧
    (i.toNat < 2 * s.params.nports → (s.ring (ringIndex i)).k.toNat ≤ 15 →
      (s.ring (ringIndex i)).wbin.toNat < (s.ring (ringIndex i)).modulus →
      (s.ring (ringIndex i)).rbin.toNat < (s.ring (ringIndex i)).modulus →
      (∃ v, exec (.rbWstat i) s = .next (answer s v) ∧
        v.toNat =
          ((s.ring (ringIndex i)).cap - (s.ring (ringIndex i)).wcount s.params.syncRing) * 65536 +
            (if (s.ring (ringIndex i)).wcount s.params.syncRing = (s.ring (ringIndex i)).cap then 1 else 0)) ∧
      (∃ v, exec (.rbRstat i) s = .next (answer s v) ∧
        v.toNat =
          (s.ring (ringIndex i)).rcount s.params.syncRing * 65536 +
            (if (s.ring (ringIndex i)).rcount s.params.syncRing = 0 then 1 else 0)) ∧
      (∃ v, exec (.rbCap i) s = .next (answer s v) ∧
        v.toNat = 2 ^ (s.ring (ringIndex i)).k.toNat * 256 + (s.ring (ringIndex i)).k.toNat) ∧
      (∃ v, exec (.rbWptr i) s = .next (answer s v) ∧
        v.toNat = (s.ring (ringIndex i)).wbin.toNat ^^^ ((s.ring (ringIndex i)).wbin.toNat / 2)) ∧
      (∃ v, exec (.rbRptr i) s = .next (answer s v) ∧
        v.toNat = (s.ring (ringIndex i)).rbin.toNat ^^^ ((s.ring (ringIndex i)).rbin.toNat / 2)))

/-- R101: the conversions are inverse, and consecutive values, the wrap included, differ in exactly one bit of their
codes. -/
def Obligations.GrayCodeConvertsAndStepsOneBit : Prop :=
  (∀ (w : Nat) (b : BitVec w), gray2bin (bin2gray b) = b) ∧
  ∀ (w : Nat) (b : BitVec (w + 1)), popcount (bin2gray b ^^^ bin2gray (b + 1)) = 1

/-- R121: the gray-coded comparisons are the flags of R103. -/
def Obligations.GrayComparisonsAreTheFlags : Prop :=
  ∀ (sy : Nat) (r : RB), r.k.toNat ≤ 15 → r.wbin.toNat < r.modulus → r.rbin.toNat < r.modulus →
    r.wqR.toNat < r.modulus → r.rqW.toNat < r.modulus →
    r.fullGray sy = r.full sy ∧ r.emptyGray sy = r.empty sy

/-- R112, which the spec marks as derived: every ring step that does not fault preserves the invariant. -/
def Obligations.RingStepsKeepTheInvariant : Prop :=
  ∀ (aw sy : Nat) (r : RB), aw ≤ 15 → r.Inv aw sy →
    (∀ b, r.full sy = false → (r.push b).Inv aw sy) ∧
    (r.empty sy = false → r.pop.Inv aw sy) ∧
    (∀ k : BitVec 5, k.toNat ≤ aw → (r.init k).Inv aw sy) ∧
    (∀ d, (r.sync sy d).Inv aw sy)

/-- R103 (its one-sidedness marked as derived), R67(d): the flags of either side never err on the unsafe side, and are
exact when the depth is 0. -/
def Obligations.RingFlagsAreOneSided : Prop :=
  ∀ (aw sy : Nat) (r : RB), r.Inv aw sy →
    (r.full sy = false → r.count < r.cap) ∧ (r.empty sy = false → 0 < r.count) ∧
    r.free sy ≤ r.cap - r.count ∧ r.avail sy ≤ r.count ∧
    (sy = 0 → (r.full sy = true ↔ r.count = r.cap) ∧ (r.empty sy = true ↔ r.count = 0)) ∧
    ¬ (r.count = 0 ∧ r.full 0 = true)

/-- R67(c): when the copied pointer rests, the copy reaches it after as many `SYNC` steps as it lags, and the level is
then the true one. -/
def Obligations.PointerCopiesCatchUp : Prop :=
  ∀ (aw sy : Nat) (r : RB), aw ≤ 15 → 0 < sy → r.Inv aw sy →
    (((RB.sync sy .w2r)^[r.count - r.rcount sy] r).rqW = r.wbin ∧
      ((RB.sync sy .w2r)^[r.count - r.rcount sy] r).avail sy = r.count) ∧
    (((RB.sync sy .r2w)^[r.wcount sy - r.count] r).wqR = r.rbin ∧
      ((RB.sync sy .r2w)^[r.wcount sy - r.count] r).free sy = r.cap - r.count)

/-- R109, whose precise form the spec marks as derived: in a run of writes, reads and synchroniser steps after
`RB.init`, what the reads find is a prefix of what the writes gave, in order. -/
def Obligations.RingReturnsBytesInOrder : Prop :=
  ∀ (aw sy : Nat) (r r' : RB) (k : BitVec 5) (ops : List RingOp) (found : List (Option Byte)),
    aw ≤ 15 → k.toNat ≤ aw → ringRun sy (r.init k) ops = some (r', found) →
    (RingOp.written ops).map some = found ++ r'.contents

/-! ### The UART registers (spec/42_uart_engine.md) -/

/-- R183, with the aborts R225, R230. -/
def Obligations.ControlWriteSetsFieldsAndAborts : Prop :=
  (∀ p : BitVec 2, Performs (atPort 0xC000 p) (.uartConW p)) ∧
  ∀ (s : State) (p : BitVec 2) (v : Word), p.toNat < s.params.nports →
    ∃ t, exec (.uartConW p v) s = .next t ∧ t = s.setPort p (t.port p) ∧
      t.port p = { s.port p with
        txe := v.getLsbD 0, rxe := v.getLsbD 1, pen := v.getLsbD 2, eps := v.getLsbD 3, fce := v.getLsbD 4,
        mtxr := v.getLsbD 8, mrxr := v.getLsbD 9,
        txstate := (t.port p).txstate, txdO := (t.port p).txdO, txtick := (t.port p).txtick,
        txbit := (t.port p).txbit, rxstate := (t.port p).rxstate, rxtick := (t.port p).rxtick,
        rxbit := (t.port p).rxbit, rxperr := (t.port p).rxperr } ∧
      (if (s.port p).txe = true ∧ v.getLsbD 0 = false then
        (t.port p).txstate = .idle ∧ (t.port p).txdO = true ∧ (t.port p).txtick = 0 ∧ (t.port p).txbit = 0
      else
        (t.port p).txstate = (s.port p).txstate ∧ (t.port p).txdO = (s.port p).txdO ∧
        (t.port p).txtick = (s.port p).txtick ∧ (t.port p).txbit = (s.port p).txbit) ∧
      (if (s.port p).rxe = true ∧ v.getLsbD 1 = false then
        (t.port p).rxstate = .idle ∧ (t.port p).rxtick = 0 ∧ (t.port p).rxbit = 0 ∧ (t.port p).rxperr = false
      else
        (t.port p).rxstate = (s.port p).rxstate ∧ (t.port p).rxtick = (s.port p).rxtick ∧
        (t.port p).rxbit = (s.port p).rxbit ∧ (t.port p).rxperr = (s.port p).rxperr)

/-- R184, R193, R198: the images of `UCON`, `UBR` and `UCBVALID`, as numbers. -/
def Obligations.UartStoredRegistersRead : Prop :=
  (∀ p : BitVec 2, Performs (atPort 0x4000 p) (fun _ => .uartConR p) ∧
    Performs (atPort 0x4014 p) (fun _ => .uartBrR p) ∧
    Performs (atPort 0x4020 p) (fun _ => .uartCbvalidR p)) ∧
  ∀ (s : State) (p : BitVec 2), p.toNat < s.params.nports →
    (∃ v, exec (.uartConR p) s = .next (answer s v) ∧
      v.toNat = (s.port p).txe.toNat + 2 * (s.port p).rxe.toNat + 4 * (s.port p).pen.toNat
        + 8 * (s.port p).eps.toNat + 16 * (s.port p).fce.toNat + 256 * (s.port p).mtxr.toNat
        + 512 * (s.port p).mrxr.toNat) ∧
    (∃ v, exec (.uartBrR p) s = .next (answer s v) ∧
      v.toNat = 65536 * (s.port p).brInc.toNat + (s.port p).brMod.toNat) ∧
    (∃ v, exec (.uartCbvalidR p) s = .next (answer s v) ∧
      v.toNat = (s.port p).cbvalidTx.toNat + 2 * (s.port p).cbvalidRx.toNat)

/-- R185: the image, and the five error flags cleared in the same step; the ready flags stay. -/
def Obligations.StatusReadAcknowledges : Prop :=
  (∀ p : BitVec 2, Performs (atPort 0x4004 p) (fun _ => .uartStatR p)) ∧
  ∀ (s : State) (p : BitVec 2), p.toNat < s.params.nports →
    ∃ t, exec (.uartStatR p) s = .next t ∧ t = answer (s.setPort p (t.port p)) t.rdata ∧
      t.port p = { s.port p with fe := false, pe := false, oe := false, ue := false, toe := false } ∧
      t.rdata.toNat = (s.port p).fe.toNat + 2 * (s.port p).pe.toNat + 4 * (s.port p).oe.toNat
        + 8 * (s.port p).ue.toNat + 16 * (s.port p).toe.toNat
        + 64 * (decide ((s.port p).txwm.toNat ≤ (s.port p).txspace s.params)).toNat
        + 128 * (decide ((s.port p).rxwm.toNat ≤ (s.port p).rxlevel s.params)).toNat

/-- R186: with space the byte goes to slot `wbin mod CAP` of `HWTX` and every other slot reads as before; without
space `TOE` is set and the FIFO stays. -/
def Obligations.DataWriteFillsTheTransmitFifo : Prop :=
  (∀ p : BitVec 2, Performs (atPort 0xC008 p) (fun d => .uartDataW p (d.setWidth 8))) ∧
  ∀ (s : State) (p : BitVec 2) (b : Byte), s.params.wf → p.toNat < s.params.nports →
    (s.port p).hwtx.Inv s.params.hwfifoAw s.params.syncHwfifo →
    ((s.port p).txspace s.params = 0 →
      exec (.uartDataW p b) s = .next (s.setPort p { s.port p with toe := true })) ∧
    (0 < (s.port p).txspace s.params →
      ∃ t, exec (.uartDataW p b) s = .next t ∧ t = s.setPort p (t.port p) ∧
        t.port p = { s.port p with hwtx := (t.port p).hwtx } ∧
        (t.port p).hwtx = { (s.port p).hwtx with
          mem := (t.port p).hwtx.mem, wbin := (t.port p).hwtx.wbin } ∧
        (t.port p).hwtx.wbin.toNat = ((s.port p).hwtx.wbin.toNat + 1) % (s.port p).hwtx.modulus ∧
        (t.port p).txspace s.params + 1 = (s.port p).txspace s.params ∧
        (t.port p).hwtx.mem.read (s.port p).hwtx.writeSlot = some b ∧
        ∀ a, a ≠ (s.port p).hwtx.writeSlot →
          (t.port p).hwtx.mem.read a = (s.port p).hwtx.mem.read a)

/-- R187: the oldest visible byte is answered and `RXLEVEL` falls by one; on underrun `UE` is set, the FIFO stays and
some byte is answered. -/
def Obligations.DataReadDrainsTheReceiveFifo : Prop :=
  (∀ p : BitVec 2, Performs (atPort 0x4008 p) (fun _ => .uartDataR p)) ∧
  ∀ (s : State) (p : BitVec 2), s.params.wf → p.toNat < s.params.nports →
    (s.port p).hwrx.Inv s.params.hwfifoAw s.params.syncHwfifo →
    ((s.port p).rxlevel s.params = 0 →
      ∃ t, exec (.uartDataR p) s = .next t ∧
        t = answer (s.drawn.setPort p { s.port p with ue := true }) t.rdata ∧ t.rdata.toNat < 256) ∧
    (0 < (s.port p).rxlevel s.params →
      ∃ t, exec (.uartDataR p) s = .next t ∧ t = answer (s.drawn.setPort p (t.port p)) t.rdata ∧
        t.port p = { s.port p with hwrx := (t.port p).hwrx } ∧
        (t.port p).hwrx = { (s.port p).hwrx with rbin := (t.port p).hwrx.rbin } ∧
        (t.port p).hwrx.rbin.toNat = ((s.port p).hwrx.rbin.toNat + 1) % (s.port p).hwrx.modulus ∧
        (t.port p).rxlevel s.params + 1 = (s.port p).rxlevel s.params ∧ t.rdata.toNat < 256 ∧
        ∀ b, (s.port p).hwrx.mem.read (s.port p).hwrx.readSlot = some b → t.rdata.toNat = b.toNat)

/-- R188 to R191: the watermarks are written from `v[15:8]`; the reads answer watermark and level. -/
def Obligations.WatermarksAndLevels : Prop :=
  (∀ p : BitVec 2, Performs (atPort 0xC00C p) (.uartRxconW p) ∧
    Performs (atPort 0x400C p) (fun _ => .uartRxconR p) ∧
    Performs (atPort 0xC010 p) (.uartTxconW p) ∧
    Performs (atPort 0x4010 p) (fun _ => .uartTxconR p)) ∧
  ∀ (s : State) (p : BitVec 2), s.params.wf → p.toNat < s.params.nports → (s.port p).Inv s.params →
    (∀ v : Word, ∃ t, exec (.uartRxconW p v) s = .next t ∧
      t = s.setPort p { s.port p with rxwm := (t.port p).rxwm } ∧ (t.port p).rxwm.toNat = v.toNat / 256 % 256) ∧
    (∀ v : Word, ∃ t, exec (.uartTxconW p v) s = .next t ∧
      t = s.setPort p { s.port p with txwm := (t.port p).txwm } ∧ (t.port p).txwm.toNat = v.toNat / 256 % 256) ∧
    (∃ v, exec (.uartRxconR p) s = .next (answer s v) ∧
      v.toNat = (s.port p).rxwm.toNat * 256 + (s.port p).rxlevel s.params) ∧
    (∃ v, exec (.uartTxconR p) s = .next (answer s v) ∧
      v.toNat = (s.port p).txwm.toNat * 256 + (s.port p).txspace s.params)

/-- R192, R217: the divisor is written with the port disabled and `INC ≤ MOD` (or `MOD = 0`), and `bacc` cleared;
otherwise the two faults, in this order. -/
def Obligations.DivisorWriteAndItsFaults : Prop :=
  (∀ p : BitVec 2, Performs (atPort 0xC014 p) (.uartBrW p)) ∧
  ∀ (s : State) (p : BitVec 2) (v : Word), p.toNat < s.params.nports →
    (((s.port p).txe = true ∨ (s.port p).rxe = true) → exec (.uartBrW p v) s = .fault .baudWhileEnabled) ∧
    ((s.port p).txe = false → (s.port p).rxe = false → 0 < v.toNat % 65536 → v.toNat % 65536 < v.toNat / 65536 →
      exec (.uartBrW p v) s = .fault .badDivisor) ∧
    ((s.port p).txe = false → (s.port p).rxe = false →
      (v.toNat % 65536 = 0 ∨ v.toNat / 65536 ≤ v.toNat % 65536) →
      ∃ t, exec (.uartBrW p v) s = .next t ∧
        t = s.setPort p { s.port p with brMod := (t.port p).brMod, brInc := (t.port p).brInc, bacc := 0 } ∧
        (t.port p).brMod.toNat = v.toNat % 65536 ∧ (t.port p).brInc.toNat = v.toNat / 65536)

/-- R194 to R197, R199: the callback slots. A read while a slot is invalid answers some word. -/
def Obligations.CallbackSlotsSetClearRead : Prop :=
  (∀ p : BitVec 2, Performs (atPort 0xC018 p) (.uartCbrxW p) ∧
    Performs (atPort 0x4018 p) (fun _ => .uartCbrxR p) ∧
    Performs (atPort 0xC01C p) (.uartCbtxW p) ∧
    Performs (atPort 0x401C p) (fun _ => .uartCbtxR p) ∧
    Performs (atPort 0xC024 p) (fun d => .uartCbclr p (d.setWidth 2))) ∧
  ∀ (s : State) (p : BitVec 2), p.toNat < s.params.nports →
    (∀ w : Word, exec (.uartCbrxW p w) s = .next (s.setPort p { s.port p with ucbrx := w, cbvalidRx := true })) ∧
    (∀ w : Word, exec (.uartCbtxW p w) s = .next (s.setPort p { s.port p with ucbtx := w, cbvalidTx := true })) ∧
    ((s.port p).cbvalidRx = true → exec (.uartCbrxR p) s = .next (answer s (s.port p).ucbrx)) ∧
    ((s.port p).cbvalidRx = false → ∃ w, exec (.uartCbrxR p) s = .next (answer s.drawn w)) ∧
    ((s.port p).cbvalidTx = true → exec (.uartCbtxR p) s = .next (answer s (s.port p).ucbtx)) ∧
    ((s.port p).cbvalidTx = false → ∃ w, exec (.uartCbtxR p) s = .next (answer s.drawn w)) ∧
    (∀ d : BitVec 2, exec (.uartCbclr p d) s = .next (s.setPort p { s.port p with
      cbvalidTx := if d.getLsbD 0 then false else (s.port p).cbvalidTx
      cbvalidRx := if d.getLsbD 1 then false else (s.port p).cbvalidRx }))

/-- R200, R201, with the masked terms of R181. -/
def Obligations.MaskCommandsChangeTheNamedMasks : Prop :=
  (∀ p : BitVec 2, Performs (atPort 0xC028 p) (fun d => .uartMaskset p (d.setWidth 2)) ∧
    Performs (atPort 0xC02C p) (fun d => .uartMaskclr p (d.setWidth 2))) ∧
  ∀ (s : State) (p d : BitVec 2), p.toNat < s.params.nports →
    (∃ t, exec (.uartMaskset p d) s = .next t ∧
      t = s.setPort p { s.port p with
        mtxr := if d.getLsbD 0 then true else (s.port p).mtxr
        mrxr := if d.getLsbD 1 then true else (s.port p).mrxr } ∧
      (d = 3 → (t.port p).irq s.params = false)) ∧
    (∃ t, exec (.uartMaskclr p d) s = .next t ∧
      t = s.setPort p { s.port p with
        mtxr := if d.getLsbD 0 then false else (s.port p).mtxr
        mrxr := if d.getLsbD 1 then false else (s.port p).mrxr } ∧
      (d.getLsbD 0 = true → (t.port p).txrdy s.params = true → (t.port p).irq s.params = true) ∧
      (d.getLsbD 1 = true → (t.port p).rxrdy s.params = true → (t.port p).irq s.params = true))

/-- Whole-machine rule (R27; R257, which the spec marks as derived): among the primitives a UART mask is cleared only
by `UART.CON.W` and `UART.MASKCLR`, an error flag only by `UART.STAT.R`, each of that port. -/
def Obligations.UartMasksAndFlagsHaveTheirOnlyClearers : Prop :=
  ∀ (i : Instr) (s t : State) (p : BitVec 2), exec i s = .next t →
    (((s.port p).mtxr = true ∧ (t.port p).mtxr = false ∨ (s.port p).mrxr = true ∧ (t.port p).mrxr = false) →
      (∃ v, i = .uartConW p v) ∨ ∃ d, i = .uartMaskclr p d) ∧
    (((s.port p).fe = true ∧ (t.port p).fe = false ∨ (s.port p).pe = true ∧ (t.port p).pe = false ∨
      (s.port p).oe = true ∧ (t.port p).oe = false ∨ (s.port p).ue = true ∧ (t.port p).ue = false ∨
      (s.port p).toe = true ∧ (t.port p).toe = false) → i = .uartStatR p)

/-- Whole-machine rule (R27; R257, which the spec marks as derived): the agents beside the host change no mask, clear
no error flag, and leave the ITC and the host alone (an entry changes the host's stack only; `SRC` only its lines).
That `rdata` stays is the model's choice (assumption log 8). -/
def Obligations.AgentsLeaveMasksItcAndHostAlone : Prop :=
  ∀ (s t : State) (e : Event), e ≠ .host → e ≠ .reset → runEvent s e = .next t →
    t.itc = s.itc ∧ t.params = s.params ∧ t.rdata = s.rdata ∧ (e ≠ .enter → t.host = s.host) ∧
    ∀ p : BitVec 2,
      (t.port p).mtxr = (s.port p).mtxr ∧ (t.port p).mrxr = (s.port p).mrxr ∧
      ((s.port p).fe = true → (t.port p).fe = true) ∧ ((s.port p).pe = true → (t.port p).pe = true) ∧
      ((s.port p).oe = true → (t.port p).oe = true) ∧ ((s.port p).ue = true → (t.port p).ue = true) ∧
      ((s.port p).toe = true → (t.port p).toe = true)

/-! ### The engines (spec/42_uart_engine.md R215 to R234) -/

/-- R222: with the parity bit, the number of ones is even for `EPS = 1` and odd for `EPS = 0`. -/
def Obligations.ParityMakesOnesEvenOrOdd : Prop :=
  ∀ (eps : Bool) (b : Byte), (popcount b + (parity eps b).toNat) % 2 = if eps then 0 else 1

/-- R215 to R217: after `n` cycles of an enabled port from `bacc = 0`, the accumulator is `n·INC mod MOD` and exactly
`floor(n·INC / MOD)` ticks have occurred; with the port disabled, or `MOD = 0`, or `INC = 0`, none ever occurs. -/
def Obligations.BaudGeneratorTicksAtTheRatio : Prop :=
  (∀ (P : Params) (free : Nat → Byte) (q : Port) (n : Nat),
    (q.txe || q.rxe) = true → 0 < q.brMod.toNat → q.brInc.toNat ≤ q.brMod.toNat → q.bacc = 0 →
    (portCycles P free n q).bacc.toNat = n * q.brInc.toNat % q.brMod.toNat ∧
    portTicks P free n q = n * q.brInc.toNat / q.brMod.toNat) ∧
  ∀ (P : Params) (free : Nat → Byte) (q : Port) (n : Nat),
    q.bacc.toNat < max q.brMod.toNat 1 →
    (q.brMod.toNat = 0 ∨ q.brInc.toNat = 0 ∨ (q.txe = false ∧ q.rxe = false)) →
    portTicks P free n q = 0

/-- R223, R224, and R233, which the spec marks as derived: an idle, enabled transmitter that may load puts the frame
of the oldest byte of `HWTX` on the line, each level sixteen ticks, starting at the first tick, and that byte has left
`HWTX`. -/
def Obligations.TransmitterSendsTheFrame : Prop :=
  ∀ (P : Params) (free : Nat → Byte) (q : Port) (b : Byte),
    q.txe = true → q.txstate = .idle → q.hwtx.empty P.syncHwfifo = false → (q.fce = false ∨ q.rtsS = false) →
    q.hwtx.mem.read q.hwtx.readSlot = some b →
    (∀ n, n < 16 * (frameLevels q.pen q.eps b).length →
      some (txTicks P free (n + 1) q).txdO = (frameLevels q.pen q.eps b)[n / 16]?) ∧
    (txTicks P free (16 * (frameLevels q.pen q.eps b).length) q).txstate = .stop ∧
    (txTicks P free (16 * (frameLevels q.pen q.eps b).length) q).hwtx = q.hwtx.pop

/-- R226 to R229, and R234, which the spec marks as derived: an idle, enabled receiver delivers at tick 152 (168 with
parity) the byte sampled in the middle of the data bits: into `HWRX`, or dropped with `OE` when `HWRX` is full; `FE`
for a stop level 0, `PE` for a wrong parity level. -/
def Obligations.ReceiverDeliversTheFrame : Prop :=
  ∀ (P : Params) (level : Nat → Bool) (q : Port) (b : Byte),
    q.rxe = true → q.rxstate = .idle → level 0 = false → level 8 = false →
    (∀ j < 8, level (24 + 16 * j) = b.getLsbD j) →
    let n := if q.pen then 169 else 153
    let t := rxTicks P level n q
    t.rxstate = .idle ∧ t.fe = (q.fe || !level (n - 1)) ∧
    t.pe = (q.pe || (q.pen && (level 152 != parity q.eps b))) ∧
    (q.hwrx.full P.syncHwfifo = false → t.hwrx = q.hwrx.push b ∧ t.oe = q.oe) ∧
    (q.hwrx.full P.syncHwfifo = true → t.hwrx = q.hwrx ∧ t.oe = true)

/-- R226: a start bit that is high again at its middle is dropped, nothing recorded. -/
def Obligations.FalseStartIsDropped : Prop :=
  ∀ (P : Params) (level : Nat → Bool) (q : Port),
    q.rxe = true → q.rxstate = .idle → level 0 = false → level 8 = true →
    rxTicks P level 9 q = { q with rxstate := .idle, rxtick := 8, rxdS := true }

/-! ### Contexts, entry, return (spec/60_exceptions.md) -/

/-- R281, R282, R283, R273(a): where entry is admitted a fast entry is taken before a normal one; the interrupted
context is kept below and nothing in the block changes. No entry is taken in a fast context, before a line of a
service sequence that R282(b) shuts, or without a request; no other line of any driver sequence is shut. Model's
choice: every statement, also inside one line of a rule, has an entry point before it, and which statements then count
as shut (assumption log 11); an entry event that is not enabled is a step that changes nothing (assumption log 12); a
shut mark bars entry in any placed program, where R282(c) admits it (assumption log 30). -/
def Obligations.InterruptEntryIsTakenWhereAdmitted : Prop :=
  (∀ (s : State) (rest : List Event), s.agenda = .enter :: rest →
    (s.host.running.kind ≠ .fast → (∀ st, s.act.prog[s.act.pos]? ≠ some { stmt := st, shut := true }) →
      (fiqO s = true ∨ irqO s = true) →
      ∃ t, step s = .next t ∧
        t.host.running = (if fiqO s then Context.start .fast serviceFastProgram
          else Context.start .normal serviceNormalProgram) ∧
        t.host.below = s.host.running :: s.host.below ∧
        t = { s with agenda := rest, host := { s.host with running := t.host.running, below := t.host.below } }) ∧
    ((s.host.running.kind = .fast ∨
        (∃ st, s.act.prog[s.act.pos]? = some { stmt := st, shut := true }) ∨
        (fiqO s = false ∧ irqO s = false)) →
      step s = .next { s with agenda := rest })) ∧
  (∀ (n : Nat) (l : Line), serviceNormalProgram[n]? = some l → (l.shut = true ↔ n ≤ 4 ∨ n = 11)) ∧
  ∀ (P : Params) (q : Seq Word) (l : Line), q ≠ .serviceNormal → l ∈ seqProgram P q → l.shut = false

/-- R285: the return that ends a context resumes the one below as it was interrupted; the block is not told. -/
def Obligations.ReturnResumesTheInterruptedContext : Prop :=
  ∀ (s : State) (c : Context) (rest : List Context) (shut : Bool), s.agenda = [] →
    s.act.prog[s.act.pos]? = some { stmt := .ret .plain, shut := shut } →
    s.host.running.callers = [] → s.host.below = c :: rest →
    step s = .next { s with host := { s.host with running := c, below := rest } }

/-- R284: `Invoke` of a bound token runs its program inside the same context with fresh temporaries, its `return` goes
on at the next line; of an unbound token it is `Fault(NoHandler)`. Every existing port's service routine is bound to
its token; every other token is looked up in the environment's map, held as a list of bindings of which the first for
a token counts. -/
def Obligations.InvokeRunsTheBoundProgram : Prop :=
  (∀ (s : State) (e : Expr) (shut : Bool) (w : Word), s.agenda = [] →
    s.act.prog[s.act.pos]? = some { stmt := .invoke e, shut := shut } → evalExpr s.act.temps e = some w →
    (∀ prog, handlerProgram s.params s.host.handlers w = some prog →
      ∃ t, step s = .next t ∧ t.host.running.kind = s.host.running.kind ∧
        t.act = Activation.start prog none ∧
        t.host.running.callers = s.act.advance :: s.host.running.callers ∧
        t = { s with host := { s.host with running := t.host.running } }) ∧
    (handlerProgram s.params s.host.handlers w = none → step s = .fault .noHandler)) ∧
  (∀ (s : State) (a : Activation) (rest : List Activation) (shut : Bool), s.agenda = [] →
    s.act.prog[s.act.pos]? = some { stmt := .ret .plain, shut := shut } → s.host.running.callers = a :: rest →
    step s = .next { s with
      host := { s.host with running := { s.host.running with act := a, callers := rest } } }) ∧
  (∀ (P : Params) (handlers : List (Word × Program)) (p : Fin 4), P.wf → p.val < P.nports →
    handlerProgram P handlers (P.isrToken[p.val]) = some (isrProgram P (BitVec.ofNat 32 p.val))) ∧
  ∀ (P : Params) (w : Word), (∀ p : Fin 4, p.val < P.nports → P.isrToken[p.val] ≠ w) →
    handlerProgram P [] w = none ∧
    ∀ (prog : Program) (rest : List (Word × Program)), handlerProgram P ((w, prog) :: rest) w = some prog ∧
      ∀ u : Word, u ≠ w → handlerProgram P ((u, prog) :: rest) w = handlerProgram P rest w

/-- R172 lines 1 to 7: eight steps of a fresh normal service context with a passing source `k` that has a bound
handler raise the threshold to `k + 1` and start the handler; no ring, no port and no other ITC register changes. -/
def Obligations.ServiceNormalRaisesThresholdAndDispatches : Prop :=
  ∀ (s : State) (k : Nat) (prog : Program), s.Inv → s.agenda = [] →
    s.host.running = Context.start .normal serviceNormalProgram →
    nivector s = some k → s.itc.vecvalid.getLsbD k = true →
    handlerProgram s.params s.host.handlers (s.vect (BitVec.ofNat 5 k)) = some prog →
    ∃ t, Host.Core.run core 8 s = .next t ∧
      t.itc = { s.itc with prithr := BitVec.ofNat 6 (k + 1) } ∧ t.rings = s.rings ∧ t.ports = s.ports ∧
      t.act = Activation.start prog none ∧ t.host.below = s.host.below ∧
      ∃ a, t.host.running.callers = [a] ∧ a.prog = serviceNormalProgram ∧ a.pos = 10

/-- R172 lines 8 and 9, R285, and R174, which the spec marks as derived: the service context whose handler has
returned restores the baseline, whatever the threshold was, and returns. -/
def Obligations.ServiceNormalRestoresTheBaseline : Prop :=
  ∀ (s : State) (c : Context) (rest : List Context), s.agenda = [] →
    s.act.prog = serviceNormalProgram → s.act.pos = 10 → s.host.running.callers = [] →
    s.host.below = c :: rest →
    ∃ t, Host.Core.run core 2 s = .next t ∧ t.itc = { s.itc with prithr := 0 } ∧
      t.rings = s.rings ∧ t.ports = s.ports ∧ t.host.running = c ∧ t.host.below = rest

/-- R173: the fast service context dispatches the fast source and neither reads nor writes `NIMASK`. -/
def Obligations.ServiceFastDispatchesWithoutThreshold : Prop :=
  ∀ (s : State) (k : Nat) (prog : Program), s.Inv → s.agenda = [] →
    s.host.running = Context.start .fast serviceFastProgram →
    fivector s = some k → s.itc.vecvalid.getLsbD k = true →
    handlerProgram s.params s.host.handlers (s.vect (BitVec.ofNat 5 k)) = some prog →
    ∃ t, Host.Core.run core 7 s = .next t ∧ BlockUnchanged s t ∧
      t.act = Activation.start prog none ∧ t.host.below = s.host.below

/-- R172, R173: with nothing to dispatch a service sequence is `Fault(SpuriousDispatch)`, with no handler registered
for the source it is `Fault(NoHandler)`. -/
def Obligations.ServiceSequencesFaultWithoutDispatch : Prop :=
  ∀ s : State, s.agenda = [] →
    (s.act = Activation.start serviceNormalProgram none →
      (nivector s = none → Host.Core.run core 3 s = .fault .spuriousDispatch) ∧
      (∀ k, nivector s = some k → s.itc.vecvalid.getLsbD k = false →
        Host.Core.run core 7 s = .fault .noHandler)) ∧
    (s.act = Activation.start serviceFastProgram none →
      (fivector s = none → Host.Core.run core 3 s = .fault .spuriousDispatch) ∧
      (∀ k, fivector s = some k → s.itc.vecvalid.getLsbD k = false →
        Host.Core.run core 6 s = .fault .noHandler))

/-! ### Driver sequences (spec/43_uart_driver.md) -/

/-- R242 line 0, R248, R249, R270: a port out of range is `Err(NoSuchDevice)`, an absent name on an existing port
`Err(BadAddress)`; no primitive is executed. The word form of a result is the model's choice (assumption log 16). -/
def Obligations.DriverErrorsChangeNoBlockState : Prop :=
  ∀ (s : State) (dst : Option Temp) (shut : Bool) (q : Seq Expr) (v : Seq Word) (e : ErrKind), s.agenda = [] →
    s.act.prog[s.act.pos]? = some { stmt := .call dst q, shut := shut } → evalSeq s.act.temps q = some v →
    ((∃ p b n, v = .uartInit p b n ∧ s.params.nports ≤ p.toNat ∧ e = .noSuchDevice) ∨
      (∃ p b, v = .uartInit p b none ∧ p.toNat < s.params.nports ∧ e = .badAddress) ∨
      (∃ p cb, (v = .setReceiveCallback p cb ∨ v = .setSendCallback p cb) ∧ s.params.nports ≤ p.toNat ∧
        e = .noSuchDevice)) →
    ∃ t, Host.Core.run core 2 s = .next t ∧ BlockUnchanged s t ∧ t.host.result = some (.err e) ∧
      t.act = (s.act.advance).assign dst (-e.code)

/-- R240: the calls for which SE defines no error are `Fault(BadPort)` on a port out of range. -/
def Obligations.BadPortCallsFault : Prop :=
  ∀ (s : State) (dst : Option Temp) (shut : Bool) (q : Seq Expr) (v : Seq Word) (p : Word), s.agenda = [] →
    s.act.prog[s.act.pos]? = some { stmt := .call dst q, shut := shut } → evalSeq s.act.temps q = some v →
    s.params.nports ≤ p.toNat →
    (v = .receiveByte p ∨ v = .isr p ∨ (∃ b, v = .sendByte p b) ∨ (∃ buf n, v = .send p buf n) ∨
      ∃ buf n, v = .receive p buf n) →
    Host.Core.run core 2 s = .fault .badPort

/-- R246, and R260, which the spec marks as derived: with the other agents at rest, `UART.SEND(p, buf, n)` on a
transmit ring with `f` free slots returns `Ok(min(n, f))`, appends exactly those bytes in order, and clears the
transmit mask. Model's choice: the caller's temporary takes the value of `Ok(v)` as one word (assumption log 16), and
the byte `buf[j]` lies at the address `buf + j` wrapped to 32 bits (assumption log 17). -/
def Obligations.SendAcceptsWhatFits : Prop :=
  ∀ (s : State) (p : BitVec 2) (buf n : Word) (bytes : Nat → Byte) (dst : Option Temp) (shut : Bool),
    s.Inv → s.params.syncRing = 0 → s.agenda = [] → p.toNat < s.params.nports →
    s.act.prog[s.act.pos]? =
      some { stmt := .call dst (.send (.lit (p.setWidth 32)) (.lit buf) (.lit n)), shut := shut } →
    let r := s.ring (BitVec.ofNat 3 (2 * p.toNat + 1))
    let m := min n.toNat (r.free 0)
    (∀ j < m, s.host.mem.read (buf + BitVec.ofNat 32 j).toNat = some (bytes j)) →
    ∃ steps t, Host.Core.run core steps s = .next t ∧
      t.host.result = some (.okValue (BitVec.ofNat 32 m)) ∧
      (t.ring (BitVec.ofNat 3 (2 * p.toNat + 1))).contents =
        r.contents ++ (List.range m).map (fun j => some (bytes j)) ∧
      (∀ j, j ≠ BitVec.ofNat 3 (2 * p.toNat + 1) → t.ring j = s.ring j) ∧
      t.port p = { s.port p with mtxr := false } ∧ (∀ q, q ≠ p → t.port q = s.port q) ∧
      t.host.mem = s.host.mem ∧ t.itc = s.itc ∧ t.host.below = s.host.below ∧
      t.act = (s.act.advance).assign dst (BitVec.ofNat 32 m)

/-! ### Reset and invariants (spec/70_reset_and_hazards.md, spec/10_state.md R30) -/

/-- R301: the reset state, element by element, for every legal choice of the parameters. -/
def Obligations.ResetValuesOfTheBlock : Prop :=
  State.reset = State.resetOf Params.default [] [] ∧ entryAdmitted State.reset = true ∧
  ∀ (P : Params) (main : Program) (handlers : List (Word × Program)), P.wf →
    let s := State.resetOf P main handlers
    (∀ j : Fin 8, (s.rings[j.val]).k.toNat = P.ringAw ∧ (s.rings[j.val]).wbin = 0 ∧ (s.rings[j.val]).rbin = 0 ∧
      (s.rings[j.val]).wqR = 0 ∧ (s.rings[j.val]).rqW = 0 ∧ (s.rings[j.val]).empty P.syncRing = true ∧
      (s.rings[j.val]).full P.syncRing = false ∧ (s.rings[j.val]).free P.syncRing = 2 ^ P.ringAw ∧
      (s.rings[j.val]).avail P.syncRing = 0) ∧
    s.itc.nae = false ∧ s.itc.fae = false ∧ s.itc.prithr = 0 ∧ s.itc.intenable = 0 ∧ s.itc.inttype = 0 ∧
    s.itc.intfrc = 0 ∧ s.itc.intsave = 0 ∧ s.itc.vecvalid = 0 ∧
    (∀ p : Fin 4, conImage (s.ports[p.val]) = 0x300 ∧ statImage P (s.ports[p.val]) = 0x40 ∧
      (s.ports[p.val]).rxwm = 1 ∧ (s.ports[p.val]).txwm = 1 ∧ brImage (s.ports[p.val]) = 0 ∧
      cbvalidImage (s.ports[p.val]) = 0 ∧ (s.ports[p.val]).bacc = 0 ∧ (s.ports[p.val]).txsr = 0 ∧
      (s.ports[p.val]).txbit = 0 ∧ (s.ports[p.val]).txtick = 0 ∧ (s.ports[p.val]).txpar = false ∧
      (s.ports[p.val]).rxsr = 0 ∧ (s.ports[p.val]).rxbit = 0 ∧ (s.ports[p.val]).rxtick = 0 ∧
      (s.ports[p.val]).rxperr = false ∧ (s.ports[p.val]).txstate = .idle ∧ (s.ports[p.val]).rxstate = .idle ∧
      (s.ports[p.val]).txdO = true ∧ (s.ports[p.val]).rxdS = true ∧ (s.ports[p.val]).rtsS = true ∧
      (s.ports[p.val]).ctsO P = false ∧
      (∀ r : RB, r = (s.ports[p.val]).hwtx ∨ r = (s.ports[p.val]).hwrx →
        r.k.toNat = P.hwfifoAw ∧ r.wbin = 0 ∧ r.rbin = 0 ∧ r.wqR = 0 ∧ r.rqW = 0 ∧
        r.empty P.syncHwfifo = true ∧ r.full P.syncHwfifo = false ∧ r.free P.syncHwfifo = 2 ^ P.hwfifoAw ∧
        r.avail P.syncHwfifo = 0)) ∧
    irqO s = false ∧ fiqO s = false ∧ s.host.running.kind = .mainline ∧ s.host.below = []

/-- R300: the reset event may come in any state; it gives the reset state of the machine's parameters, except that the
environment's pins, lines, programs and memory, the bus pin, the draw counter and the schedule's bookkeeping stay and
no result is recorded (what stays beside the pins is the model's choice, assumption log 21). -/
def Obligations.ResetEventGivesTheResetState : Prop :=
  ∀ (s : State) (rest : List Event), s.agenda = .reset :: rest →
    ∃ t, step s = .next t ∧
      t.itc = (State.resetOf s.params s.host.main s.host.handlers).itc ∧
      t.rings = (State.resetOf s.params s.host.main s.host.handlers).rings ∧
      (∀ p : Fin 4, t.ports[p.val] =
        { (State.resetOf s.params s.host.main s.host.handlers).ports[p.val] with
          rxdI := (s.ports[p.val]).rxdI, rtsI := (s.ports[p.val]).rtsI }) ∧
      t.host.running = (State.resetOf s.params s.host.main s.host.handlers).host.running ∧
      t.host.below = [] ∧ t.host.mem = s.host.mem ∧ t.host.main = s.host.main ∧
      t.host.handlers = s.host.handlers ∧ t.rdata = s.rdata ∧
      t.host.result = none ∧ t.draws = s.draws ∧
      t.params = s.params ∧ t.srcLines = s.srcLines ∧ t.agenda = rest

/-- R30, which the spec marks as derived, holds after reset, for every legal choice of the parameters. -/
def Obligations.InvariantHoldsAfterReset : Prop :=
  ∀ (P : Params) (main : Program) (handlers : List (Word × Program)), P.wf →
    (State.resetOf P main handlers).Inv

/-- R30, which the spec marks as derived: every step of every agent from every state that meets the invariant gives a
state that meets it. -/
def Obligations.StepKeepsTheInvariant : Prop :=
  ∀ s t : State, s.Inv → step s = .next t → t.Inv

/-- Every instruction has a meaning: no step refuses; and no step changes a parameter (R6), the map of handlers or the
host's own program (R29). -/
def Obligations.StepsNeverRefuseAndKeepParameters : Prop :=
  (∀ (s : State) (e : Refusal), step s ≠ .refused e) ∧
  ∀ s t : State, step s = .next t →
    t.params = s.params ∧ t.host.handlers = s.host.handlers ∧ t.host.main = s.host.main
end

