-- ==== Sys2Proof/Laws/Encoding.lean ====
section
/-! SUPPORT. The fields of command words read back: what the encoder lays out, the decoder's slices find
(spec/30_encoding.md R80, R82, R83). -/

namespace Sys2Proof

theorem header_commandWord (h : Header) (d : Word) : CommandWord.header (commandWord h d) = h := by
  show BitVec.extractLsb' 32 16 (h ++ d : BitVec (16 + 32)) = h
  ext j hj
  simp only [BitVec.getElem_extractLsb', BitVec.getLsbD_append]
  simp [hj]

theorem data_commandWord (h : Header) (d : Word) : CommandWord.data (commandWord h d) = d := by
  show BitVec.extractLsb' 0 32 (h ++ d : BitVec (16 + 32)) = d
  ext j hj
  simp only [BitVec.getElem_extractLsb', BitVec.getLsbD_append]
  simp [hj]

theorem commandWord_header_data (cw : CommandWord) :
    commandWord (CommandWord.header cw) (CommandWord.data cw) = cw := by
  show (BitVec.extractLsb' 32 16 cw ++ BitVec.extractLsb' 0 32 cw : BitVec (16 + 32)) = cw
  ext j hj
  simp only [BitVec.getElem_append, BitVec.getElem_extractLsb']
  have h : j < 48 := hj
  split
  · simp [BitVec.getLsbD_eq_getElem h]
  · rw [Nat.add_sub_cancel' (by omega), BitVec.getLsbD_eq_getElem h]

/-- A word given by its header and data is decoded from them. -/
theorem decode_commandWord (P : Params) (h : Header) (d : Word) :
    decode P (commandWord h d) = decodeParts P h d := by
  rw [decode, header_commandWord, data_commandWord]

/-- A row that is the first to select a header decides the decoding. -/
theorem decodeParts_of_find {P : Params} {h : Header} {r : Row} (hr : rows.find? (fun r => r.selects h) = some r)
    (d : Word) : decodeParts P h d = if (r.build h d).wf P then .ok (r.build h d) else .error .noIndex := by
  rw [decodeParts, hr]

theorem source_vecHeader (w : BitVec 1) (x : BitVec 5) : Header.source (vecHeader w x) = x := by
  show BitVec.extractLsb' 2 5 (w ++ 0#3 ++ 2#5 ++ x ++ 0#2 : BitVec (1 + 3 + 5 + 5 + 2)) = x
  ext j hj
  simp only [BitVec.getElem_extractLsb', BitVec.getLsbD_append]
  simp [hj]
  omega

theorem ring_rbHeader (w : BitVec 1) (i : BitVec 7) (reg : BitVec 5) : Header.ring (rbHeader w i reg) = i := by
  show BitVec.extractLsb' 5 7 (w ++ 1#3 ++ i ++ reg : BitVec (1 + 3 + 7 + 5)) = i
  ext j hj
  simp only [BitVec.getElem_extractLsb', BitVec.getLsbD_append]
  simp [hj]

theorem port_uartHeader (w : BitVec 1) (p : BitVec 2) (off : BitVec 12) :
    Header.port (uartHeader w p off) = p := by
  show BitVec.extractLsb' 12 2 (w ++ 1#1 ++ p ++ off : BitVec (1 + 1 + 2 + 12)) = p
  ext j hj
  simp only [BitVec.getElem_extractLsb', BitVec.getLsbD_append]
  simp [hj]

theorem dataByte_setWidth (b : Byte) : dataByte (b.setWidth 32) = b := by
  apply BitVec.eq_of_toNat_eq
  simp [dataByte, BitVec.extractLsb'_toNat]
  omega

theorem dataThreshold_setWidth (t : BitVec 6) : dataThreshold (t.setWidth 32) = t := by
  apply BitVec.eq_of_toNat_eq
  simp [dataThreshold, BitVec.extractLsb'_toNat]
  omega

theorem dataDirections_setWidth (d : BitVec 2) : dataDirections (d.setWidth 32) = d := by
  apply BitVec.eq_of_toNat_eq
  simp [dataDirections, BitVec.extractLsb'_toNat]
  omega

end Sys2Proof
end

