-- ==== Sys2Proof/Laws/State.lean ====
section
/-! SUPPORT. One lemma per field per update of the state, so that no proof unfolds a record update; and what reading a ring,
a port or the running activation gives after an update. -/

namespace Sys2Proof.Machine

/-! ### State.setItc -/

@[simp] theorem State.setItc_params (s : State) (c : Itc) :
    (s.setItc c).params = s.params := rfl
@[simp] theorem State.setItc_itc (s : State) (c : Itc) :
    (s.setItc c).itc = c := rfl
@[simp] theorem State.setItc_rings (s : State) (c : Itc) :
    (s.setItc c).rings = s.rings := rfl
@[simp] theorem State.setItc_ports (s : State) (c : Itc) :
    (s.setItc c).ports = s.ports := rfl
@[simp] theorem State.setItc_srcLines (s : State) (c : Itc) :
    (s.setItc c).srcLines = s.srcLines := rfl
@[simp] theorem State.setItc_rdata (s : State) (c : Itc) :
    (s.setItc c).rdata = s.rdata := rfl
@[simp] theorem State.setItc_host (s : State) (c : Itc) :
    (s.setItc c).host = s.host := rfl
@[simp] theorem State.setItc_agenda (s : State) (c : Itc) :
    (s.setItc c).agenda = s.agenda := rfl
@[simp] theorem State.setItc_draws (s : State) (c : Itc) :
    (s.setItc c).draws = s.draws := rfl

/-! ### State.setRing -/

@[simp] theorem State.setRing_params (s : State) (i : BitVec 3) (r : RB) :
    (s.setRing i r).params = s.params := rfl
@[simp] theorem State.setRing_itc (s : State) (i : BitVec 3) (r : RB) :
    (s.setRing i r).itc = s.itc := rfl
@[simp] theorem State.setRing_rings (s : State) (i : BitVec 3) (r : RB) :
    (s.setRing i r).rings = s.rings.set i.toNat r i.isLt := rfl
@[simp] theorem State.setRing_ports (s : State) (i : BitVec 3) (r : RB) :
    (s.setRing i r).ports = s.ports := rfl
@[simp] theorem State.setRing_srcLines (s : State) (i : BitVec 3) (r : RB) :
    (s.setRing i r).srcLines = s.srcLines := rfl
@[simp] theorem State.setRing_rdata (s : State) (i : BitVec 3) (r : RB) :
    (s.setRing i r).rdata = s.rdata := rfl
@[simp] theorem State.setRing_host (s : State) (i : BitVec 3) (r : RB) :
    (s.setRing i r).host = s.host := rfl
@[simp] theorem State.setRing_agenda (s : State) (i : BitVec 3) (r : RB) :
    (s.setRing i r).agenda = s.agenda := rfl
@[simp] theorem State.setRing_draws (s : State) (i : BitVec 3) (r : RB) :
    (s.setRing i r).draws = s.draws := rfl

/-! ### State.setPort -/

@[simp] theorem State.setPort_params (s : State) (p : BitVec 2) (q : Port) :
    (s.setPort p q).params = s.params := rfl
@[simp] theorem State.setPort_itc (s : State) (p : BitVec 2) (q : Port) :
    (s.setPort p q).itc = s.itc := rfl
@[simp] theorem State.setPort_rings (s : State) (p : BitVec 2) (q : Port) :
    (s.setPort p q).rings = s.rings := rfl
@[simp] theorem State.setPort_ports (s : State) (p : BitVec 2) (q : Port) :
    (s.setPort p q).ports = s.ports.set p.toNat q p.isLt := rfl
@[simp] theorem State.setPort_srcLines (s : State) (p : BitVec 2) (q : Port) :
    (s.setPort p q).srcLines = s.srcLines := rfl
@[simp] theorem State.setPort_rdata (s : State) (p : BitVec 2) (q : Port) :
    (s.setPort p q).rdata = s.rdata := rfl
@[simp] theorem State.setPort_host (s : State) (p : BitVec 2) (q : Port) :
    (s.setPort p q).host = s.host := rfl
@[simp] theorem State.setPort_agenda (s : State) (p : BitVec 2) (q : Port) :
    (s.setPort p q).agenda = s.agenda := rfl
@[simp] theorem State.setPort_draws (s : State) (p : BitVec 2) (q : Port) :
    (s.setPort p q).draws = s.draws := rfl

/-! ### answer -/

@[simp] theorem answer_params (s : State) (v : Word) :
    (answer s v).params = s.params := rfl
@[simp] theorem answer_itc (s : State) (v : Word) :
    (answer s v).itc = s.itc := rfl
@[simp] theorem answer_rings (s : State) (v : Word) :
    (answer s v).rings = s.rings := rfl
@[simp] theorem answer_ports (s : State) (v : Word) :
    (answer s v).ports = s.ports := rfl
@[simp] theorem answer_srcLines (s : State) (v : Word) :
    (answer s v).srcLines = s.srcLines := rfl
@[simp] theorem answer_rdata (s : State) (v : Word) :
    (answer s v).rdata = v := rfl
@[simp] theorem answer_host (s : State) (v : Word) :
    (answer s v).host = s.host := rfl
@[simp] theorem answer_agenda (s : State) (v : Word) :
    (answer s v).agenda = s.agenda := rfl
@[simp] theorem answer_draws (s : State) (v : Word) :
    (answer s v).draws = s.draws := rfl

/-! ### State.drawn -/

@[simp] theorem State.drawn_params (s : State) :
    (s.drawn).params = s.params := rfl
@[simp] theorem State.drawn_itc (s : State) :
    (s.drawn).itc = s.itc := rfl
@[simp] theorem State.drawn_rings (s : State) :
    (s.drawn).rings = s.rings := rfl
@[simp] theorem State.drawn_ports (s : State) :
    (s.drawn).ports = s.ports := rfl
@[simp] theorem State.drawn_srcLines (s : State) :
    (s.drawn).srcLines = s.srcLines := rfl
@[simp] theorem State.drawn_rdata (s : State) :
    (s.drawn).rdata = s.rdata := rfl
@[simp] theorem State.drawn_host (s : State) :
    (s.drawn).host = s.host := rfl
@[simp] theorem State.drawn_agenda (s : State) :
    (s.drawn).agenda = s.agenda := rfl
@[simp] theorem State.drawn_draws (s : State) :
    (s.drawn).draws = s.draws + 1 := rfl

/-! ### State.setAct -/

@[simp] theorem State.setAct_params (s : State) (a : Activation) :
    (s.setAct a).params = s.params := rfl
@[simp] theorem State.setAct_itc (s : State) (a : Activation) :
    (s.setAct a).itc = s.itc := rfl
@[simp] theorem State.setAct_rings (s : State) (a : Activation) :
    (s.setAct a).rings = s.rings := rfl
@[simp] theorem State.setAct_ports (s : State) (a : Activation) :
    (s.setAct a).ports = s.ports := rfl
@[simp] theorem State.setAct_srcLines (s : State) (a : Activation) :
    (s.setAct a).srcLines = s.srcLines := rfl
@[simp] theorem State.setAct_rdata (s : State) (a : Activation) :
    (s.setAct a).rdata = s.rdata := rfl
@[simp] theorem State.setAct_host (s : State) (a : Activation) :
    (s.setAct a).host = { s.host with running := { s.host.running with act := a } } := rfl
@[simp] theorem State.setAct_agenda (s : State) (a : Activation) :
    (s.setAct a).agenda = s.agenda := rfl
@[simp] theorem State.setAct_draws (s : State) (a : Activation) :
    (s.setAct a).draws = s.draws := rfl

/-! ### advanced -/

@[simp] theorem advanced_params (s : State) :
    (advanced s).params = s.params := rfl
@[simp] theorem advanced_itc (s : State) :
    (advanced s).itc = s.itc := rfl
@[simp] theorem advanced_rings (s : State) :
    (advanced s).rings = s.rings := rfl
@[simp] theorem advanced_ports (s : State) :
    (advanced s).ports = s.ports := rfl
@[simp] theorem advanced_srcLines (s : State) :
    (advanced s).srcLines = s.srcLines := rfl
@[simp] theorem advanced_rdata (s : State) :
    (advanced s).rdata = s.rdata := rfl
@[simp] theorem advanced_host (s : State) :
    (advanced s).host = { s.host with running := { s.host.running with act := s.act.advance } } := rfl
@[simp] theorem advanced_agenda (s : State) :
    (advanced s).agenda = s.agenda := rfl
@[simp] theorem advanced_draws (s : State) :
    (advanced s).draws = s.draws := rfl

/-! ### assigned -/

@[simp] theorem assigned_params (s : State) (dst : Option Temp) (v : Word) :
    (assigned s dst v).params = s.params := rfl
@[simp] theorem assigned_itc (s : State) (dst : Option Temp) (v : Word) :
    (assigned s dst v).itc = s.itc := rfl
@[simp] theorem assigned_rings (s : State) (dst : Option Temp) (v : Word) :
    (assigned s dst v).rings = s.rings := rfl
@[simp] theorem assigned_ports (s : State) (dst : Option Temp) (v : Word) :
    (assigned s dst v).ports = s.ports := rfl
@[simp] theorem assigned_srcLines (s : State) (dst : Option Temp) (v : Word) :
    (assigned s dst v).srcLines = s.srcLines := rfl
@[simp] theorem assigned_rdata (s : State) (dst : Option Temp) (v : Word) :
    (assigned s dst v).rdata = s.rdata := rfl
@[simp] theorem assigned_host (s : State) (dst : Option Temp) (v : Word) :
    (assigned s dst v).host = { s.host with running := { s.host.running with act := (s.act.assign dst v).advance } } := rfl
@[simp] theorem assigned_agenda (s : State) (dst : Option Temp) (v : Word) :
    (assigned s dst v).agenda = s.agenda := rfl
@[simp] theorem assigned_draws (s : State) (dst : Option Temp) (v : Word) :
    (assigned s dst v).draws = s.draws := rfl

/-! ### enterContext -/

@[simp] theorem enterContext_params (s : State) (k : ContextKind) (prog : Program) :
    (enterContext s k prog).params = s.params := rfl
@[simp] theorem enterContext_itc (s : State) (k : ContextKind) (prog : Program) :
    (enterContext s k prog).itc = s.itc := rfl
@[simp] theorem enterContext_rings (s : State) (k : ContextKind) (prog : Program) :
    (enterContext s k prog).rings = s.rings := rfl
@[simp] theorem enterContext_ports (s : State) (k : ContextKind) (prog : Program) :
    (enterContext s k prog).ports = s.ports := rfl
@[simp] theorem enterContext_srcLines (s : State) (k : ContextKind) (prog : Program) :
    (enterContext s k prog).srcLines = s.srcLines := rfl
@[simp] theorem enterContext_rdata (s : State) (k : ContextKind) (prog : Program) :
    (enterContext s k prog).rdata = s.rdata := rfl
@[simp] theorem enterContext_host (s : State) (k : ContextKind) (prog : Program) :
    (enterContext s k prog).host = { s.host with running := Context.start k prog, below := s.host.running :: s.host.below } := rfl
@[simp] theorem enterContext_agenda (s : State) (k : ContextKind) (prog : Program) :
    (enterContext s k prog).agenda = s.agenda := rfl
@[simp] theorem enterContext_draws (s : State) (k : ContextKind) (prog : Program) :
    (enterContext s k prog).draws = s.draws := rfl

/-! ### enterProgram -/

@[simp] theorem enterProgram_params (s : State) (prog : Program) (dst : Option Temp) :
    (enterProgram s prog dst).params = s.params := rfl
@[simp] theorem enterProgram_itc (s : State) (prog : Program) (dst : Option Temp) :
    (enterProgram s prog dst).itc = s.itc := rfl
@[simp] theorem enterProgram_rings (s : State) (prog : Program) (dst : Option Temp) :
    (enterProgram s prog dst).rings = s.rings := rfl
@[simp] theorem enterProgram_ports (s : State) (prog : Program) (dst : Option Temp) :
    (enterProgram s prog dst).ports = s.ports := rfl
@[simp] theorem enterProgram_srcLines (s : State) (prog : Program) (dst : Option Temp) :
    (enterProgram s prog dst).srcLines = s.srcLines := rfl
@[simp] theorem enterProgram_rdata (s : State) (prog : Program) (dst : Option Temp) :
    (enterProgram s prog dst).rdata = s.rdata := rfl
@[simp] theorem enterProgram_host (s : State) (prog : Program) (dst : Option Temp) :
    (enterProgram s prog dst).host = { s.host with running := { s.host.running with act := Activation.start prog dst, callers := s.act.advance :: s.host.running.callers } } := rfl
@[simp] theorem enterProgram_agenda (s : State) (prog : Program) (dst : Option Temp) :
    (enterProgram s prog dst).agenda = s.agenda := rfl
@[simp] theorem enterProgram_draws (s : State) (prog : Program) (dst : Option Temp) :
    (enterProgram s prog dst).draws = s.draws := rfl

/-! ### srcStep -/

@[simp] theorem srcStep_params (s : State) (lines : Word) :
    (srcStep s lines).params = s.params := rfl
@[simp] theorem srcStep_itc (s : State) (lines : Word) :
    (srcStep s lines).itc = s.itc := rfl
@[simp] theorem srcStep_rings (s : State) (lines : Word) :
    (srcStep s lines).rings = s.rings := rfl
@[simp] theorem srcStep_ports (s : State) (lines : Word) :
    (srcStep s lines).ports = s.ports := rfl
@[simp] theorem srcStep_srcLines (s : State) (lines : Word) :
    (srcStep s lines).srcLines = lines := rfl
@[simp] theorem srcStep_rdata (s : State) (lines : Word) :
    (srcStep s lines).rdata = s.rdata := rfl
@[simp] theorem srcStep_host (s : State) (lines : Word) :
    (srcStep s lines).host = s.host := rfl
@[simp] theorem srcStep_agenda (s : State) (lines : Word) :
    (srcStep s lines).agenda = s.agenda := rfl
@[simp] theorem srcStep_draws (s : State) (lines : Word) :
    (srcStep s lines).draws = s.draws := rfl

/-! ### Rings, ports and the activation after an update -/

@[simp] theorem State.ring_setRing_self (s : State) (i : BitVec 3) (r : RB) : (s.setRing i r).ring i = r := by
  simp [State.ring]

theorem State.ring_setRing_ne {i j : BitVec 3} (h : j ≠ i) (s : State) (r : RB) :
    (s.setRing i r).ring j = s.ring j := by
  simp only [State.ring, State.setRing_rings]
  exact Vector.getElem_set_ne _ _ (fun e => h (BitVec.eq_of_toNat_eq e.symm))

@[simp] theorem State.port_setPort_self (s : State) (p : BitVec 2) (q : Port) : (s.setPort p q).port p = q := by
  simp [State.port]

theorem State.port_setPort_ne {p r : BitVec 2} (h : r ≠ p) (s : State) (q : Port) :
    (s.setPort p q).port r = s.port r := by
  simp only [State.port, State.setPort_ports]
  exact Vector.getElem_set_ne _ _ (fun e => h (BitVec.eq_of_toNat_eq e.symm))

@[simp] theorem State.ring_setItc (s : State) (c : Itc) (j : BitVec 3) :
    (s.setItc c).ring j = s.ring j := rfl
@[simp] theorem State.port_setItc (s : State) (c : Itc) (j : BitVec 2) :
    (s.setItc c).port j = s.port j := rfl
@[simp] theorem State.act_setItc (s : State) (c : Itc) : (s.setItc c).act = s.act := rfl
@[simp] theorem State.port_setRing (s : State) (i : BitVec 3) (r : RB) (j : BitVec 2) :
    (s.setRing i r).port j = s.port j := rfl
@[simp] theorem State.vect_setRing (s : State) (i : BitVec 3) (r : RB) (j : BitVec 5) :
    (s.setRing i r).vect j = s.vect j := rfl
@[simp] theorem State.act_setRing (s : State) (i : BitVec 3) (r : RB) : (s.setRing i r).act = s.act := rfl
@[simp] theorem State.ring_setPort (s : State) (p : BitVec 2) (q : Port) (j : BitVec 3) :
    (s.setPort p q).ring j = s.ring j := rfl
@[simp] theorem State.vect_setPort (s : State) (p : BitVec 2) (q : Port) (j : BitVec 5) :
    (s.setPort p q).vect j = s.vect j := rfl
@[simp] theorem State.act_setPort (s : State) (p : BitVec 2) (q : Port) : (s.setPort p q).act = s.act := rfl
@[simp] theorem State.ring_answer (s : State) (v : Word) (j : BitVec 3) :
    (answer s v).ring j = s.ring j := rfl
@[simp] theorem State.port_answer (s : State) (v : Word) (j : BitVec 2) :
    (answer s v).port j = s.port j := rfl
@[simp] theorem State.vect_answer (s : State) (v : Word) (j : BitVec 5) :
    (answer s v).vect j = s.vect j := rfl
@[simp] theorem State.act_answer (s : State) (v : Word) : (answer s v).act = s.act := rfl
@[simp] theorem State.ring_drawn (s : State) (j : BitVec 3) :
    (s.drawn).ring j = s.ring j := rfl
@[simp] theorem State.port_drawn (s : State) (j : BitVec 2) :
    (s.drawn).port j = s.port j := rfl
@[simp] theorem State.vect_drawn (s : State) (j : BitVec 5) :
    (s.drawn).vect j = s.vect j := rfl
@[simp] theorem State.act_drawn (s : State) : (s.drawn).act = s.act := rfl
@[simp] theorem State.ring_setAct (s : State) (a : Activation) (j : BitVec 3) :
    (s.setAct a).ring j = s.ring j := rfl
@[simp] theorem State.port_setAct (s : State) (a : Activation) (j : BitVec 2) :
    (s.setAct a).port j = s.port j := rfl
@[simp] theorem State.vect_setAct (s : State) (a : Activation) (j : BitVec 5) :
    (s.setAct a).vect j = s.vect j := rfl
@[simp] theorem State.ring_advanced (s : State) (j : BitVec 3) :
    (advanced s).ring j = s.ring j := rfl
@[simp] theorem State.port_advanced (s : State) (j : BitVec 2) :
    (advanced s).port j = s.port j := rfl
@[simp] theorem State.vect_advanced (s : State) (j : BitVec 5) :
    (advanced s).vect j = s.vect j := rfl
@[simp] theorem State.ring_assigned (s : State) (dst : Option Temp) (v : Word) (j : BitVec 3) :
    (assigned s dst v).ring j = s.ring j := rfl
@[simp] theorem State.port_assigned (s : State) (dst : Option Temp) (v : Word) (j : BitVec 2) :
    (assigned s dst v).port j = s.port j := rfl
@[simp] theorem State.vect_assigned (s : State) (dst : Option Temp) (v : Word) (j : BitVec 5) :
    (assigned s dst v).vect j = s.vect j := rfl
@[simp] theorem State.ring_enterContext (s : State) (k : ContextKind) (prog : Program) (j : BitVec 3) :
    (enterContext s k prog).ring j = s.ring j := rfl
@[simp] theorem State.port_enterContext (s : State) (k : ContextKind) (prog : Program) (j : BitVec 2) :
    (enterContext s k prog).port j = s.port j := rfl
@[simp] theorem State.vect_enterContext (s : State) (k : ContextKind) (prog : Program) (j : BitVec 5) :
    (enterContext s k prog).vect j = s.vect j := rfl
@[simp] theorem State.ring_enterProgram (s : State) (prog : Program) (dst : Option Temp) (j : BitVec 3) :
    (enterProgram s prog dst).ring j = s.ring j := rfl
@[simp] theorem State.port_enterProgram (s : State) (prog : Program) (dst : Option Temp) (j : BitVec 2) :
    (enterProgram s prog dst).port j = s.port j := rfl
@[simp] theorem State.vect_enterProgram (s : State) (prog : Program) (dst : Option Temp) (j : BitVec 5) :
    (enterProgram s prog dst).vect j = s.vect j := rfl
@[simp] theorem State.ring_srcStep (s : State) (lines : Word) (j : BitVec 3) :
    (srcStep s lines).ring j = s.ring j := rfl
@[simp] theorem State.port_srcStep (s : State) (lines : Word) (j : BitVec 2) :
    (srcStep s lines).port j = s.port j := rfl
@[simp] theorem State.vect_srcStep (s : State) (lines : Word) (j : BitVec 5) :
    (srcStep s lines).vect j = s.vect j := rfl
@[simp] theorem State.act_srcStep (s : State) (lines : Word) : (srcStep s lines).act = s.act := rfl

@[simp] theorem State.act_setAct (s : State) (a : Activation) : (s.setAct a).act = a := rfl
@[simp] theorem State.act_advanced (s : State) : (advanced s).act = s.act.advance := rfl
@[simp] theorem State.act_assigned (s : State) (dst : Option Temp) (v : Word) :
    (assigned s dst v).act = (s.act.assign dst v).advance := rfl
@[simp] theorem State.act_enterProgram (s : State) (prog : Program) (dst : Option Temp) :
    (enterProgram s prog dst).act = Activation.start prog dst := rfl
@[simp] theorem State.act_enterContext (s : State) (k : ContextKind) (prog : Program) :
    (enterContext s k prog).act = Activation.start prog none := rfl

@[simp] theorem Activation.assign_none (a : Activation) (v : Word) : a.assign none v = a := rfl
@[simp] theorem Activation.assign_some (a : Activation) (t : Temp) (v : Word) :
    a.assign (some t) v = { a with temps := putAt a.temps t v } := rfl
@[simp] theorem Activation.assign_prog (a : Activation) (dst : Option Temp) (v : Word) :
    (a.assign dst v).prog = a.prog := by cases dst <;> rfl
@[simp] theorem Activation.assign_pos (a : Activation) (dst : Option Temp) (v : Word) :
    (a.assign dst v).pos = a.pos := by cases dst <;> rfl
@[simp] theorem Activation.advance_prog (a : Activation) : a.advance.prog = a.prog := rfl
@[simp] theorem Activation.advance_pos (a : Activation) : a.advance.pos = a.pos + 1 := rfl
@[simp] theorem Activation.advance_temps (a : Activation) : a.advance.temps = a.temps := rfl
@[simp] theorem Activation.goto_prog (a : Activation) (n : Nat) : (a.goto n).prog = a.prog := rfl
@[simp] theorem Activation.goto_pos (a : Activation) (n : Nat) : (a.goto n).pos = n := rfl
@[simp] theorem Activation.goto_temps (a : Activation) (n : Nat) : (a.goto n).temps = a.temps := rfl
@[simp] theorem Activation.start_prog (prog : Program) (dst : Option Temp) :
    (Activation.start prog dst).prog = prog := rfl
@[simp] theorem Activation.start_pos (prog : Program) (dst : Option Temp) : (Activation.start prog dst).pos = 0 := rfl
@[simp] theorem Activation.start_temps (prog : Program) (dst : Option Temp) :
    (Activation.start prog dst).temps = [] := rfl

end Sys2Proof.Machine
end

