-- ==== Sys2Proof/Laws/Memory.lean ====
section
/-! SUPPORT. Lists of numbered values (byte memories, temporaries): what reading gives after a write, that a write keeps the
canonical form, and that in canonical form equal contents are equal data. -/

namespace Sys2Proof.Machine

/-! ### Reading after a write -/

theorem listedAt_putAt_self {α : Type} (l : List (Nat × α)) (a : Nat) (x : α) :
    listedAt (putAt l a x) a = some x := by
  induction l with
  | nil => simp [putAt, listedAt]
  | cons c rest ih =>
    simp only [putAt]
    split
    · simp [listedAt]
    · split
      · simp [listedAt]
      · simp [listedAt, *]

theorem listedAt_putAt_ne {α : Type} (l : List (Nat × α)) {a b : Nat} (x : α) (h : b ≠ a) :
    listedAt (putAt l a x) b = listedAt l b := by
  induction l with
  | nil => simp [putAt, listedAt, Ne.symm h]
  | cons c rest ih =>
    simp only [putAt]
    split
    · simp [listedAt, Ne.symm h]
    · split
      · next e => simp [listedAt, e, Ne.symm h]
      · simp [listedAt, ih]

@[simp] theorem Memory.read_write_self (m : Memory) (a : Nat) (b : Byte) : (m.write a b).read a = some b :=
  listedAt_putAt_self m a b

theorem Memory.read_write_ne (m : Memory) {a c : Nat} (b : Byte) (h : c ≠ a) : (m.write a b).read c = m.read c :=
  listedAt_putAt_ne m b h

@[simp] theorem Memory.read_nil (a : Nat) : Memory.read [] a = none := rfl

/-! ### The canonical form -/

theorem mem_putAt {α : Type} {l : List (Nat × α)} {a : Nat} {x : α} {c : Nat × α} (h : c ∈ putAt l a x) :
    c = (a, x) ∨ c ∈ l := by
  induction l with
  | nil => simpa [putAt] using h
  | cons d rest ih =>
    simp only [putAt] at h
    split at h
    · simpa using h
    · split at h
      · rcases List.mem_cons.1 h with e | e
        · exact .inl e
        · exact .inr (List.mem_cons_of_mem _ e)
      · rcases List.mem_cons.1 h with e | e
        · exact .inr (e ▸ List.mem_cons_self ..)
        · exact (ih e).imp_right (List.mem_cons_of_mem _)

theorem putAt_sorted {α : Type} {l : List (Nat × α)} (a : Nat) (x : α)
    (h : (l.map Prod.fst).Pairwise (· < ·)) : ((putAt l a x).map Prod.fst).Pairwise (· < ·) := by
  induction l with
  | nil => simp [putAt]
  | cons d rest ih =>
    rw [List.map_cons, List.pairwise_cons] at h
    simp only [putAt]
    split
    · next hlt =>
      rw [List.map_cons, List.pairwise_cons, List.map_cons, List.pairwise_cons]
      refine ⟨fun b hb => ?_, h⟩
      rcases List.mem_cons.1 hb with e | e
      · exact e ▸ hlt
      · exact lt_trans hlt (h.1 b e)
    · split
      · next e =>
        rw [List.map_cons, List.pairwise_cons]
        exact e ▸ h
      · rw [List.map_cons, List.pairwise_cons]
        refine ⟨fun b hb => ?_, ih h.2⟩
        obtain ⟨c, hc, rfl⟩ := List.mem_map.1 hb
        rcases mem_putAt hc with e | e
        · subst e
          show d.1 < a
          omega
        · exact h.1 _ (List.mem_map_of_mem e)

/-- Every write keeps the canonical form. -/
theorem Memory.write_wf {m : Memory} (h : m.wf) (a : Nat) (b : Byte) : (m.write a b).wf := putAt_sorted a b h

/-- A write lists no address but its own and those listed before. -/
theorem Memory.mem_write {m : Memory} {a : Nat} {b : Byte} {c : Host.Cell} (h : c ∈ m.write a b) :
    c.1 = a ∨ c ∈ m := (mem_putAt h).imp_left (congrArg Prod.fst)

theorem RB.reset_mem_wf (aw : Nat) : (RB.reset aw).mem.wf := List.Pairwise.nil

theorem State.resetOf_mem_wf (P : Params) (main : Program) (handlers : List (Word × Program)) :
    (State.resetOf P main handlers).host.mem.wf := List.Pairwise.nil

theorem State.reset_mem_wf : State.reset.host.mem.wf := List.Pairwise.nil

theorem listedAt_of_lt {α : Type} {l : List (Nat × α)} {a : Nat} (h : ∀ c ∈ l, a < c.1) : listedAt l a = none := by
  induction l with
  | nil => rfl
  | cons d rest ih =>
    have hd : a < d.1 := h d (List.mem_cons_self ..)
    rw [listedAt, if_neg (by omega)]
    exact ih fun c hc => h c (List.mem_cons_of_mem _ hc)

/-- Memories in canonical form that read alike everywhere are equal data. -/
theorem Memory.ext_of_wf {m n : Memory} (hm : m.wf) (hn : n.wf) (h : ∀ a, m.read a = n.read a) : m = n := by
  induction m generalizing n with
  | nil =>
    cases n with
    | nil => rfl
    | cons d rest =>
      have := h d.1
      simp [Memory.read, listedAt] at this
  | cons c rest ih =>
    cases n with
    | nil =>
      have := h c.1
      simp [Memory.read, listedAt] at this
    | cons d rest' =>
      rw [Memory.wf, List.map_cons, List.pairwise_cons] at hm hn
      have below {e : Host.Cell} {l : List Host.Cell} (hl : ∀ b ∈ l.map Prod.fst, e.1 < b) (a : Nat) (ha : a ≤ e.1) :
          listedAt l a = none :=
        listedAt_of_lt fun x hx => lt_of_le_of_lt ha (hl x.1 (List.mem_map_of_mem hx))
      have hcd : c.1 = d.1 := by
        by_contra hne
        rcases Nat.lt_or_gt_of_ne hne with hlt | hlt
        · have := h c.1
          rw [Memory.read, Memory.read, listedAt, if_pos rfl, listedAt, if_neg (by omega),
            below hn.1 _ hlt.le] at this
          simp at this
        · have := h d.1
          rw [Memory.read, Memory.read, listedAt, if_neg (by omega), listedAt, if_pos rfl,
            below hm.1 _ hlt.le] at this
          simp at this
      have hval : c = d := by
        have := h c.1
        rw [Memory.read, Memory.read, listedAt, if_pos rfl, listedAt, if_pos hcd.symm] at this
        exact Prod.ext hcd (by simpa using this)
      subst hval
      congr 1
      refine ih hm.2 hn.2 fun a => ?_
      by_cases ha : a ≤ c.1
      · rw [Memory.read, Memory.read, below hm.1 a ha, below hn.1 a ha]
      · have := h a
        rwa [Memory.read, Memory.read, listedAt, listedAt, if_neg (by omega), if_neg (by omega)] at this

end Sys2Proof.Machine
end

