-- ==== Sys2Proof/Laws/Operations.lean ====
section
/-! SUPPORT. One lemma for each shared operation that says everything it can do, to be cited in place of its definition. -/

namespace Sys2Proof.Machine

/-! ### The checks in front of a meaning -/

theorem withSource_cases (s : State) (n : Word) (f : Nat → State) :
    (n.toNat < s.params.nsrc ∧ withSource s n f = .next (f n.toNat)) ∨
    (s.params.nsrc ≤ n.toNat ∧ withSource s n f = .fault .badSource) := by
  unfold withSource
  split
  · exact .inl ⟨‹_›, rfl⟩
  · exact .inr ⟨by omega, rfl⟩

theorem withVector_cases (s : State) (x : BitVec 5) (f : Unit → Answered) :
    (x.toNat < s.params.nsrc ∧ withVector s x f = f ()) ∨
    (s.params.nsrc ≤ x.toNat ∧ withVector s x f = .fault .busUndefined) := by
  unfold withVector
  split
  · exact .inl ⟨‹_›, rfl⟩
  · exact .inr ⟨by omega, rfl⟩

theorem withRing_cases (s : State) (i : BitVec 7) (f : BitVec 3 → Answered) :
    (i.toNat < 2 * s.params.nports ∧ withRing s i f = f (ringIndex i)) ∨
    (2 * s.params.nports ≤ i.toNat ∧ withRing s i f = .fault .busUndefined) := by
  unfold withRing
  split
  · exact .inl ⟨‹_›, rfl⟩
  · exact .inr ⟨by omega, rfl⟩

theorem withPort_cases (s : State) (p : BitVec 2) (f : Port → Answered) :
    (p.toNat < s.params.nports ∧ withPort s p f = f (s.port p)) ∨
    (s.params.nports ≤ p.toNat ∧ withPort s p f = .fault .busUndefined) := by
  unfold withPort
  split
  · exact .inl ⟨‹_›, rfl⟩
  · exact .inr ⟨by omega, rfl⟩

/-! ### Statements of the host -/

theorem withValue_cases {α : Type} (v : Option α) (f : α → Answered) :
    (∃ x, v = some x ∧ withValue v f = f x) ∨ (v = none ∧ withValue v f = .fault .unwrittenTemporary) := by
  cases v with
  | none => exact .inr ⟨rfl, rfl⟩
  | some x => exact .inl ⟨x, rfl, rfl⟩

/-- A transaction is refused by the decoder, or performs what the decoder reads. -/
theorem transact_cases (s : State) (dst : Option Temp) (cw : CommandWord) :
    (∃ e, decode s.params cw = .error e ∧ transact s dst cw = .fault .busUndefined) ∨
    ∃ i, decode s.params cw = .ok i ∧
      ((∃ t, exec i s = .next t ∧ transact s dst cw = .next (assigned t dst t.rdata)) ∨
        (∃ f, exec i s = .fault f ∧ transact s dst cw = .fault f) ∨
        ∃ r, exec i s = .refused r ∧ transact s dst cw = .refused r) := by
  unfold transact
  split
  · next e h => exact .inl ⟨e, h, rfl⟩
  · next i h =>
    refine .inr ⟨i, h, ?_⟩
    cases he : exec i s with
    | next t => exact .inl ⟨t, rfl, rfl⟩
    | fault f => exact .inr (.inl ⟨f, rfl, rfl⟩)
    | refused r => exact .inr (.inr ⟨r, rfl, rfl⟩)

theorem invokeToken_cases (s : State) (t : Word) :
    (∃ prog, handlerProgram s.params s.host.handlers t = some prog ∧
      invokeToken s t = .next (enterProgram s prog none)) ∨
    (handlerProgram s.params s.host.handlers t = none ∧ invokeToken s t = .fault .noHandler) := by
  unfold invokeToken
  split
  · next h => exact .inr ⟨h, rfl⟩
  · next prog h => exact .inl ⟨prog, h, rfl⟩

/-- The end of a context: the one below runs, or the mainline stays behind its last statement. -/
theorem leaveContext_cases (s : State) :
    (∃ c rest, s.host.below = c :: rest ∧
      leaveContext s = { s with host := { s.host with running := c, below := rest } }) ∨
    (s.host.below = [] ∧ leaveContext s = s.setAct (s.act.goto s.act.prog.length)) := by
  unfold leaveContext
  split
  · next c rest h => exact .inl ⟨c, rest, h, rfl⟩
  · next h => exact .inr ⟨h, rfl⟩

/-- A return without a result. -/
theorem returnFrom_none_cases (s : State) :
    (∃ a rest, s.host.running.callers = a :: rest ∧
      returnFrom s none =
        { s with host := { s.host with running := { s.host.running with act := a, callers := rest } } }) ∨
    (s.host.running.callers = [] ∧ returnFrom s none = leaveContext s) := by
  unfold returnFrom
  dsimp only
  split
  · next a rest h => exact .inl ⟨a, rest, h, rfl⟩
  · next h => exact .inr ⟨h, rfl⟩

/-- A return with a result: it is recorded, and the caller's temporary takes its word. -/
theorem returnFrom_some_cases (s : State) (x : Result) :
    (∃ a rest, s.host.running.callers = a :: rest ∧
      returnFrom s (some x) =
        { s with host := { s.host with
          result := some x
          running := { s.host.running with act := a.assign s.act.dst x.word, callers := rest } } }) ∨
    (s.host.running.callers = [] ∧
      returnFrom s (some x) = leaveContext { s with host := { s.host with result := some x } }) := by
  unfold returnFrom
  dsimp only
  split
  · next a rest h => exact .inl ⟨a, rest, h, rfl⟩
  · next h => exact .inr ⟨h, rfl⟩

/-- A poll that found nothing. -/
theorem waitOn_cases (s : State) (target : Nat) :
    (∃ n, s.params.busyBound = some n ∧ n ≤ s.act.polls + 1 ∧
      waitOn s target = returnFrom s (some (.err .timeout))) ∨
    ((∀ n, s.params.busyBound = some n → s.act.polls + 1 < n) ∧
      waitOn s target = s.setAct { s.act with polls := s.act.polls + 1, pos := target }) := by
  unfold waitOn
  dsimp only
  split
  · next h => exact .inr ⟨by simp [h], rfl⟩
  · next n h =>
    split
    · next hn => exact .inl ⟨n, h, hn, rfl⟩
    · next hn => exact .inr ⟨fun m e => by rw [h] at e; cases e; omega, rfl⟩

/-- One step with nothing on the agenda is one statement of the host. -/
theorem step_of_agenda_nil {s : State} (h : s.agenda = []) : step s = hostStep s := by
  rw [step, agendaStep, h]

/-- One step with an event on the agenda runs it. -/
theorem step_of_agenda_cons {s : State} {e : Event} {rest : List Event} (h : s.agenda = e :: rest) :
    step s = runEvent { s with agenda := rest } e := by
  rw [step, agendaStep, h]

theorem hostStep_of_line {s : State} {l : Line} (h : s.act.prog[s.act.pos]? = some l) :
    hostStep s = runStmt s l.stmt := by
  rw [hostStep, h]

/-- Interrupt entry: the fast context first, then the normal one, else nothing. -/
theorem enterInterrupt_cases (s : State) :
    (entryAdmitted s = true ∧ fiqO s = true ∧ enterInterrupt s = enterContext s .fast serviceFastProgram) ∨
    (entryAdmitted s = true ∧ fiqO s = false ∧ irqO s = true ∧
      enterInterrupt s = enterContext s .normal serviceNormalProgram) ∨
    enterInterrupt s = s := by
  unfold enterInterrupt
  split
  · next h =>
    split
    · next hf => exact .inl ⟨h, hf, rfl⟩
    · next hf =>
      split
      · next hi => exact .inr (.inl ⟨h, by simpa using hf, hi, rfl⟩)
      · exact .inr (.inr rfl)
  · exact .inr (.inr rfl)

/-! ### Bits -/

theorem one_shiftLeft_getLsbD (n k : Nat) : (1#32 <<< n).getLsbD k = (decide (k < 32) && (k == n)) := by
  rw [BitVec.getLsbD_shiftLeft, BitVec.getLsbD_one]
  by_cases hk : k < 32
  · by_cases hn : k < n
    · simp [hk, hn]; omega
    · rcases Nat.eq_or_lt_of_le (Nat.le_of_not_lt hn) with e | e
      · subst e; simp [hk]
      · have h1 : k ≠ n := by omega
        have h2 : ¬ (k - n = 0) := by omega
        simp [hk, hn, h1, h2]
  · simp [hk]

/-- Setting or clearing one bit. -/
theorem putBit_getLsbD (v : Word) (n k : Nat) (b : Bool) (hk : k < 32) :
    (putBit v n b).getLsbD k = if k = n then b else v.getLsbD k := by
  cases b
  · rw [putBit, if_neg (by decide), BitVec.getLsbD_and, BitVec.getLsbD_not, one_shiftLeft_getLsbD]
    by_cases e : k = n
    · subst e; simp [hk]
    · have hb : (k == n) = false := by simpa using e
      rw [hb, if_neg e]
      simp only [hk, decide_true, Bool.and_false, Bool.not_false, Bool.and_true]
  · rw [putBit, if_pos rfl, BitVec.getLsbD_or, one_shiftLeft_getLsbD]
    by_cases e : k = n
    · subst e; simp [hk]
    · simp [e]

/-- The mask of the existing sources. -/
theorem sourceMask_getLsbD (P : Params) (k : Nat) (hk : k < 32) :
    (sourceMask P).getLsbD k = decide (k < P.nsrc) := by
  rw [sourceMask, BitVec.getLsbD_ofNat, Nat.testBit_two_pow_sub_one]
  simp [hk]

/-- The search for the highest bit: nothing below `n`, or the highest bit below `n`. -/
theorem highestBelow_cases (v : Word) (n : Nat) :
    (highestBelow v n = none ∧ ∀ k < n, v.getLsbD k = false) ∨
    ∃ m, highestBelow v n = some m ∧ m < n ∧ v.getLsbD m = true ∧ ∀ k < n, m < k → v.getLsbD k = false := by
  induction n with
  | zero => exact .inl ⟨rfl, fun k hk => absurd hk (by omega)⟩
  | succ n ih =>
    simp only [highestBelow]
    split
    · next h => exact .inr ⟨n, rfl, by omega, h, fun k hk hl => absurd hl (by omega)⟩
    · next h =>
      have hn : v.getLsbD n = false := by simpa using h
      have last : ∀ k, k < n + 1 → k < n ∨ k = n := fun k hk => by omega
      rcases ih with ⟨e, hz⟩ | ⟨m, e, hm, hb, hz⟩
      · refine .inl ⟨e, fun k hk => ?_⟩
        rcases last k hk with h' | rfl
        · exact hz k h'
        · exact hn
      · refine .inr ⟨m, e, by omega, hb, fun k hk hl => ?_⟩
        rcases last k hk with h' | rfl
        · exact hz k h' hl
        · exact hn

/-- The highest bit of a word. -/
theorem highest_cases (v : Word) :
    (highest v = none ∧ ∀ k < 32, v.getLsbD k = false) ∨
    ∃ m, highest v = some m ∧ m < 32 ∧ v.getLsbD m = true ∧ ∀ k < 32, m < k → v.getLsbD k = false :=
  highestBelow_cases v 32

/-! ### Rings -/

@[simp] theorem RB.push_k (r : RB) (b : Byte) : (r.push b).k = r.k := rfl
@[simp] theorem RB.push_mem (r : RB) (b : Byte) : (r.push b).mem = r.mem.write r.writeSlot b := rfl
@[simp] theorem RB.push_wbin (r : RB) (b : Byte) : (r.push b).wbin = ringNext r.modulus r.wbin := rfl
@[simp] theorem RB.push_rbin (r : RB) (b : Byte) : (r.push b).rbin = r.rbin := rfl
@[simp] theorem RB.push_wqR (r : RB) (b : Byte) : (r.push b).wqR = r.wqR := rfl
@[simp] theorem RB.push_rqW (r : RB) (b : Byte) : (r.push b).rqW = r.rqW := rfl
@[simp] theorem RB.push_cap (r : RB) (b : Byte) : (r.push b).cap = r.cap := rfl
@[simp] theorem RB.push_modulus (r : RB) (b : Byte) : (r.push b).modulus = r.modulus := rfl
@[simp] theorem RB.pop_k (r : RB) : r.pop.k = r.k := rfl
@[simp] theorem RB.pop_mem (r : RB) : r.pop.mem = r.mem := rfl
@[simp] theorem RB.pop_wbin (r : RB) : r.pop.wbin = r.wbin := rfl
@[simp] theorem RB.pop_rbin (r : RB) : r.pop.rbin = ringNext r.modulus r.rbin := rfl
@[simp] theorem RB.pop_wqR (r : RB) : r.pop.wqR = r.wqR := rfl
@[simp] theorem RB.pop_rqW (r : RB) : r.pop.rqW = r.rqW := rfl
@[simp] theorem RB.pop_cap (r : RB) : r.pop.cap = r.cap := rfl
@[simp] theorem RB.pop_modulus (r : RB) : r.pop.modulus = r.modulus := rfl

@[simp] theorem RB.init_k (r : RB) (k : BitVec 5) : (r.init k).k = k := rfl
@[simp] theorem RB.init_mem (r : RB) (k : BitVec 5) : (r.init k).mem = r.mem := rfl
@[simp] theorem RB.init_wbin (r : RB) (k : BitVec 5) : (r.init k).wbin = 0 := rfl
@[simp] theorem RB.init_rbin (r : RB) (k : BitVec 5) : (r.init k).rbin = 0 := rfl
@[simp] theorem RB.init_wqR (r : RB) (k : BitVec 5) : (r.init k).wqR = 0 := rfl
@[simp] theorem RB.init_rqW (r : RB) (k : BitVec 5) : (r.init k).rqW = 0 := rfl

/-- A synchroniser step: nothing, or one copy one step on. -/
theorem RB.sync_cases (sy : Nat) (d : SyncDir) (r : RB) :
    RB.sync sy d r = r ∨
    (0 < sy ∧ d = .w2r ∧ r.rqW ≠ r.wbin ∧ RB.sync sy d r = { r with rqW := ringNext r.modulus r.rqW }) ∨
    (0 < sy ∧ d = .r2w ∧ r.wqR ≠ r.rbin ∧ RB.sync sy d r = { r with wqR := ringNext r.modulus r.wqR }) := by
  unfold RB.sync
  split
  · exact .inl rfl
  · next h0 =>
    cases d with
    | w2r =>
      dsimp only
      split
      · exact .inl rfl
      · next h => exact .inr (.inl ⟨by omega, rfl, h, rfl⟩)
    | r2w =>
      dsimp only
      split
      · exact .inl rfl
      · next h => exact .inr (.inr ⟨by omega, rfl, h, rfl⟩)

theorem RB.cap_pos (r : RB) : 0 < r.cap := Nat.two_pow_pos _

theorem RB.modulus_eq (r : RB) : r.modulus = 2 * r.cap := by rw [RB.modulus, RB.cap, pow_succ]; omega

/-- With an exponent up to 15 the modulus fits the sixteen bits of a pointer. -/
theorem RB.modulus_le {r : RB} (h : r.k.toNat ≤ 15) : r.modulus ≤ 65536 :=
  Nat.pow_le_pow_right (by omega) (by omega : r.k.toNat + 1 ≤ 16)

/-- One pointer step, as a number. -/
theorem ringNext_toNat {m : Nat} (h0 : 0 < m) (h : m ≤ 65536) (x : BitVec 16) :
    (ringNext m x).toNat = (x.toNat + 1) % m := by
  rw [ringNext, BitVec.toNat_ofNat, Nat.mod_eq_of_lt]
  exact lt_of_lt_of_le (Nat.mod_lt _ h0) h

/-- The distance of two pointers below the modulus. -/
theorem ringDistance_eq {m : Nat} {a b : BitVec 16} (ha : a.toNat < m) (hb : b.toNat < m) :
    ringDistance m a b = if b.toNat ≤ a.toNat then a.toNat - b.toNat else a.toNat + m - b.toNat := by
  rw [ringDistance, Nat.mod_eq_of_lt hb]
  split
  · next h => rw [show a.toNat + (m - b.toNat) = (a.toNat - b.toNat) + m by omega, Nat.add_mod_right,
      Nat.mod_eq_of_lt (by omega)]
  · rw [Nat.mod_eq_of_lt (by omega)]
    omega

/-! ### The clock step of a port -/

/-- One clock cycle: the pins are sampled, then a tick or none. -/
theorem uclkCycle_cases (P : Params) (free : Byte) (q : Port) :
    ((samplePins q).ticks = true ∧
      uclkCycle P free q = portTick P free { samplePins q with bacc := (samplePins q).baccNext }) ∨
    ((samplePins q).ticks = false ∧ uclkCycle P free q = { samplePins q with bacc := (samplePins q).baccNext }) := by
  unfold uclkCycle baud
  split
  · next h => exact .inl ⟨h, rfl⟩
  · next h => exact .inr ⟨by simpa using h, rfl⟩

end Sys2Proof.Machine
end

