-- ==== Sys2Proof/Laws/PerInstr.lean ====
section
/-! SUPPORT. For every instruction: a row of the opcode map selects its canonical header and builds it back from its
canonical header and data. One lemma per constructor (LAWS.json names the family). -/

namespace Sys2Proof.Laws.HeaderRow

/-- The instruction has a row. -/
def Statement (i : Instr) : Prop :=
  ∃ r ∈ rows, r.selects (encodeHeader i) = true ∧ r.build (encodeHeader i) (encodeData i) = i

theorem itcCntlW (v : Word) : Statement (.itcCntlW v) :=
  ⟨rows[0], List.getElem_mem _, by simp only [encodeHeader]; decide,
    rfl⟩

theorem itcCntlR : Statement .itcCntlR :=
  ⟨rows[1], List.getElem_mem _, by simp only [encodeHeader]; decide,
    rfl⟩

theorem itcNimaskW (t : BitVec 6) : Statement (.itcNimaskW t) :=
  ⟨rows[2], List.getElem_mem _, by simp only [encodeHeader]; decide,
    congrArg Instr.itcNimaskW (dataThreshold_setWidth t)⟩

theorem itcNimaskR : Statement .itcNimaskR :=
  ⟨rows[3], List.getElem_mem _, by simp only [encodeHeader]; decide,
    rfl⟩

theorem itcEnableInt (n : Word) : Statement (.itcEnableInt n) :=
  ⟨rows[4], List.getElem_mem _, by simp only [encodeHeader]; decide,
    rfl⟩

theorem itcDisableInt (n : Word) : Statement (.itcDisableInt n) :=
  ⟨rows[5], List.getElem_mem _, by simp only [encodeHeader]; decide,
    rfl⟩

theorem itcIntenableW (m : Word) : Statement (.itcIntenableW m) :=
  ⟨rows[6], List.getElem_mem _, by simp only [encodeHeader]; decide,
    rfl⟩

theorem itcIntenableR : Statement .itcIntenableR :=
  ⟨rows[7], List.getElem_mem _, by simp only [encodeHeader]; decide,
    rfl⟩

theorem itcInttypeR : Statement .itcInttypeR :=
  ⟨rows[8], List.getElem_mem _, by simp only [encodeHeader]; decide,
    rfl⟩

theorem itcSetFast (n : Word) : Statement (.itcSetFast n) :=
  ⟨rows[9], List.getElem_mem _, by simp only [encodeHeader]; decide,
    rfl⟩

theorem itcSetNormal (n : Word) : Statement (.itcSetNormal n) :=
  ⟨rows[10], List.getElem_mem _, by simp only [encodeHeader]; decide,
    rfl⟩

theorem itcNivectorR : Statement .itcNivectorR :=
  ⟨rows[11], List.getElem_mem _, by simp only [encodeHeader]; decide,
    rfl⟩

theorem itcFivectorR : Statement .itcFivectorR :=
  ⟨rows[12], List.getElem_mem _, by simp only [encodeHeader]; decide,
    rfl⟩

theorem itcIntsrcR : Statement .itcIntsrcR :=
  ⟨rows[13], List.getElem_mem _, by simp only [encodeHeader]; decide,
    rfl⟩

theorem itcIntfrcW (m : Word) : Statement (.itcIntfrcW m) :=
  ⟨rows[14], List.getElem_mem _, by simp only [encodeHeader]; decide,
    rfl⟩

theorem itcIntfrcR : Statement .itcIntfrcR :=
  ⟨rows[15], List.getElem_mem _, by simp only [encodeHeader]; decide,
    rfl⟩

theorem itcForceInt (n : Word) : Statement (.itcForceInt n) :=
  ⟨rows[16], List.getElem_mem _, by simp only [encodeHeader]; decide,
    rfl⟩

theorem itcUnforceInt (n : Word) : Statement (.itcUnforceInt n) :=
  ⟨rows[17], List.getElem_mem _, by simp only [encodeHeader]; decide,
    rfl⟩

theorem itcNipendR : Statement .itcNipendR :=
  ⟨rows[18], List.getElem_mem _, by simp only [encodeHeader]; decide,
    rfl⟩

theorem itcFipendR : Statement .itcFipendR :=
  ⟨rows[19], List.getElem_mem _, by simp only [encodeHeader]; decide,
    rfl⟩

theorem itcIntsaveR : Statement .itcIntsaveR :=
  ⟨rows[20], List.getElem_mem _, by simp only [encodeHeader]; decide,
    rfl⟩

theorem itcDisableInts : Statement .itcDisableInts :=
  ⟨rows[21], List.getElem_mem _, by simp only [encodeHeader]; decide,
    rfl⟩

theorem itcRestoreInts : Statement .itcRestoreInts :=
  ⟨rows[22], List.getElem_mem _, by simp only [encodeHeader]; decide,
    rfl⟩

theorem itcVecvalidR : Statement .itcVecvalidR :=
  ⟨rows[23], List.getElem_mem _, by simp only [encodeHeader]; decide,
    rfl⟩

theorem itcClearHandler (n : Word) : Statement (.itcClearHandler n) :=
  ⟨rows[24], List.getElem_mem _, by simp only [encodeHeader]; decide,
    rfl⟩

theorem itcSetHandler (x : BitVec 5) (t : Word) : Statement (.itcSetHandler x t) :=
  ⟨rows[25], List.getElem_mem _, by simp only [encodeHeader]; revert x; decide,
    congrArg (Instr.itcSetHandler · t) (source_vecHeader 1 x)⟩

theorem itcVectR (x : BitVec 5) : Statement (.itcVectR x) :=
  ⟨rows[26], List.getElem_mem _, by simp only [encodeHeader]; revert x; decide,
    congrArg Instr.itcVectR (source_vecHeader 0 x)⟩

theorem rbInit (i : BitVec 7) (k : Word) : Statement (.rbInit i k) :=
  ⟨rows[27], List.getElem_mem _, by simp only [encodeHeader]; revert i; decide,
    congrArg (Instr.rbInit · k) (ring_rbHeader 1 i _)⟩

theorem rbWrite (i : BitVec 7) (b : Byte) : Statement (.rbWrite i b) :=
  ⟨rows[28], List.getElem_mem _, by simp only [encodeHeader]; revert i; decide,
    congrArg₂ Instr.rbWrite (ring_rbHeader 1 i _) (dataByte_setWidth b)⟩

theorem rbRead (i : BitVec 7) : Statement (.rbRead i) :=
  ⟨rows[29], List.getElem_mem _, by simp only [encodeHeader]; revert i; decide,
    congrArg Instr.rbRead (ring_rbHeader 0 i _)⟩

theorem rbWstat (i : BitVec 7) : Statement (.rbWstat i) :=
  ⟨rows[30], List.getElem_mem _, by simp only [encodeHeader]; revert i; decide,
    congrArg Instr.rbWstat (ring_rbHeader 0 i _)⟩

theorem rbRstat (i : BitVec 7) : Statement (.rbRstat i) :=
  ⟨rows[31], List.getElem_mem _, by simp only [encodeHeader]; revert i; decide,
    congrArg Instr.rbRstat (ring_rbHeader 0 i _)⟩

theorem rbCap (i : BitVec 7) : Statement (.rbCap i) :=
  ⟨rows[32], List.getElem_mem _, by simp only [encodeHeader]; revert i; decide,
    congrArg Instr.rbCap (ring_rbHeader 0 i _)⟩

theorem rbWptr (i : BitVec 7) : Statement (.rbWptr i) :=
  ⟨rows[33], List.getElem_mem _, by simp only [encodeHeader]; revert i; decide,
    congrArg Instr.rbWptr (ring_rbHeader 0 i _)⟩

theorem rbRptr (i : BitVec 7) : Statement (.rbRptr i) :=
  ⟨rows[34], List.getElem_mem _, by simp only [encodeHeader]; revert i; decide,
    congrArg Instr.rbRptr (ring_rbHeader 0 i _)⟩

theorem uartConW (p : BitVec 2) (v : Word) : Statement (.uartConW p v) :=
  ⟨rows[35], List.getElem_mem _, by simp only [encodeHeader]; revert p; decide,
    congrArg (Instr.uartConW · v) (port_uartHeader 1 p _)⟩

theorem uartConR (p : BitVec 2) : Statement (.uartConR p) :=
  ⟨rows[36], List.getElem_mem _, by simp only [encodeHeader]; revert p; decide,
    congrArg Instr.uartConR (port_uartHeader 0 p _)⟩

theorem uartStatR (p : BitVec 2) : Statement (.uartStatR p) :=
  ⟨rows[37], List.getElem_mem _, by simp only [encodeHeader]; revert p; decide,
    congrArg Instr.uartStatR (port_uartHeader 0 p _)⟩

theorem uartDataW (p : BitVec 2) (b : Byte) : Statement (.uartDataW p b) :=
  ⟨rows[38], List.getElem_mem _, by simp only [encodeHeader]; revert p; decide,
    congrArg₂ Instr.uartDataW (port_uartHeader 1 p _) (dataByte_setWidth b)⟩

theorem uartDataR (p : BitVec 2) : Statement (.uartDataR p) :=
  ⟨rows[39], List.getElem_mem _, by simp only [encodeHeader]; revert p; decide,
    congrArg Instr.uartDataR (port_uartHeader 0 p _)⟩

theorem uartRxconW (p : BitVec 2) (v : Word) : Statement (.uartRxconW p v) :=
  ⟨rows[40], List.getElem_mem _, by simp only [encodeHeader]; revert p; decide,
    congrArg (Instr.uartRxconW · v) (port_uartHeader 1 p _)⟩

theorem uartRxconR (p : BitVec 2) : Statement (.uartRxconR p) :=
  ⟨rows[41], List.getElem_mem _, by simp only [encodeHeader]; revert p; decide,
    congrArg Instr.uartRxconR (port_uartHeader 0 p _)⟩

theorem uartTxconW (p : BitVec 2) (v : Word) : Statement (.uartTxconW p v) :=
  ⟨rows[42], List.getElem_mem _, by simp only [encodeHeader]; revert p; decide,
    congrArg (Instr.uartTxconW · v) (port_uartHeader 1 p _)⟩

theorem uartTxconR (p : BitVec 2) : Statement (.uartTxconR p) :=
  ⟨rows[43], List.getElem_mem _, by simp only [encodeHeader]; revert p; decide,
    congrArg Instr.uartTxconR (port_uartHeader 0 p _)⟩

theorem uartBrW (p : BitVec 2) (v : Word) : Statement (.uartBrW p v) :=
  ⟨rows[44], List.getElem_mem _, by simp only [encodeHeader]; revert p; decide,
    congrArg (Instr.uartBrW · v) (port_uartHeader 1 p _)⟩

theorem uartBrR (p : BitVec 2) : Statement (.uartBrR p) :=
  ⟨rows[45], List.getElem_mem _, by simp only [encodeHeader]; revert p; decide,
    congrArg Instr.uartBrR (port_uartHeader 0 p _)⟩

theorem uartCbrxW (p : BitVec 2) (t : Word) : Statement (.uartCbrxW p t) :=
  ⟨rows[46], List.getElem_mem _, by simp only [encodeHeader]; revert p; decide,
    congrArg (Instr.uartCbrxW · t) (port_uartHeader 1 p _)⟩

theorem uartCbrxR (p : BitVec 2) : Statement (.uartCbrxR p) :=
  ⟨rows[47], List.getElem_mem _, by simp only [encodeHeader]; revert p; decide,
    congrArg Instr.uartCbrxR (port_uartHeader 0 p _)⟩

theorem uartCbtxW (p : BitVec 2) (t : Word) : Statement (.uartCbtxW p t) :=
  ⟨rows[48], List.getElem_mem _, by simp only [encodeHeader]; revert p; decide,
    congrArg (Instr.uartCbtxW · t) (port_uartHeader 1 p _)⟩

theorem uartCbtxR (p : BitVec 2) : Statement (.uartCbtxR p) :=
  ⟨rows[49], List.getElem_mem _, by simp only [encodeHeader]; revert p; decide,
    congrArg Instr.uartCbtxR (port_uartHeader 0 p _)⟩

theorem uartCbvalidR (p : BitVec 2) : Statement (.uartCbvalidR p) :=
  ⟨rows[50], List.getElem_mem _, by simp only [encodeHeader]; revert p; decide,
    congrArg Instr.uartCbvalidR (port_uartHeader 0 p _)⟩

theorem uartCbclr (p : BitVec 2) (d : BitVec 2) : Statement (.uartCbclr p d) :=
  ⟨rows[51], List.getElem_mem _, by simp only [encodeHeader]; revert p; decide,
    congrArg₂ Instr.uartCbclr (port_uartHeader 1 p _) (dataDirections_setWidth d)⟩

theorem uartMaskset (p : BitVec 2) (d : BitVec 2) : Statement (.uartMaskset p d) :=
  ⟨rows[52], List.getElem_mem _, by simp only [encodeHeader]; revert p; decide,
    congrArg₂ Instr.uartMaskset (port_uartHeader 1 p _) (dataDirections_setWidth d)⟩

theorem uartMaskclr (p : BitVec 2) (d : BitVec 2) : Statement (.uartMaskclr p d) :=
  ⟨rows[53], List.getElem_mem _, by simp only [encodeHeader]; revert p; decide,
    congrArg₂ Instr.uartMaskclr (port_uartHeader 1 p _) (dataDirections_setWidth d)⟩

end Sys2Proof.Laws.HeaderRow
end

