-- ==== Sys2Proof/Tests/Slice0.lean ====
section
/-! SUPPORT. Tests. Decoding: the word of every primitive written out from the tables of spec/30_encoding.md R84 to R86 (with
the vectors V-E1 to V-E16 of spec/95_test_vectors.md). Meanings: the vectors V-RB, V-ITC, V-U, V-B, V-TX, V-RX, V-DRV of that
file; the vector stands in each comment. Witnesses: for every obligation with hypotheses a concrete state that meets them. -/

namespace Sys2Proof.Tests

open Sys2Proof.Machine

/-! ### What a test looks at -/

/-- A next state of which the test holds. -/
def leaves (o : Answered) (test : State → Bool) : Bool :=
  match o with
  | .next t => test t
  | .fault _ => false
  | .refused _ => false

/-- A read that answers this word. -/
def answers (o : Answered) (v : Word) : Bool := leaves o fun t => t.rdata == v

/-- This fault. -/
def faults (o : Answered) (f : Fault) : Bool :=
  match o with
  | .next _ => false
  | .fault g => g == f
  | .refused _ => false

/-! ### WellFormed: the ill-formed term of each index check is refused -/

/-- Parameters with eight sources. -/
def eight : Params := { Params.default with nsrc := 8 }

theorem test_wf_refuses_source : (Instr.itcSetHandler 8 0).wf eight = false ∧ (Instr.itcVectR 31).wf eight = false ∧
    (Instr.itcVectR 7).wf eight = true := by decide

theorem test_wf_refuses_instance : (Instr.rbRead 4).wf Params.default = false ∧
    (Instr.rbRead 3).wf Params.default = true := by decide

theorem test_wf_refuses_port : (Instr.uartConR 2).wf Params.default = false ∧
    (Instr.uartConR 1).wf Params.default = true := by decide

/-! ### Decoding: one written-out word for every constructor -/

theorem test_decode_itcCntlW : decodeTableWord 48 0x800000000003 = some (.itcCntlW 3) := by decide
theorem test_decode_itcCntlR : decodeTableWord 48 0x000000000000 = some (.itcCntlR) := by decide
theorem test_decode_itcNimaskW : decodeTableWord 48 0x8004000000C6 = some (.itcNimaskW 6) := by decide
theorem test_decode_itcNimaskR : decodeTableWord 48 0x000400000000 = some (.itcNimaskR) := by decide
theorem test_decode_itcEnableInt : decodeTableWord 48 0x800800000005 = some (.itcEnableInt 5) := by decide
theorem test_decode_itcDisableInt : decodeTableWord 48 0x800C00000001 = some (.itcDisableInt 1) := by decide
theorem test_decode_itcIntenableW : decodeTableWord 48 0x801000000028 = some (.itcIntenableW 0x28) := by decide
theorem test_decode_itcIntenableR : decodeTableWord 48 0x001000000000 = some (.itcIntenableR) := by decide
theorem test_decode_itcInttypeR : decodeTableWord 48 0x001400000000 = some (.itcInttypeR) := by decide
theorem test_decode_itcSetFast : decodeTableWord 48 0x801800000003 = some (.itcSetFast 3) := by decide
theorem test_decode_itcSetNormal : decodeTableWord 48 0x801C00000003 = some (.itcSetNormal 3) := by decide
theorem test_decode_itcNivectorR : decodeTableWord 48 0x002000000000 = some (.itcNivectorR) := by decide
theorem test_decode_itcFivectorR : decodeTableWord 48 0x002400000000 = some (.itcFivectorR) := by decide
theorem test_decode_itcIntsrcR : decodeTableWord 48 0x002800000000 = some (.itcIntsrcR) := by decide
theorem test_decode_itcIntfrcW : decodeTableWord 48 0x802C00000000 = some (.itcIntfrcW 0) := by decide
theorem test_decode_itcIntfrcR : decodeTableWord 48 0x002C00000000 = some (.itcIntfrcR) := by decide
theorem test_decode_itcForceInt : decodeTableWord 48 0x803000000005 = some (.itcForceInt 5) := by decide
theorem test_decode_itcUnforceInt : decodeTableWord 48 0x803400000005 = some (.itcUnforceInt 5) := by decide
theorem test_decode_itcNipendR : decodeTableWord 48 0x003800000000 = some (.itcNipendR) := by decide
theorem test_decode_itcFipendR : decodeTableWord 48 0x003C00000000 = some (.itcFipendR) := by decide
theorem test_decode_itcIntsaveR : decodeTableWord 48 0x004000000000 = some (.itcIntsaveR) := by decide
theorem test_decode_itcDisableInts : decodeTableWord 48 0x804400000007 = some (.itcDisableInts) := by decide
theorem test_decode_itcRestoreInts : decodeTableWord 48 0x804800000000 = some (.itcRestoreInts) := by decide
theorem test_decode_itcVecvalidR : decodeTableWord 48 0x004C00000000 = some (.itcVecvalidR) := by decide
theorem test_decode_itcClearHandler : decodeTableWord 48 0x805000000004 = some (.itcClearHandler 4) := by decide
theorem test_decode_itcSetHandler : decodeTableWord 48 0x810C00003000 = some (.itcSetHandler 3 0x3000) := by decide
theorem test_decode_itcVectR : decodeTableWord 48 0x011400000000 = some (.itcVectR 5) := by decide
theorem test_decode_rbInit : decodeTableWord 48 0x902000000008 = some (.rbInit 1 8) := by decide
theorem test_decode_rbWrite : decodeTableWord 48 0x90240000FF41 = some (.rbWrite 1 0x41) := by decide
theorem test_decode_rbRead : decodeTableWord 48 0x102800000000 = some (.rbRead 1) := by decide
theorem test_decode_rbWstat : decodeTableWord 48 0x106C00000000 = some (.rbWstat 3) := by decide
theorem test_decode_rbRstat : decodeTableWord 48 0x105000000000 = some (.rbRstat 2) := by decide
theorem test_decode_rbCap : decodeTableWord 48 0x103400000000 = some (.rbCap 1) := by decide
theorem test_decode_rbWptr : decodeTableWord 48 0x101800000000 = some (.rbWptr 0) := by decide
theorem test_decode_rbRptr : decodeTableWord 48 0x103C00000000 = some (.rbRptr 1) := by decide
theorem test_decode_uartConW : decodeTableWord 48 0xC00000000303 = some (.uartConW 0 0x303) := by decide
theorem test_decode_uartConR : decodeTableWord 48 0x500000000000 = some (.uartConR 1) := by decide
theorem test_decode_uartStatR : decodeTableWord 48 0x400400000000 = some (.uartStatR 0) := by decide
theorem test_decode_uartDataW : decodeTableWord 48 0xD00800000055 = some (.uartDataW 1 0x55) := by decide
theorem test_decode_uartDataR : decodeTableWord 48 0x400800000000 = some (.uartDataR 0) := by decide
theorem test_decode_uartRxconW : decodeTableWord 48 0xC00C00000100 = some (.uartRxconW 0 0x100) := by decide
theorem test_decode_uartRxconR : decodeTableWord 48 0x500C00000000 = some (.uartRxconR 1) := by decide
theorem test_decode_uartTxconW : decodeTableWord 48 0xC01000001F00 = some (.uartTxconW 0 0x1F00) := by decide
theorem test_decode_uartTxconR : decodeTableWord 48 0x401000000000 = some (.uartTxconR 0) := by decide
theorem test_decode_uartBrW : decodeTableWord 48 0xC01403002710 = some (.uartBrW 0 0x03002710) := by decide
theorem test_decode_uartBrR : decodeTableWord 48 0x501400000000 = some (.uartBrR 1) := by decide
theorem test_decode_uartCbrxW : decodeTableWord 48 0xC01800002000 = some (.uartCbrxW 0 0x2000) := by decide
theorem test_decode_uartCbrxR : decodeTableWord 48 0x401800000000 = some (.uartCbrxR 0) := by decide
theorem test_decode_uartCbtxW : decodeTableWord 48 0xD01C00002000 = some (.uartCbtxW 1 0x2000) := by decide
theorem test_decode_uartCbtxR : decodeTableWord 48 0x401C00000000 = some (.uartCbtxR 0) := by decide
theorem test_decode_uartCbvalidR : decodeTableWord 48 0x402000000000 = some (.uartCbvalidR 0) := by decide
theorem test_decode_uartCbclr : decodeTableWord 48 0xC02400000003 = some (.uartCbclr 0 3) := by decide
theorem test_decode_uartMaskset : decodeTableWord 48 0xC02800000001 = some (.uartMaskset 0 1) := by decide
theorem test_decode_uartMaskclr : decodeTableWord 48 0xC02C00000002 = some (.uartMaskclr 0 2) := by decide

/-! ### Decoding: words that are no operation of the block -/

/-- V-E8. -/
theorem test_decode_refuses_reserved_unit : decodeTableWord 48 0xA00000000000 = none := by decide

/-- V-E9. -/
theorem test_decode_refuses_absent_port : decodeTableWord 48 0xE00000000300 = none := by decide

/-- V-E10. -/
theorem test_decode_refuses_unaligned_offset : decodeTableWord 48 0x800900000005 = none := by decide

/-- V-E11. -/
theorem test_decode_refuses_read_of_write_only : decodeTableWord 48 0x000800000000 = none := by decide

/-- V-E12. -/
theorem test_decode_refuses_write_of_read_only : decodeTableWord 48 0x801400000001 = none := by decide

/-- V-E13. -/
theorem test_decode_refuses_absent_instance : decodeTableWord 48 0x908400000041 = none := by decide

/-- V-E14. -/
theorem test_decode_refuses_beyond_the_handler_table : decodeTableWord 48 0x818000000000 = none := by decide

/-- V-E16. -/
theorem test_decode_refuses_write_of_status : decodeTableWord 48 0xC00400000000 = none := by decide

/-- V-E15: the word decodes, its operand faults. -/
theorem test_source_32_faults : decodeTableWord 48 0x800800000020 = some (.itcEnableInt 32) ∧
    faults (exec (.itcEnableInt 32) State.reset) .badSource = true := by decide

/-- The four masks of the table, as 48-bit numbers (R82). -/
theorem test_masks_of_the_formats : rows.map (fun r => (commandWord r.mask 0).toNat) =
    List.replicate 25 0xFFFF00000000 ++ List.replicate 2 0xFF8300000000 ++ List.replicate 8 0xF01F00000000 ++
      List.replicate 19 0xCFFF00000000 := by decide

/-! ### ITC -/

/-- The start of the V-ITC vectors after V-ITC1: sources 3 and 5 registered, enabled and forced. -/
def itcState : State :=
  State.reset.setItc { Itc.reset with
    nae := true, fae := true, intenable := 0x28, intfrc := 0x28, vecvalid := 0x28
    vect := (Itc.reset.vect.set 3 0x3000).set 5 0x5000 }

/-- V-ITC6: then `ITC.SET_FAST 3`. -/
def fastState : State := itcState.setItc { itcState.itc with inttype := 0x08 }

/-- R134 and V-ITC12: with the normal arbiter off the request falls, the vector stays. -/
theorem test_cntl_write :
    leaves (exec (.itcCntlW 2) itcState) (fun t => !irqO t && t.itc.fae && nivector t == some 5) = true := by decide

/-- R135. -/
theorem test_cntl_read :
    answers (exec .itcCntlR itcState) 3 = true := by decide

/-- V-ITC2: above both sources nothing passes. -/
theorem test_nimask_write :
    leaves (exec (.itcNimaskW 6) itcState) (fun t => answers (exec .itcNivectorR t) 0x80000000 && !irqO t && nipend t == 0x28) = true := by decide

/-- V-ITC3: 3 is blocked, 5 passes. -/
theorem test_nimask_write_between :
    leaves (exec (.itcNimaskW 4) itcState) (fun t => answers (exec .itcNivectorR t) 5 && irqO t) = true := by decide

/-- R137 after V-ITC2. -/
theorem test_nimask_read :
    leaves (exec (.itcNimaskW 6) itcState) (fun t => answers (exec .itcNimaskR t) 6) = true := by decide

/-- R138: 0 becomes 2. -/
theorem test_enable_one :
    leaves (exec (.itcEnableInt 1) State.reset) (fun t => t.itc.intenable == 2) = true := by decide

/-- R139: the forced bit stays. -/
theorem test_disable_one :
    leaves (exec (.itcDisableInt 5) itcState) (fun t => t.itc.intenable == 0x08 && t.itc.intfrc == 0x28) = true := by decide

/-- R142 with eight sources. -/
theorem test_intenable_write_drops_absent_sources :
    leaves (exec (.itcIntenableW 0x1FF) (State.resetOf eight [] [])) (fun t => t.itc.intenable == 0xFF) = true := by decide

/-- R143. -/
theorem test_intenable_read :
    answers (exec .itcIntenableR itcState) 0x28 = true := by decide

/-- R144 in V-ITC6. -/
theorem test_inttype_read :
    answers (exec .itcInttypeR fastState) 0x08 = true := by decide

/-- V-ITC6: 3 is normal again. -/
theorem test_set_fast_replaces :
    leaves (exec (.itcSetFast 5) fastState) (fun t => t.itc.inttype == 0x20 && nipend t == 0x08 && fipend t == 0x20 && fivector t == some 5) = true := by decide

/-- V-ITC7: only the named bit. -/
theorem test_set_normal_clears_one :
    (leaves (exec (.itcSetNormal 5) fastState) (fun t => t.itc.inttype == 0x08) &&
      leaves (exec (.itcSetNormal 3) fastState) (fun t => t.itc.inttype == 0 && !fiqO t)) = true := by decide

/-- V-ITC1. -/
theorem test_nivector_read :
    (answers (exec .itcNivectorR itcState) 5 && irqO itcState && !fiqO itcState) = true := by decide

/-- V-ITC6. -/
theorem test_fivector_read :
    (answers (exec .itcFivectorR fastState) 3 && answers (exec .itcFivectorR itcState) 0x80000000) = true := by decide

/-- R147: a line of the environment, and the wired line of port 0, whose request is masked. -/
theorem test_intsrc_read :
    answers (exec .itcIntsrcR { State.reset with srcLines := 0x82 }) 0x80 = true := by decide

/-- R148. -/
theorem test_intfrc_write :
    leaves (exec (.itcIntfrcW 0) itcState) (fun t => t.itc.intfrc == 0 && !irqO t) = true := by decide

/-- V-ITC1. -/
theorem test_intfrc_read :
    answers (exec .itcIntfrcR itcState) 0x28 = true := by decide

/-- V-ITC5. -/
theorem test_force_of_a_disabled_source :
    leaves (exec (.itcForceInt 7) State.reset) (fun t => t.itc.intfrc == 0x80 && nipend t == 0) = true := by decide

/-- V-ITC4. -/
theorem test_unforce :
    leaves (exec (.itcUnforceInt 5) itcState) (fun t => answers (exec .itcNivectorR t) 3) = true := by decide

/-- V-ITC1 and V-ITC6. -/
theorem test_nipend_read :
    (answers (exec .itcNipendR itcState) 0x28 && answers (exec .itcNipendR fastState) 0x20) = true := by decide

/-- V-ITC6. -/
theorem test_fipend_read :
    answers (exec .itcFipendR fastState) 0x08 = true := by decide

/-- V-ITC8. -/
theorem test_disable_ints :
    leaves (exec .itcDisableInts itcState) (fun t => answers (exec .itcIntsaveR t) 0x28 && t.itc.intenable == 0 && nipend t == 0) = true := by decide

/-- V-ITC8: the snapshot is kept. -/
theorem test_restore_ints :
    leaves (exec .itcDisableInts itcState) (fun t => leaves (exec .itcRestoreInts t) (fun u => u.itc.intenable == 0x28 && u.itc.intsave == 0x28)) = true := by decide

/-- V-ITC start. -/
theorem test_vecvalid_read :
    answers (exec .itcVecvalidR itcState) 0x28 = true := by decide

/-- V-ITC10: `VECVALID` becomes 8. -/
theorem test_clear_handler :
    leaves (exec (.itcClearHandler 5) itcState) (fun t => t.itc.vecvalid == 0x08) = true := by decide

/-- R159: `VECT[1]`. -/
theorem test_set_handler :
    leaves (exec (.itcSetHandler 1 0x1000) State.reset) (fun t => t.vect 1 == 0x1000 && t.vect 2 == 0 && t.itc.vecvalid == 2) = true := by decide

/-- R160. -/
theorem test_vect_read :
    answers (exec (.itcVectR 5) itcState) 0x5000 = true := by decide

/-! ### RB bank -/

/-- V-RB2 after step 5: instance 1, capacity 4, full. -/
def ringState : State :=
  State.reset.setRing 1 { RB.reset 8 with
    k := 2, wbin := 4, mem := [(0, 0x10), (1, 0x11), (2, 0x12), (3, 0x13)] }

/-- V-RB2 after step 14: pointers 6 and 2, full again. -/
def wrappedState : State :=
  State.reset.setRing 1 { RB.reset 8 with
    k := 2, wbin := 6, rbin := 2, mem := [(0, 0x14), (1, 0x15), (2, 0x12), (3, 0x13)] }

/-- V-RB2 steps 1 to 3. -/
theorem test_ring_init :
    leaves (exec (.rbInit 1 2) ringState) (fun t => answers (exec (.rbWstat 1) t) 0x00040000 && answers (exec (.rbRstat 1) t) 1) = true := by decide

/-- V-RB4. -/
theorem test_ring_init_bad_capacity :
    faults (exec (.rbInit 1 9) State.reset) .badCapacity = true := by decide

/-- V-RB2 steps 9, 10 and 12: slot 0 again. -/
theorem test_ring_write :
    leaves (exec (.rbWrite 1 0x14) (ringState.setRing 1 { ringState.ring 1 with rbin := 2 })) (fun t =>
      (t.ring 1).wbin == 5 && (t.ring 1).mem == [(0, 0x14), (1, 0x11), (2, 0x12), (3, 0x13)]) = true := by decide

/-- V-RB3. -/
theorem test_ring_write_full :
    faults (exec (.rbWrite 1 0x99) ringState) .rbWriteFull = true := by decide

/-- V-RB2 step 9: the oldest byte, the slot is not erased. -/
theorem test_ring_read :
    leaves (exec (.rbRead 1) ringState) (fun t =>
      t.rdata == 0x10 && (t.ring 1).rbin == 1 && (t.ring 1).mem.length == 4) = true := by decide

/-- V-RB3. -/
theorem test_ring_read_empty :
    faults (exec (.rbRead 1) State.reset) .rbReadEmpty = true := by decide

/-- V-RB2 step 6 and V-RB1. -/
theorem test_ring_wstat :
    (answers (exec (.rbWstat 1) ringState) 1 && answers (exec (.rbWstat 1) State.reset) 0x01000000) = true := by decide

/-- V-RB2 step 7. -/
theorem test_ring_rstat :
    answers (exec (.rbRstat 1) ringState) 0x00040000 = true := by decide

/-- V-RB1 and R118. -/
theorem test_ring_cap :
    (answers (exec (.rbCap 1) State.reset) 0x00010008 && answers (exec (.rbCap 1) ringState) 0x402) = true := by decide

/-- V-RB2 steps 8 and 14. -/
theorem test_ring_wptr :
    (answers (exec (.rbWptr 1) ringState) 6 && answers (exec (.rbWptr 1) wrappedState) 5) = true := by decide

/-- V-RB2 step 11. -/
theorem test_ring_rptr :
    answers (exec (.rbRptr 1) wrappedState) 3 = true := by decide

/-- V-RB0. -/
theorem test_gray_table :
    (List.range 8).map (fun j => (bin2gray (BitVec.ofNat 3 j)).toNat) = [0, 1, 3, 2, 6, 7, 5, 4] ∧
    gray2bin (0b101 : BitVec 3) = 6 ∧ gray2bin (0b100 : BitVec 3) = 7 := by decide

/-! ### UART -/

/-- A state with port 0 replaced. -/
def portState (q : Port) : State := State.reset.setPort 0 q

/-- Port 0 after reset. -/
def port0 : Port := Port.reset 5 true true

/-- V-U9: two bytes visible in the receive FIFO. -/
def received : Port :=
  { port0 with hwrx := { RB.reset 5 with wbin := 2, rqW := 2, mem := [(0, 0x41), (1, 0x42)] } }

/-- V-U3: the transmit FIFO full in the writer's view. -/
def stuffed : Port := { port0 with hwtx := { RB.reset 5 with wbin := 32 } }

/-- R183 and V-U1: both engines on, masks set; clearing `TXE` cuts the frame. -/
theorem test_con_write :
    (leaves (exec (.uartConW 0 0x303) State.reset) (fun t => answers (exec (.uartConR 0) t) 0x303) &&
      leaves (exec (.uartConW 0 0x302) (portState { port0 with txe := true, txstate := .data, txdO := false, txbit := 5 }))
        (fun t => (t.port 0).txstate == .idle && (t.port 0).txdO && (t.port 0).txbit == 0)) = true := by decide

/-- V-U1. -/
theorem test_con_read :
    answers (exec (.uartConR 0) State.reset) 0x300 = true := by decide

/-- R185: one framing error, two bytes visible, `TXWM` 31. -/
theorem test_stat_read :
    leaves (exec (.uartStatR 0) (portState { received with fe := true, txwm := 31 })) (fun t =>
      t.rdata == 0xC1 && answers (exec (.uartStatR 0) t) 0xC0) = true := by decide

/-- V-U2: the bytes wait with the port disabled. -/
theorem test_data_write :
    leaves (exec (.uartDataW 0 0x41) (portState { port0 with txwm := 31 })) (fun t => leaves (exec (.uartDataW 0 0x42) t) (fun u =>
      answers (exec (.uartTxconR 0) u) 0x1F1E && answers (exec (.uartStatR 0) u) 0)) = true := by decide

/-- V-U3. -/
theorem test_data_write_without_space :
    leaves (exec (.uartDataW 0 0x41) (portState stuffed)) (fun t =>
      answers (exec (.uartStatR 0) t) 0x10 && (t.port 0).hwtx == stuffed.hwtx) = true := by decide

/-- V-U9. -/
theorem test_data_read :
    leaves (exec (.uartDataR 0) (portState received)) (fun t => t.rdata == 0x41 && (t.port 0).rxlevel t.params == 1) = true := by decide

/-- V-U4: the byte is any, `UE` is set. -/
theorem test_data_read_underrun :
    leaves (exec (.uartDataR 0) State.reset) (fun t => answers (exec (.uartStatR 0) t) 0x48) = true := by decide

/-- R188: only bits 15 to 8 count. -/
theorem test_rxcon_write :
    leaves (exec (.uartRxconW 0 0xFF02FF) State.reset) (fun t => (t.port 0).rxwm == 2) = true := by decide

/-- V-U9. -/
theorem test_rxcon_read :
    answers (exec (.uartRxconR 0) (portState received)) 0x102 = true := by decide

/-- R190. -/
theorem test_txcon_write :
    leaves (exec (.uartTxconW 0 0x1F00) State.reset) (fun t => answers (exec (.uartTxconR 0) t) 0x1F20) = true := by decide

/-- V-U1. -/
theorem test_txcon_read :
    answers (exec (.uartTxconR 0) State.reset) 0x120 = true := by decide

/-- R192: `INC` 768, `MOD` 10000. -/
theorem test_br_write :
    leaves (exec (.uartBrW 0 0x03002710) State.reset) (fun t => (t.port 0).brInc == 768 && (t.port 0).brMod == 10000) = true := by decide

/-- V-U7 and V-U8. -/
theorem test_br_write_faults :
    (faults (exec (.uartBrW 0 0x03002710) (portState { port0 with txe := true, rxe := true })) .baudWhileEnabled &&
      faults (exec (.uartBrW 0 0x27110010) State.reset) .badDivisor) = true := by decide

/-- R193. -/
theorem test_br_read :
    answers (exec (.uartBrR 0) (portState { port0 with brInc := 768, brMod := 10000 })) 0x03002710 = true := by decide

/-- V-U6. -/
theorem test_cbrx_write :
    leaves (exec (.uartCbrxW 0 0x2000) State.reset) (fun t => answers (exec (.uartCbvalidR 0) t) 2 && answers (exec (.uartCbrxR 0) t) 0x2000) = true := by decide

/-- R196, R197. -/
theorem test_cbtx_write :
    leaves (exec (.uartCbtxW 1 0x2001) State.reset) (fun t => answers (exec (.uartCbvalidR 1) t) 1 && answers (exec (.uartCbtxR 1) t) 0x2001) = true := by decide

/-- V-U6. -/
theorem test_cbclr :
    leaves (exec (.uartCbclr 0 2) (portState { port0 with cbvalidRx := true, cbvalidTx := true })) (fun t =>
      answers (exec (.uartCbvalidR 0) t) 1) = true := by decide

/-- V-U5. -/
theorem test_maskset :
    leaves (exec (.uartMaskset 0 1) (portState { port0 with mtxr := false, mrxr := false })) (fun t =>
      answers (exec (.uartConR 0) t) 0x100 && !(t.port 0).irq t.params) = true := by decide

/-- V-U5. -/
theorem test_maskclr :
    leaves (exec (.uartMaskclr 0 3) State.reset) (fun t =>
      answers (exec (.uartConR 0) t) 0 && (t.port 0).irq t.params && answers (exec .itcIntsrcR t) 2) = true := by decide

/-! ### Engines, sequences and the step -/

/-- R222. -/
theorem test_parity :
    parity true 0x41 = false ∧ parity false 0x41 = true ∧ parity true 0x07 = true ∧ parity false 0x07 = false := by decide

/-- V-TX1: `0x41` without and with even parity. -/
theorem test_frame_levels :
    frameLevels false false 0x41 = [false, true, false, false, false, false, false, true, false, true] ∧
    frameLevels true true 0x41 = [false, true, false, false, false, false, false, true, false, false, true] := by decide

/-- V-B1: the last cycle before the first tick, and the tick. -/
theorem test_baud_tick :
    ({ port0 with txe := true, brInc := 768, brMod := 10000, bacc := 9216 } : Port).ticks = false ∧
    ({ port0 with txe := true, brInc := 768, brMod := 10000, bacc := 9984 } : Port).baccNext = 752 := by decide

/-- V-B2. -/
theorem test_baud_increment :
    (baudIncrement { Params.default with fClk := some 24000000 } 115200 = 768 ∧
      baudIncrement { Params.default with fClk := some 24000000 } 1600000 = 10666) := by decide

/-- V-RB5: the engine loads once the copy has moved. -/
theorem test_transmit_load :
    ((txTick Params.default 0 { port0 with txe := true, hwtx := { (RB.reset 5).push 0x41 with rqW := 1 } }).txstate == .start &&
      (txTick Params.default 0 { port0 with txe := true, hwtx := (RB.reset 5).push 0x41 }).txstate == .idle) = true := by decide

/-- R229: a low stop bit, the FIFO not full. -/
theorem test_receive_deliver :
    (rxTick Params.default { port0 with rxe := true, rxstate := .stop, rxtick := 7, rxsr := 0x55, rxdS := false }) =
      { port0 with rxe := true, rxstate := .idle, rxtick := 8, rxsr := 0x55, rxdS := false, fe := true,
                   hwrx := (RB.reset 5).push 0x55 } := by decide

/-- R80: the word is what the next step performs, from reset. -/
theorem test_fetched_word_runs_first :
    leaves (step (State.reset.withFetchWord 48 0x800800000005)) (fun t => t.itc.intenable == 0x20) = true := by decide

/-- Log 10: with no program placed the mainline stays where it is. -/
theorem test_reset_host_idles :
    leaves (step State.reset) (fun t => t == State.reset) = true := by decide

/-! ### Witnesses: encoding and the step -/

/-- The host with this one statement next. -/
def hostAt (s : State) (st : Stmt) : State :=
  { s with host := { s.host with running := Context.start .mainline [{ stmt := st, shut := false }] } }

/-- A transaction of literal header and data. -/
def busStmt (h d : Word) : Stmt := .bus (some 3) (.lit h) (.lit d)

theorem witness_decode_of_encode : (Instr.itcSetHandler 31 0xFFFFFFFF).wf Params.default = true ∧
    (Instr.rbWrite 3 0xFF).wf Params.default = true ∧ (Instr.uartMaskclr 1 3).wf Params.default = true := by decide

theorem witness_decoded_word : decode Params.default 0x103C00001234 = .ok (.rbRptr 1) := by rfl

theorem witness_rows : (⟨"ITC.CNTL.W", 0xFFFF, 0x8000, fun _ d => .itcCntlW d⟩ : Row) ∈ rows ∧
    (⟨"ITC.CNTL.W", 0xFFFF, 0x8000, fun _ d => .itcCntlW d⟩ : Row).selects 0x8000 = true :=
  ⟨List.mem_of_getElem? (i := 0) rfl, by decide⟩

theorem witness_step_of_transaction :
    (hostAt ringState (busStmt 0x1028 0)).agenda = [] ∧
    (hostAt ringState (busStmt 0x1028 0)).act.prog[(hostAt ringState (busStmt 0x1028 0)).act.pos]? =
      some { stmt := .bus (some 3) (.lit 0x1028) (.lit 0), shut := false } ∧
    evalExpr (hostAt ringState (busStmt 0x1028 0)).act.temps (.lit 0x1028) = some 0x1028 ∧
    evalExpr (hostAt ringState (busStmt 0x1028 0)).act.temps (.lit 0) = some 0 ∧
    decode (hostAt ringState (busStmt 0x1028 0)).params (busWord 0x1028 0) = .ok (.rbRead 1) :=
  ⟨by decide, by decide, by decide, by decide, rfl⟩

theorem witness_step_with_host_on_the_agenda :
    ({ hostAt ringState (busStmt 0x1028 0) with agenda := [.host, .uclk 0] } : State).agenda =
      .host :: ({ hostAt ringState (busStmt 0x1028 0) with agenda := [.uclk 0] } : State).agenda := by decide

/-- A transaction whose data reads temporary 5, which nothing has assigned. -/
def reckless : State := hostAt ringState (.bus none (.lit 0x9024) (.tmp 5))

theorem witness_step_of_unwritten_temporary : reckless.agenda = [] ∧
    reckless.act.prog[reckless.act.pos]? = some { stmt := .bus none (.lit 0x9024) (.tmp 5), shut := false } ∧
    evalExpr reckless.act.temps (.tmp 5) = none ∧ faults (step reckless) .unwrittenTemporary = true := by decide

theorem witness_fetched_word : (Instr.uartCbclr 1 3).wf State.reset.params = true := by decide

/-- The host about to write to ring instance 4, which does not exist. -/
def straying : State := hostAt State.reset (busStmt 0x9084 0x41)

theorem straying_is_unmapped : ¬ Accessible straying.params ((0x9084 : Word).getLsbD 15)
    ((0x9084 : Word).extractLsb' 12 3).toNat ((0x9084 : Word).extractLsb' 0 12).toNat := by
  unfold Accessible
  rw [show straying.params.nports = 2 from rfl]
  simp

theorem witness_unmapped_access :
    straying.agenda = [] ∧
    straying.act.prog[straying.act.pos]? = some { stmt := .bus (some 3) (.lit 0x9084) (.lit 0x41), shut := false } ∧
    evalExpr straying.act.temps (.lit 0x9084) = some 0x9084 ∧ evalExpr straying.act.temps (.lit 0x41) = some 0x41 ∧
    ¬ Accessible straying.params ((0x9084 : Word).getLsbD 15) ((0x9084 : Word).extractLsb' 12 3).toNat
      ((0x9084 : Word).extractLsb' 0 12).toNat :=
  ⟨by decide, by decide, by decide, by decide, straying_is_unmapped⟩

theorem witness_accessible : Accessible Params.default true 1 0x64 := .inr (.inr (.inl (by decide)))

theorem witness_absent_index : (Instr.rbRead 4).wf State.reset.params = false := by decide

/-! ### Witnesses: the ITC -/

theorem witness_source_out_of_range : State.reset.params.nsrc ≤ (32 : Word).toNat := by decide

theorem witness_source_in_range : (31 : Word).toNat < itcState.params.nsrc := by decide

theorem witness_pending_views : itcState.params.wf ∧ (0 : Fin 4).val < itcState.params.nports ∧
    (∀ p : Fin 4, p.val < itcState.params.nports → (itcState.params.uartSrc[p.val]).toNat ≠ 31) := by decide

theorem witness_no_source_passes : (∀ k < 32, passes State.reset k = false) ∧
    ∀ k < 32, (fipend State.reset).getLsbD k = false := by decide

theorem witness_highest_source : (5 < 32 ∧ passes itcState 5 = true ∧ ∀ j < 32, 5 < j → passes itcState j = false) ∧
    passes (itcState.setItc { itcState.itc with intenable := 0x80000000, intfrc := 0x80000000 }) 31 = true := by decide

theorem witness_fast_source : 3 < 32 ∧ (fipend fastState).getLsbD 3 = true ∧
    ∀ j < 32, 3 < j → (fipend fastState).getLsbD j = false := by decide

theorem witness_handler_slot : (31 : BitVec 5).toNat < itcState.params.nsrc ∧
    itcState.itc.vecvalid.getLsbD (5 : BitVec 5).toNat = true ∧
    itcState.itc.vecvalid.getLsbD (31 : BitVec 5).toNat = false ∧
    (State.resetOf eight [] []).params.nsrc ≤ (8 : BitVec 5).toNat ∧
    (State.resetOf eight [] []).params.nsrc ≤ (8 : Word).toNat := by decide

theorem witness_itc_enables_writers :
    leaves (exec (.itcEnableInt 9) itcState) (fun t => t.itc.intenable != itcState.itc.intenable) = true ∧
    leaves (exec (.itcIntenableW 0) itcState) (fun t => t.itc.intenable != itcState.itc.intenable) = true ∧
    leaves (exec .itcDisableInts itcState) (fun t => t.itc.intenable != itcState.itc.intenable) = true ∧
    leaves (exec (.itcForceInt 9) itcState) (fun t => t.itc.intfrc != itcState.itc.intfrc) = true ∧
    leaves (exec (.itcIntfrcW 0x200) itcState) (fun t => t.itc.intfrc != itcState.itc.intfrc) = true := by decide

theorem witness_itc_writers :
    leaves (exec (.itcSetFast 5) fastState) (fun t => t.itc.inttype != fastState.itc.inttype) = true ∧
    leaves (exec .itcDisableInts itcState) (fun t => t.itc.intsave != itcState.itc.intsave) = true ∧
    leaves (exec (.itcNimaskW 6) itcState) (fun t => t.itc.prithr != itcState.itc.prithr) = true ∧
    leaves (exec (.itcCntlW 1) itcState) (fun t => t.itc.fae != itcState.itc.fae) = true ∧
    leaves (exec (.itcSetHandler 3 7) itcState) (fun t => t.itc.vect != itcState.itc.vect) = true ∧
    leaves (exec (.itcSetHandler 4 7) itcState) (fun t => t.itc.vecvalid != itcState.itc.vecvalid) = true ∧
    leaves (exec (.itcClearHandler 3) itcState) (fun t => t.itc.vecvalid != itcState.itc.vecvalid) = true := by decide

theorem witness_primitive_leaves_host : exec (.rbWstat 0) State.reset = .next (answer State.reset 0x01000000) := by rfl

/-! ### Witnesses: rings -/

theorem witness_ring_init : ringState.params.wf ∧ (3 : BitVec 7).toNat < 2 * ringState.params.nports ∧
    (8 : Word).toNat ≤ ringState.params.ringAw ∧ ringState.params.ringAw < (9 : Word).toNat ∧
    2 * ringState.params.nports ≤ (4 : BitVec 7).toNat := by decide

/-- A ring with one free slot. -/
def roomyState : State := ringState.setRing 1 { ringState.ring 1 with rbin := 1 }

theorem witness_ring_write : roomyState.params.wf ∧ (1 : BitVec 7).toNat < 2 * roomyState.params.nports ∧
    (roomyState.ring (ringIndex 1)).Inv roomyState.params.ringAw roomyState.params.syncRing ∧
    (roomyState.ring (ringIndex 1)).full roomyState.params.syncRing = false ∧
    (ringState.ring (ringIndex 1)).full ringState.params.syncRing = true := by decide

theorem witness_ring_read : ringState.params.wf ∧ (1 : BitVec 7).toNat < 2 * ringState.params.nports ∧
    (ringState.ring (ringIndex 1)).Inv ringState.params.ringAw ringState.params.syncRing ∧
    (ringState.ring (ringIndex 1)).empty ringState.params.syncRing = false ∧
    (ringState.ring (ringIndex 1)).mem.read
      ((ringState.ring (ringIndex 1)).rbin.toNat % (ringState.ring (ringIndex 1)).cap) = some 0x10 ∧
    (State.reset.ring (ringIndex 1)).empty State.reset.params.syncRing = true := by decide

theorem witness_ring_registers : (3 : BitVec 7).toNat < 2 * wrappedState.params.nports ∧
    (wrappedState.ring (ringIndex 1)).k.toNat ≤ 15 ∧
    (wrappedState.ring (ringIndex 1)).wbin.toNat < (wrappedState.ring (ringIndex 1)).modulus ∧
    (wrappedState.ring (ringIndex 1)).rbin.toNat < (wrappedState.ring (ringIndex 1)).modulus := by decide

/-- The largest instance, its pointers at the top: one byte held, the reader's copy one behind. -/
def topRing : RB :=
  { RB.reset 15 with wbin := 65535, rbin := 65534, wqR := 65533, rqW := 65534, mem := [(32766, 7)] }

theorem witness_gray_comparisons : topRing.k.toNat ≤ 15 ∧ topRing.wbin.toNat < topRing.modulus ∧
    topRing.rbin.toNat < topRing.modulus ∧ topRing.wqR.toNat < topRing.modulus ∧
    topRing.rqW.toNat < topRing.modulus := by decide

theorem witness_ring_invariant : 15 ≤ 15 ∧ 0 < 2 ∧ topRing.Inv 15 2 ∧ topRing.full 2 = false ∧
    topRing.Inv 15 0 ∧ topRing.empty 0 = false ∧ (15 : BitVec 5).toNat ≤ 15 := by decide

theorem witness_ring_reader_sees_a_byte : ({ topRing with rqW := 65535 } : RB).Inv 15 2 ∧
    ({ topRing with rqW := 65535 } : RB).empty 2 = false := by decide

theorem witness_ring_run : ringRun 2 ((RB.reset 5).init 0) [.write 7, .sync .w2r, .read, .sync .r2w, .write 9] =
    some ({ RB.reset 5 with k := 0, wbin := 0, rbin := 1, wqR := 1, rqW := 1, mem := [(0, 9)] }, [some 7]) := by decide

/-! ### Witnesses: the UART registers -/

theorem witness_port : (1 : BitVec 2).toNat < State.reset.params.nports := by decide

theorem witness_control_write_aborts :
    ((portState { port0 with txe := true, rxe := true }).port 0).txe = true ∧ (0x302 : Word).getLsbD 0 = false ∧
    ((portState { port0 with txe := true, rxe := true }).port 0).rxe = true ∧ (0x301 : Word).getLsbD 1 = false := by
  decide

theorem witness_data_write : (portState received).params.wf ∧ (0 : BitVec 2).toNat < (portState received).params.nports ∧
    ((portState received).port 0).hwtx.Inv (portState received).params.hwfifoAw (portState received).params.syncHwfifo ∧
    0 < ((portState received).port 0).txspace (portState received).params ∧
    ((portState stuffed).port 0).hwtx.Inv (portState stuffed).params.hwfifoAw (portState stuffed).params.syncHwfifo ∧
    ((portState stuffed).port 0).txspace (portState stuffed).params = 0 :=
  ⟨by decide, by decide, by decide, by decide, by decide, by decide⟩

theorem witness_data_read :
    ((portState received).port 0).hwrx.Inv (portState received).params.hwfifoAw (portState received).params.syncHwfifo ∧
    0 < ((portState received).port 0).rxlevel (portState received).params ∧
    ((portState received).port 0).hwrx.mem.read ((portState received).port 0).hwrx.readSlot = some 0x41 ∧
    ((portState stuffed).port 0).hwrx.Inv (portState stuffed).params.hwfifoAw (portState stuffed).params.syncHwfifo ∧
    ((portState stuffed).port 0).rxlevel (portState stuffed).params = 0 := by decide

theorem witness_watermarks : (portState received).params.wf ∧
    ((portState received).port 0).Inv (portState received).params :=
  ⟨by decide, by decide, by decide, by decide, by decide⟩

theorem witness_divisor :
    ((portState { port0 with rxe := true }).port 0).rxe = true ∧
    ((portState received).port 0).txe = false ∧ ((portState received).port 0).rxe = false ∧
    (0 < (0x27110010 : Word).toNat % 65536 ∧ (0x27110010 : Word).toNat % 65536 < (0x27110010 : Word).toNat / 65536) ∧
    (0x27102710 : Word).toNat / 65536 ≤ (0x27102710 : Word).toNat % 65536 ∧
    (0xFFFF0000 : Word).toNat % 65536 = 0 := by decide

theorem witness_callback_slots :
    ((portState { port0 with cbvalidRx := true }).port 0).cbvalidRx = true ∧
    ((portState { port0 with cbvalidTx := true }).port 0).cbvalidTx = true ∧
    ((portState port0).port 0).cbvalidRx = false ∧ ((portState port0).port 0).cbvalidTx = false := by decide

theorem witness_masks : (1 : BitVec 2).getLsbD 0 = true ∧ (2 : BitVec 2).getLsbD 1 = true ∧
    ((portState received).port 0).txrdy (portState received).params = true ∧
    ((portState received).port 0).rxrdy (portState received).params = true := by decide

theorem witness_mask_and_flag_clearers :
    leaves (exec (.uartMaskclr 0 1) State.reset) (fun t => (State.reset.port 0).mtxr && !(t.port 0).mtxr) = true ∧
    leaves (exec (.uartConW 0 0) State.reset) (fun t => (State.reset.port 0).mrxr && !(t.port 0).mrxr) = true ∧
    leaves (exec (.uartStatR 0) (portState { port0 with oe := true })) (fun t => !(t.port 0).oe) = true := by decide

theorem witness_agent_event :
    leaves (runEvent (portState { received with oe := true }) (.line 0 false true))
      (fun t => !(t.port 0).rxdI && (t.port 0).oe) = true := by decide

/-! ### Witnesses: the engines -/

theorem witness_baud : (({ port0 with rxe := true, brMod := 7, brInc := 7 } : Port).txe ||
      ({ port0 with rxe := true, brMod := 7, brInc := 7 } : Port).rxe) = true ∧
    0 < ({ port0 with rxe := true, brMod := 7, brInc := 7 } : Port).brMod.toNat ∧
    ({ port0 with rxe := true, brMod := 7, brInc := 7 } : Port).brInc.toNat ≤
      ({ port0 with rxe := true, brMod := 7, brInc := 7 } : Port).brMod.toNat ∧
    ({ port0 with rxe := true, brMod := 7, brInc := 7 } : Port).bacc = 0 := by decide

theorem witness_stopped_baud :
    (port0.bacc.toNat < max port0.brMod.toNat 1 ∧ port0.brMod.toNat = 0) ∧
    (({ port0 with brMod := 7, bacc := 6, txe := true } : Port).bacc.toNat <
        max ({ port0 with brMod := 7, bacc := 6, txe := true } : Port).brMod.toNat 1 ∧
      ({ port0 with brMod := 7, bacc := 6, txe := true } : Port).brInc.toNat = 0) ∧
    (({ port0 with brMod := 7, brInc := 7, bacc := 6 } : Port).txe = false ∧
      ({ port0 with brMod := 7, brInc := 7, bacc := 6 } : Port).rxe = false) := by decide

/-- An enabled port with one byte visible to its transmitter. -/
def loaded : Port :=
  { port0 with txe := true, rxe := true, pen := true, eps := true, hwtx := { (RB.reset 5).push 0x41 with rqW := 1 } }

theorem witness_transmitter : loaded.txe = true ∧ loaded.txstate = .idle ∧
    loaded.hwtx.empty Params.default.syncHwfifo = false ∧ (loaded.fce = false ∨ loaded.rtsS = false) ∧
    loaded.hwtx.mem.read loaded.hwtx.readSlot = some 0x41 := by decide

/-- The levels of the frame of `0x41` with even parity, by ticks. -/
def line41 (n : Nat) : Bool := (frameLevels true true 0x41).getD ((n - 1) / 16) true

theorem witness_receiver : loaded.rxe = true ∧ loaded.rxstate = .idle ∧ line41 0 = false ∧ line41 8 = false ∧
    (∀ j < 8, line41 (24 + 16 * j) = (0x41 : Byte).getLsbD j) ∧
    loaded.hwrx.full Params.default.syncHwfifo = false ∧
    ({ loaded with hwrx := { RB.reset 5 with wbin := 32 } } : Port).hwrx.full Params.default.syncHwfifo = true := by decide

theorem witness_false_start : loaded.rxe = true ∧ loaded.rxstate = .idle ∧ (fun n : Nat => decide (n = 8)) 0 = false ∧
    (fun n : Nat => decide (n = 8)) 8 = true := by decide

/-! ### Witnesses: contexts -/

theorem witness_entry_admitted : ({ fastState with agenda := [.enter] } : State).agenda = .enter :: [] ∧
    ({ fastState with agenda := [.enter] } : State).host.running.kind ≠ .fast ∧
    ({ fastState with agenda := [.enter] } : State).act.prog[({ fastState with agenda := [.enter] } : State).act.pos]? = none ∧
    fiqO { fastState with agenda := [.enter] } = true ∧ irqO { itcState with agenda := [.enter] } = true := by decide

theorem witness_entry_shut :
    (enterContext itcState .normal serviceNormalProgram).act.prog[(enterContext itcState .normal serviceNormalProgram).act.pos]? =
      some { stmt := rd tV .itcNivectorR, shut := true } ∧
    (enterContext fastState .fast serviceFastProgram).host.running.kind = .fast ∧
    (fiqO State.reset = false ∧ irqO State.reset = false) := by decide

theorem witness_shut_lines : serviceNormalProgram[4]? = some { stmt := wrData (.itcNimaskW 0) (.add (.tmp tS) (.lit 1)), shut := true } ∧
    serviceNormalProgram[5]? = some { stmt := rd tM .itcVecvalidR, shut := false } ∧
    (Seq.serviceFast : Seq Word) ≠ .serviceNormal ∧
    ({ stmt := .ret .plain, shut := false } : Line) ∈ seqProgram Params.default .serviceFast := by decide

/-- A normal context over the mainline, about to return. -/
def returning : State :=
  let s := enterContext itcState .normal serviceNormalProgram
  s.setAct (s.act.goto 11)

theorem witness_return : returning.agenda = [] ∧
    returning.act.prog[returning.act.pos]? = some { stmt := .ret .plain, shut := true } ∧
    returning.host.running.callers = [] ∧ returning.host.below = [itcState.host.running] := by decide

/-- R270 with R171: the sequence reports `Ok` to its caller. -/
theorem test_set_priority_returns_ok :
    let s := enterProgram itcState (itcSetPriorityProgram 3 .fast) (some 9)
    leaves (step (s.setAct (s.act.goto 1)))
      (fun t => t.host.result == some .ok && evalExpr t.act.temps (.tmp 9) == some 0) = true := by decide

/-- R270 with R170: so does `ITC.INIT`, whose last line lies behind `NSRC + 3` writes. -/
theorem test_itc_init_returns_ok :
    let s := enterProgram itcState (itcInitProgram Params.default) (some 9)
    leaves (step (s.setAct (s.act.goto (Params.default.nsrc + 3))))
      (fun t => t.host.result == some .ok && evalExpr t.act.temps (.tmp 9) == some 0) = true := by decide

/-- The host about to invoke a token, with handlers bound. -/
def invoking (w : Word) : State :=
  hostAt { itcState with host := { itcState.host with
    handlers := [(0x3000, [line (.ret .plain)]), (0x5000, [line (.goto 0)])] } } (.invoke (.lit w))

theorem witness_invoke : (invoking 0x5000).agenda = [] ∧
    (invoking 0x5000).act.prog[(invoking 0x5000).act.pos]? = some { stmt := .invoke (.lit 0x5000), shut := false } ∧
    evalExpr (invoking 0x5000).act.temps (.lit 0x5000) = some 0x5000 ∧
    handlerProgram (invoking 0x5000).params (invoking 0x5000).host.handlers 0x5000 = some [line (.goto 0)] ∧
    handlerProgram (invoking 0x6000).params (invoking 0x6000).host.handlers 0x6000 = none := by decide

theorem witness_return_from_invoke :
    (enterProgram (invoking 0x3000) [line (.ret .plain)] none).act.prog[0]? = some { stmt := .ret .plain, shut := false } ∧
    (enterProgram (invoking 0x3000) [line (.ret .plain)] none).host.running.callers =
      (invoking 0x3000).act.advance :: [] := by decide

theorem witness_isr_token : Params.default.wf ∧ (1 : Fin 4).val < Params.default.nports ∧
    (∀ p : Fin 4, p.val < Params.default.nports → Params.default.isrToken[p.val] ≠ 0x1002) := by decide

theorem witness_second_binding : (0x3000 : Word) ≠ 0x5000 ∧
    (∀ p : Fin 4, p.val < Params.default.nports → Params.default.isrToken[p.val] ≠ 0x5000) ∧
    handlerProgram Params.default (invoking 0).host.handlers 0x5000 = some [line (.goto 0)] := by decide

/-- Just entered: a normal context with source 5 passing and its handler bound. -/
def dispatching : State := enterContext { invoking 0 with agenda := [] } .normal serviceNormalProgram

theorem witness_service_normal : dispatching.Inv ∧ dispatching.agenda = [] ∧
    dispatching.host.running = Context.start .normal serviceNormalProgram ∧ nivector dispatching = some 5 ∧
    dispatching.itc.vecvalid.getLsbD 5 = true ∧
    handlerProgram dispatching.params dispatching.host.handlers (dispatching.vect (BitVec.ofNat 5 5)) =
      some [line (.goto 0)] :=
  ⟨⟨by decide, by decide, by decide, by decide, by decide, by decide⟩, by decide, by decide, by decide, by decide, by decide⟩

theorem witness_service_normal_restores :
    let s := dispatching.setAct (dispatching.act.goto 10)
    s.agenda = [] ∧ s.act.prog = serviceNormalProgram ∧ s.act.pos = 10 ∧ s.host.running.callers = [] ∧
      s.host.below = [(invoking 0).host.running] := by decide

/-- Just entered: a fast context with source 3 pending and its handler bound. -/
def dispatchingFast : State :=
  enterContext ((invoking 0).setItc fastState.itc) .fast serviceFastProgram

theorem witness_service_fast : dispatchingFast.Inv ∧ dispatchingFast.agenda = [] ∧
    dispatchingFast.host.running = Context.start .fast serviceFastProgram ∧ fivector dispatchingFast = some 3 ∧
    dispatchingFast.itc.vecvalid.getLsbD 3 = true ∧
    handlerProgram dispatchingFast.params dispatchingFast.host.handlers (dispatchingFast.vect (BitVec.ofNat 5 3)) =
      some [line (.ret .plain)] :=
  ⟨⟨by decide, by decide, by decide, by decide, by decide, by decide⟩, by decide, by decide, by decide, by decide, by decide⟩

theorem witness_service_faults :
    (enterContext State.reset .normal serviceNormalProgram).act = Activation.start serviceNormalProgram none ∧
    nivector (enterContext State.reset .normal serviceNormalProgram) = none ∧
    (enterContext State.reset .fast serviceFastProgram).act = Activation.start serviceFastProgram none ∧
    fivector (enterContext State.reset .fast serviceFastProgram) = none ∧
    nivector (dispatching.setItc { itcState.itc with vecvalid := 0x08 }) = some 5 ∧
    (dispatching.setItc { itcState.itc with vecvalid := 0x08 }).itc.vecvalid.getLsbD 5 = false ∧
    fivector (dispatchingFast.setItc { fastState.itc with vecvalid := 0x20 }) = some 3 ∧
    (dispatchingFast.setItc { fastState.itc with vecvalid := 0x20 }).itc.vecvalid.getLsbD 3 = false := by decide

/-! ### Witnesses: driver sequences, reset, invariant -/

/-- The host about to call a driver sequence. -/
def calling (q : Seq Expr) : State := hostAt ringState (.call (some 9) q)

theorem witness_driver_errors :
    (calling (.uartInit (.lit 2) (.lit 0) none)).agenda = [] ∧
    (calling (.uartInit (.lit 2) (.lit 0) none)).act.prog[(calling (.uartInit (.lit 2) (.lit 0) none)).act.pos]? =
      some { stmt := .call (some 9) (.uartInit (.lit 2) (.lit 0) none), shut := false } ∧
    evalSeq (calling (.uartInit (.lit 2) (.lit 0) none)).act.temps (.uartInit (.lit 2) (.lit 0) none) =
      some (.uartInit 2 0 none) ∧
    (calling (.uartInit (.lit 2) (.lit 0) none)).params.nports ≤ (2 : Word).toNat ∧
    evalSeq (calling (.uartInit (.lit 1) (.lit 0) none)).act.temps (.uartInit (.lit 1) (.lit 0) none) =
      some (.uartInit 1 0 none) ∧
    (1 : Word).toNat < (calling (.uartInit (.lit 1) (.lit 0) none)).params.nports ∧
    evalSeq (calling (.setReceiveCallback (.lit 2) none)).act.temps (.setReceiveCallback (.lit 2) none) =
      some (.setReceiveCallback 2 none) := by decide

theorem witness_bad_port :
    (calling (.sendByte (.lit 2) (.lit 0))).act.prog[(calling (.sendByte (.lit 2) (.lit 0))).act.pos]? =
      some { stmt := .call (some 9) (.sendByte (.lit 2) (.lit 0)), shut := false } ∧
    evalSeq (calling (.sendByte (.lit 2) (.lit 0))).act.temps (.sendByte (.lit 2) (.lit 0)) = some (.sendByte 2 0) ∧
    (calling (.sendByte (.lit 2) (.lit 0))).params.nports ≤ (2 : Word).toNat := by decide

/-- Three bytes of host memory, and a call that sends them on port 0 where two slots are free. -/
def sending : State :=
  hostAt (let s := ringState.setRing 1 { ringState.ring 1 with rbin := 2 }
    { s with host := { s.host with mem := [(0x100, 0x61), (0x101, 0x62), (0x102, 0x63)] } })
    (.call (some 9) (.send (.lit 0) (.lit 0x100) (.lit 3)))

theorem witness_send : sending.Inv ∧ sending.params.syncRing = 0 ∧ sending.agenda = [] ∧
    (0 : BitVec 2).toNat < sending.params.nports ∧
    sending.act.prog[sending.act.pos]? =
      some { stmt := .call (some 9) (.send (.lit ((0 : BitVec 2).setWidth 32)) (.lit 0x100) (.lit 3)), shut := false } ∧
    min (3 : Word).toNat ((sending.ring (BitVec.ofNat 3 (2 * (0 : BitVec 2).toNat + 1))).free 0) = 2 ∧
    (∀ j < 2, sending.host.mem.read (0x100 + BitVec.ofNat 32 j : Word).toNat = some (BitVec.ofNat 8 (0x61 + j))) :=
  ⟨⟨by decide, by decide, by decide, by decide, by decide, by decide⟩, by decide, by decide, by decide, by decide, by decide, by decide⟩

theorem witness_legal_parameters :
    ({ Params.default with nports := 4, nsrc := 5, ringAw := 15, hwfifoAw := 7, baudMod := 65535 } : Params).wf := by decide

theorem witness_reset_event : ({ dispatching with agenda := [.reset, .host] } : State).agenda = .reset :: [.host] := by
  decide

theorem witness_step_keeps_invariant : dispatching.Inv ∧ leaves (step dispatching) (fun t => t.rdata == 5) = true :=
  ⟨⟨by decide, by decide, by decide, by decide, by decide, by decide⟩, by decide⟩

end Sys2Proof.Tests
end

/-! # The register map and the faults of R87

Every word the decoder accepts is an access the register map allows: a row of the opcode map fixes the fields of the
header that its mask covers, and its index check is the map's. So an access the map does not allow decodes to nothing
and its transaction faults; and the same index check stands in front of the meaning of every primitive. -/

namespace Sys2Proof.Machine

/-! ### What a selected row says of the header (spec/30_encoding.md R82, R91 step 2) -/

theorem selects_iff (r : Row) (h : Header) : r.selects h = true ↔ h &&& r.mask = r.pat := by
  simp [Row.selects]

/-- A field that lies wholly in a row's mask is the row's own in every header the row selects. -/
theorem extractLsb'_of_selects {r : Row} {h : Header} (hs : r.selects h = true) {start len : Nat}
    (hm : r.mask.extractLsb' start len = BitVec.allOnes len) :
    h.extractLsb' start len = r.pat.extractLsb' start len := by
  rw [← (selects_iff r h).mp hs, BitVec.extractLsb'_and, hm, BitVec.and_allOnes]

theorem isWrite_of_selects {r : Row} {h : Header} (hs : r.selects h = true) (hm : Header.isWrite r.mask = true) :
    Header.isWrite h = Header.isWrite r.pat := by
  have hw : Header.isWrite (h &&& r.mask) = (Header.isWrite h && Header.isWrite r.mask) := BitVec.getLsbD_and ..
  rw [← (selects_iff r h).mp hs, hw, hm, Bool.and_true]

/-! ### The fields of the formats (spec/30_encoding.md R82) -/

theorem off_eq_source (h : Header) :
    (Header.off h).toNat =
      128 * (h.extractLsb' 7 5).toNat + 4 * (Header.source h).toNat + (h.extractLsb' 0 2).toNat := by
  simp only [Header.off, Header.source, BitVec.extractLsb'_toNat, Nat.shiftRight_eq_div_pow]
  omega

theorem off_div_eq_ring (h : Header) : (Header.off h).toNat / 32 = (Header.ring h).toNat := by
  simp only [Header.off, Header.ring, BitVec.extractLsb'_toNat, Nat.shiftRight_eq_div_pow]
  omega

theorem off_mod_eq_reg (h : Header) : (Header.off h).toNat % 32 = (h.extractLsb' 0 5).toNat := by
  simp only [Header.off, BitVec.extractLsb'_toNat, Nat.shiftRight_eq_div_pow]
  omega

theorem unit_eq_port (h : Header) :
    (Header.unit h).toNat = 4 * (h.extractLsb' 14 1).toNat + (Header.port h).toNat := by
  simp only [Header.unit, Header.port, BitVec.extractLsb'_toNat, Nat.shiftRight_eq_div_pow]
  omega

/-! ### The rows of each format against the register map (spec/30_encoding.md R84 to R86) -/

theorem itcRows_registers : ∀ r ∈ itcRows, r.mask = 0xFFFF ∧ Header.unit r.pat = 0 ∧
    (Header.off r.pat).toNat ∈ if Header.isWrite r.pat then itcWritable else itcReadable := by
  decide

theorem vecRows_registers : ∀ r ∈ vecRows, r.mask = 0xFF83 ∧ Header.unit r.pat = 0 ∧
    r.pat.extractLsb' 7 5 = 2 ∧ r.pat.extractLsb' 0 2 = 0 := by
  decide

theorem rbRows_registers : ∀ r ∈ rbRows, r.mask = 0xF01F ∧ Header.unit r.pat = 1 ∧
    (r.pat.extractLsb' 0 5).toNat ∈ if Header.isWrite r.pat then rbWritable else rbReadable := by
  decide

theorem uartRows_registers : ∀ r ∈ uartRows, r.mask = 0xCFFF ∧ r.pat.extractLsb' 14 1 = 1 ∧
    (Header.off r.pat).toNat ∈ if Header.isWrite r.pat then uartWritable else uartReadable := by
  decide

theorem vecRows_wf {r : Row} (hr : r ∈ vecRows) (P : Params) (h : Header) (d : Word) :
    (r.build h d).wf P = sourceExists P (Header.source h) := by
  fin_cases hr <;> rfl

theorem rbRows_wf {r : Row} (hr : r ∈ rbRows) (P : Params) (h : Header) (d : Word) :
    (r.build h d).wf P = instanceExists P (Header.ring h) := by
  fin_cases hr <;> rfl

theorem uartRows_wf {r : Row} (hr : r ∈ uartRows) (P : Params) (h : Header) (d : Word) :
    (r.build h d).wf P = portExists P (Header.port h) := by
  fin_cases hr <;> rfl

/-! ### Whatever a row accepts, the map allows -/

/-- The access a header makes is in the register map. -/
def AccessibleHeader (P : Params) (h : Header) : Prop :=
  Accessible P (Header.isWrite h) (Header.unit h).toNat (Header.off h).toNat

theorem accessible_of_itcRow {P : Params} {r : Row} {h : Header} (hr : r ∈ itcRows) (hs : r.selects h = true) :
    AccessibleHeader P h := by
  obtain ⟨hmask, hunit, hoff⟩ := itcRows_registers r hr
  have hh : h = r.pat := by
    have := (selects_iff r h).mp hs
    rwa [hmask, show (0xFFFF : Header) = BitVec.allOnes 16 from rfl, BitVec.and_allOnes] at this
  subst hh
  exact .inl ⟨congrArg BitVec.toNat hunit, hoff⟩

theorem accessible_of_vecRow {P : Params} {r : Row} {h : Header} (hr : r ∈ vecRows) (hs : r.selects h = true)
    (hx : sourceExists P (Header.source h) = true) : AccessibleHeader P h := by
  obtain ⟨hmask, hunit, hhigh, hlow⟩ := vecRows_registers r hr
  have hu : Header.unit h = 0 := (extractLsb'_of_selects hs (by rw [hmask]; decide)).trans hunit
  have h7 : h.extractLsb' 7 5 = 2 := (extractLsb'_of_selects hs (by rw [hmask]; decide)).trans hhigh
  have h0 : h.extractLsb' 0 2 = 0 := (extractLsb'_of_selects hs (by rw [hmask]; decide)).trans hlow
  have hoff : (Header.off h).toNat = 0x100 + 4 * (Header.source h).toNat := by
    rw [off_eq_source, h7, h0]
    rfl
  exact .inr (.inl ⟨congrArg BitVec.toNat hu, _, (Header.source h).isLt, of_decide_eq_true hx, hoff⟩)

theorem accessible_of_rbRow {P : Params} {r : Row} {h : Header} (hr : r ∈ rbRows) (hs : r.selects h = true)
    (hi : instanceExists P (Header.ring h) = true) : AccessibleHeader P h := by
  obtain ⟨hmask, hunit, hreg⟩ := rbRows_registers r hr
  have hu : Header.unit h = 1 := (extractLsb'_of_selects hs (by rw [hmask]; decide)).trans hunit
  have hw : Header.isWrite h = Header.isWrite r.pat := isWrite_of_selects hs (by rw [hmask]; decide)
  have hlow : h.extractLsb' 0 5 = r.pat.extractLsb' 0 5 := extractLsb'_of_selects hs (by rw [hmask]; decide)
  refine .inr (.inr (.inl ⟨congrArg BitVec.toNat hu, ?_, ?_⟩))
  · rw [off_div_eq_ring]
    exact of_decide_eq_true hi
  · rw [off_mod_eq_reg, hlow, hw]
    exact hreg

theorem accessible_of_uartRow {P : Params} {r : Row} {h : Header} (hr : r ∈ uartRows) (hs : r.selects h = true)
    (hp : portExists P (Header.port h) = true) : AccessibleHeader P h := by
  obtain ⟨hmask, htop, hreg⟩ := uartRows_registers r hr
  have h14 : h.extractLsb' 14 1 = 1 := (extractLsb'_of_selects hs (by rw [hmask]; decide)).trans htop
  have hw : Header.isWrite h = Header.isWrite r.pat := isWrite_of_selects hs (by rw [hmask]; decide)
  have hoff : Header.off h = Header.off r.pat := extractLsb'_of_selects hs (by rw [hmask]; decide)
  have hu : (Header.unit h).toNat = 4 + (Header.port h).toNat := by
    rw [unit_eq_port, h14]
    rfl
  have hport : (Header.port h).toNat < P.nports := of_decide_eq_true hp
  refine .inr (.inr (.inr ⟨by omega, by omega, ?_⟩))
  rw [hoff, hw]
  exact hreg

/-- What the decoder accepts, a row selects and its index check passes. -/
theorem row_of_decodeParts_ok {P : Params} {h : Header} {d : Word} {i : Instr} (hd : decodeParts P h d = .ok i) :
    ∃ r ∈ rows, r.selects h = true ∧ (r.build h d).wf P = true := by
  cases hf : rows.find? (fun r => r.selects h) with
  | none => simp [decodeParts, hf] at hd
  | some r =>
    have hs : r.selects h = true := List.find?_some (p := fun r : Row => r.selects h) hf
    refine ⟨r, List.mem_of_find?_eq_some hf, hs, ?_⟩
    by_contra hwf
    simp [decodeParts_of_find hf, hwf] at hd

/-- The decoder accepts only accesses of the register map (R81, R82, R87). -/
theorem accessible_of_decodeParts_ok {P : Params} {h : Header} {d : Word} {i : Instr}
    (hd : decodeParts P h d = .ok i) : AccessibleHeader P h := by
  obtain ⟨r, hr, hs, hwf⟩ := row_of_decodeParts_ok hd
  simp only [rows, List.mem_append] at hr
  obtain ((hr | hr) | hr) | hr := hr
  · exact accessible_of_itcRow hr hs
  · exact accessible_of_vecRow hr hs (vecRows_wf hr P h d ▸ hwf)
  · exact accessible_of_rbRow hr hs (rbRows_wf hr P h d ▸ hwf)
  · exact accessible_of_uartRow hr hs (uartRows_wf hr P h d ▸ hwf)

/-! ### The transaction of a word that is no operation -/

/-- A transaction's fields are those of its header value's low 16 bits (R80). -/
theorem accessibleHeader_setWidth_iff (P : Params) (h : Word) :
    AccessibleHeader P (h.setWidth 16) ↔
      Accessible P (h.getLsbD 15) (h.extractLsb' 12 3).toNat (h.extractLsb' 0 12).toNat := by
  have hw : Header.isWrite (h.setWidth 16) = h.getLsbD 15 := by simp [Header.isWrite]
  have hu : Header.unit (h.setWidth 16) = h.extractLsb' 12 3 := BitVec.extractLsb'_setWidth_of_le (by decide)
  have ho : Header.off (h.setWidth 16) = h.extractLsb' 0 12 := BitVec.extractLsb'_setWidth_of_le (by decide)
  rw [AccessibleHeader, hw, hu, ho]

theorem transact_busWord_of_not_accessible {s : State} {h : Word}
    (hna : ¬ Accessible s.params (h.getLsbD 15) (h.extractLsb' 12 3).toNat (h.extractLsb' 0 12).toNat)
    (dst : Option Temp) (d : Word) : transact s dst (busWord h d) = .fault .busUndefined := by
  obtain ⟨_, _, hf⟩ | ⟨i, hd, _⟩ := transact_cases s dst (busWord h d)
  · exact hf
  · rw [busWord, decode_commandWord] at hd
    exact absurd ((accessibleHeader_setWidth_iff _ h).mp (accessible_of_decodeParts_ok hd)) hna

/-- A host statement that is a bus transaction, with both its words known, is that transaction. -/
theorem step_of_bus {s : State} {dst : Option Temp} {hdr data : Expr} {shut : Bool} {h d : Word}
    (hagenda : s.agenda = []) (hline : s.act.prog[s.act.pos]? = some { stmt := .bus dst hdr data, shut := shut })
    (hh : evalExpr s.act.temps hdr = some h) (hd : evalExpr s.act.temps data = some d) :
    step s = transact s dst (busWord h d) := by
  rw [step_of_agenda_nil hagenda, hostStep_of_line hline]
  simp only [runStmt, hh, hd, withValue]

/-! ### The index checks of the primitives (spec/30_encoding.md R82, R87) -/

theorem withVector_of_absent {s : State} {x : BitVec 5} (hx : sourceExists s.params x = false)
    (f : Unit → Answered) : withVector s x f = .fault .busUndefined :=
  if_neg (of_decide_eq_false hx)

theorem withRing_of_absent {s : State} {i : BitVec 7} (hi : instanceExists s.params i = false)
    (f : BitVec 3 → Answered) : withRing s i f = .fault .busUndefined :=
  if_neg (of_decide_eq_false hi)

theorem withPort_of_absent {s : State} {p : BitVec 2} (hp : portExists s.params p = false)
    (f : Port → Answered) : withPort s p f = .fault .busUndefined :=
  if_neg (of_decide_eq_false hp)

/-- Every primitive makes its format's index check before anything else; a primitive of format ITC has no index. -/
theorem exec_of_not_wf {s : State} {i : Instr} (h : i.wf s.params = false) : exec i s = .fault .busUndefined := by
  cases i with
  | itcSetHandler x _ | itcVectR x =>
    rw [exec]
    exact withVector_of_absent h _
  | rbInit j _ | rbWrite j _ | rbRead j | rbWstat j | rbRstat j | rbCap j | rbWptr j | rbRptr j =>
    rw [exec]
    exact withRing_of_absent h _
  | uartConW p _ | uartConR p | uartStatR p | uartDataW p _ | uartDataR p | uartRxconW p _ | uartRxconR p
  | uartTxconW p _ | uartTxconR p | uartBrW p _ | uartBrR p | uartCbrxW p _ | uartCbrxR p | uartCbtxW p _
  | uartCbtxR p | uartCbvalidR p | uartCbclr p _ | uartMaskset p _ | uartMaskclr p _ =>
    rw [exec]
    exact withPort_of_absent h _
  | _ => simp [Instr.wf] at h

/-- Settles O8: the decoder accepts only what the register map allows, and every primitive checks its index first. -/
theorem undefinedAccessFaults : Obligations.UndefinedAccessFaults := by
  refine ⟨fun s dst hdr data shut h d hagenda hline hh hd hna => ?_, fun s i hwf => exec_of_not_wf hwf⟩
  rw [step_of_bus hagenda hline hh hd]
  exact transact_busWord_of_not_accessible hna dst d

end Sys2Proof.Machine

/-! # The RB bank on the bus

A header of the ring bank names its register in the five bits that the rows of format RB test and its ring in the seven
they leave free. So a row of that format performs its own primitive for every ring; and each primitive, its ring
existing, is one operation on that ring. -/

namespace Sys2Proof.Machine

/-! ### The words of format RB (spec/30_encoding.md R82, R85) -/

theorem shifted_index_outside_mask : ∀ i : BitVec 7, (i.setWidth 16 <<< 5) &&& (0xF01F : Header) = 0 := by
  decide

/-- A ring's number lies outside the bits that a row of format RB tests. -/
theorem atRing_and_mask (base : Header) (i : BitVec 7) : atRing base i &&& 0xF01F = base &&& 0xF01F := by
  rw [atRing, BitVec.and_or_distrib_right, shifted_index_outside_mask]
  exact BitVec.or_zero

theorem ring_atRing {base : Header} (hb : Header.ring base = 0) (i : BitVec 7) : Header.ring (atRing base i) = i := by
  have hi : ∀ i : BitVec 7, (i.setWidth 16 <<< 5 : Header).extractLsb' 5 7 = i := by decide
  rw [Header.ring] at hb ⊢
  rw [atRing, BitVec.extractLsb'_or, hb, hi]
  exact BitVec.zero_or

theorem rbRows_pats : ∀ r ∈ rbRows, r.pat &&& 0xF01F = r.pat ∧ Header.ring r.pat = 0 := by decide

theorem rbRows_pats_nodup : (rbRows.map Row.pat).Nodup := by decide

/-- A row whose mask covers the unit fixes it. -/
theorem unit_of_selects {r : Row} {h : Header} (hs : r.selects h = true) (hm : Header.unit r.mask = 7) :
    Header.unit h = Header.unit r.pat :=
  extractLsb'_of_selects hs hm

/-- Only a row of format RB selects a header of unit 1 (R81). -/
theorem mem_rbRows_of_unit {r : Row} {h : Header} (hr : r ∈ rows) (hs : r.selects h = true)
    (hu : Header.unit h = 1) : r ∈ rbRows := by
  simp only [rows, List.mem_append] at hr
  obtain ((hr | hr) | hr) | hr := hr
  · obtain ⟨hmask, hunit, _⟩ := itcRows_registers r hr
    have hzero : Header.unit h = 0 := (unit_of_selects hs (by rw [hmask]; decide)).trans hunit
    exact absurd (hu.symm.trans hzero) (by decide)
  · obtain ⟨hmask, hunit, _⟩ := vecRows_registers r hr
    have hzero : Header.unit h = 0 := (unit_of_selects hs (by rw [hmask]; decide)).trans hunit
    exact absurd (hu.symm.trans hzero) (by decide)
  · exact hr
  · obtain ⟨hmask, htop, _⟩ := uartRows_registers r hr
    have h14 : h.extractLsb' 14 1 = 1 := (extractLsb'_of_selects hs (by rw [hmask]; decide)).trans htop
    have hfour := unit_eq_port h
    rw [hu, h14] at hfour
    change 1 = 4 * 1 + _ at hfour
    omega

/-- The register's row selects its header for every ring. -/
theorem selects_atRing {r : Row} (hr : r ∈ rbRows) (i : BitVec 7) : r.selects (atRing r.pat i) = true := by
  obtain ⟨hmask, _⟩ := rbRows_registers r hr
  obtain ⟨hpat, _⟩ := rbRows_pats r hr
  rw [selects_iff, hmask, atRing_and_mask, hpat]

/-- No other row of the opcode map selects it. -/
theorem eq_of_selects_atRing {r x : Row} (hr : r ∈ rbRows) (hx : x ∈ rows) {i : BitVec 7}
    (hs : x.selects (atRing r.pat i) = true) : x = r := by
  obtain ⟨hmask, hunit, _⟩ := rbRows_registers r hr
  have hu : Header.unit (atRing r.pat i) = 1 :=
    (unit_of_selects (selects_atRing hr i) (by rw [hmask]; decide)).trans hunit
  have hxb : x ∈ rbRows := mem_rbRows_of_unit hx hs hu
  obtain ⟨hxmask, _⟩ := rbRows_registers x hxb
  obtain ⟨hpat, _⟩ := rbRows_pats r hr
  rw [selects_iff, hxmask, atRing_and_mask, hpat] at hs
  exact List.inj_on_of_nodup_map rbRows_pats_nodup hxb hr hs.symm

theorem find_atRing {r : Row} (hr : r ∈ rbRows) (i : BitVec 7) :
    rows.find? (fun x => x.selects (atRing r.pat i)) = some r := by
  have hmem : r ∈ rows := by simp [rows, hr]
  cases hf : rows.find? (fun x => x.selects (atRing r.pat i)) with
  | none => exact absurd (selects_atRing hr i) (List.find?_eq_none.mp hf r hmem)
  | some x =>
    have hs : x.selects (atRing r.pat i) = true :=
      List.find?_some (p := fun x : Row => x.selects (atRing r.pat i)) hf
    rw [eq_of_selects_atRing hr (List.mem_of_find?_eq_some hf) hs]

/-- A row of format RB performs, for every ring, the instruction it builds (R82, R85). -/
theorem performs_of_rbRow {r : Row} (hr : r ∈ rbRows) {f : BitVec 7 → Word → Instr}
    (hf : ∀ h d, r.build h d = f (Header.ring h) d) (i : BitVec 7) : Performs (atRing r.pat i) (f i) := by
  intro P d
  obtain ⟨_, hring⟩ := rbRows_pats r hr
  rw [decode_commandWord, decodeParts_of_find (find_atRing hr i), hf, ring_atRing hring]

theorem dataByte_eq_setWidth (d : Word) : dataByte d = d.setWidth 8 := by
  apply BitVec.eq_of_toNat_eq
  simp [dataByte]

theorem performs_rbInit (i : BitVec 7) : Performs (atRing 0x9000 i) (.rbInit i) :=
  performs_of_rbRow (r := rbRows[0]) (f := Instr.rbInit) (List.getElem_mem _) (fun _ _ => rfl) i

theorem performs_rbWrite (i : BitVec 7) : Performs (atRing 0x9004 i) (fun d => .rbWrite i (d.setWidth 8)) :=
  performs_of_rbRow (r := rbRows[1]) (f := fun i d => .rbWrite i (d.setWidth 8)) (List.getElem_mem _)
    (fun _ _ => congrArg (Instr.rbWrite _) (dataByte_eq_setWidth _)) i

theorem performs_rbRead (i : BitVec 7) : Performs (atRing 0x1008 i) (fun _ => .rbRead i) :=
  performs_of_rbRow (r := rbRows[2]) (f := fun i _ => .rbRead i) (List.getElem_mem _) (fun _ _ => rfl) i

theorem performs_rbWstat (i : BitVec 7) : Performs (atRing 0x100C i) (fun _ => .rbWstat i) :=
  performs_of_rbRow (r := rbRows[3]) (f := fun i _ => .rbWstat i) (List.getElem_mem _) (fun _ _ => rfl) i

theorem performs_rbRstat (i : BitVec 7) : Performs (atRing 0x1010 i) (fun _ => .rbRstat i) :=
  performs_of_rbRow (r := rbRows[4]) (f := fun i _ => .rbRstat i) (List.getElem_mem _) (fun _ _ => rfl) i

theorem performs_rbCap (i : BitVec 7) : Performs (atRing 0x1014 i) (fun _ => .rbCap i) :=
  performs_of_rbRow (r := rbRows[5]) (f := fun i _ => .rbCap i) (List.getElem_mem _) (fun _ _ => rfl) i

theorem performs_rbWptr (i : BitVec 7) : Performs (atRing 0x1018 i) (fun _ => .rbWptr i) :=
  performs_of_rbRow (r := rbRows[6]) (f := fun i _ => .rbWptr i) (List.getElem_mem _) (fun _ _ => rfl) i

theorem performs_rbRptr (i : BitVec 7) : Performs (atRing 0x101C i) (fun _ => .rbRptr i) :=
  performs_of_rbRow (r := rbRows[7]) (f := fun i _ => .rbRptr i) (List.getElem_mem _) (fun _ _ => rfl) i

/-! ### The eight primitives on a ring (spec/40_ring_buffer.md R113 to R120) -/

theorem instanceExists_of_le {P : Params} {i : BitVec 7} (hi : 2 * P.nports ≤ i.toNat) :
    instanceExists P i = false :=
  decide_eq_false (by omega)

theorem withRing_of_present {s : State} {i : BitVec 7} (hi : i.toNat < 2 * s.params.nports)
    (f : BitVec 3 → Answered) : withRing s i f = f (ringIndex i) :=
  if_pos hi

section
variable {s : State} {i : BitVec 7} (hi : i.toNat < 2 * s.params.nports)
include hi

theorem exec_rbInit_above {k : Word} (hk : s.params.ringAw < k.toNat) :
    exec (.rbInit i k) s = .fault .badCapacity := by
  rw [exec, execRbInit, withRing_of_present hi, if_neg (by omega)]

theorem exec_rbInit {k : Word} (hk : k.toNat ≤ s.params.ringAw) :
    exec (.rbInit i k) s = .next (s.setRing (ringIndex i) ((s.ring (ringIndex i)).init (k.setWidth 5))) := by
  rw [exec, execRbInit, withRing_of_present hi, if_pos hk]

theorem exec_rbWrite_full (b : Byte) (hfull : (s.ring (ringIndex i)).full s.params.syncRing = true) :
    exec (.rbWrite i b) s = .fault .rbWriteFull := by
  rw [exec, execRbWrite, withRing_of_present hi, if_pos hfull]

theorem exec_rbWrite (b : Byte) (hfull : (s.ring (ringIndex i)).full s.params.syncRing = false) :
    exec (.rbWrite i b) s = .next (s.setRing (ringIndex i) ((s.ring (ringIndex i)).push b)) := by
  rw [exec, execRbWrite, withRing_of_present hi, hfull, if_neg Bool.false_ne_true]

theorem exec_rbRead_empty (hempty : (s.ring (ringIndex i)).empty s.params.syncRing = true) :
    exec (.rbRead i) s = .fault .rbReadEmpty := by
  rw [exec, execRbRead, withRing_of_present hi, if_pos hempty]

theorem exec_rbRead (hempty : (s.ring (ringIndex i)).empty s.params.syncRing = false) :
    exec (.rbRead i) s = .next (answer (s.drawn.setRing (ringIndex i) (s.ring (ringIndex i)).pop)
      (((s.ring (ringIndex i)).front s.freeByte).setWidth 32)) := by
  rw [exec, execRbRead, withRing_of_present hi, hempty, if_neg Bool.false_ne_true]

theorem exec_rbWstat :
    exec (.rbWstat i) s = .next (answer s ((s.ring (ringIndex i)).wstatWord s.params.syncRing)) := by
  rw [exec, execRbWstat, withRing_of_present hi]

theorem exec_rbRstat :
    exec (.rbRstat i) s = .next (answer s ((s.ring (ringIndex i)).rstatWord s.params.syncRing)) := by
  rw [exec, execRbRstat, withRing_of_present hi]

theorem exec_rbCap : exec (.rbCap i) s = .next (answer s (s.ring (ringIndex i)).capWord) := by
  rw [exec, execRbCap, withRing_of_present hi]

theorem exec_rbWptr : exec (.rbWptr i) s = .next (answer s (s.ring (ringIndex i)).wptrWord) := by
  rw [exec, execRbWptr, withRing_of_present hi]

theorem exec_rbRptr : exec (.rbRptr i) s = .next (answer s (s.ring (ringIndex i)).rptrWord) := by
  rw [exec, execRbRptr, withRing_of_present hi]

end

end Sys2Proof.Machine

/-! # A ring's pointers and views

What one step of a pointer does to a distance, and from it what a write and a read do to the counts and the levels; and
the gray code as a map on numbers: it is injective, and inverting the bits R121 names is adding the capacity. -/

namespace Sys2Proof.Machine

/-! ### Distances on the circle of pointers (spec/40_ring_buffer.md R102) -/

theorem ringDistance_lt {m : Nat} (h0 : 0 < m) (a b : BitVec 16) : ringDistance m a b < m := Nat.mod_lt _ h0

section
variable {m : Nat} (hm : m ≤ 65536) {a b : BitVec 16} (ha : a.toNat < m) (hb : b.toNat < m)
include hm ha hb

/-- The leading pointer's step lengthens the distance by one, unless it closes the circle. -/
theorem ringDistance_next_left (h : ringDistance m a b + 1 < m) :
    ringDistance m (ringNext m a) b = ringDistance m a b + 1 := by
  have hn : (ringNext m a).toNat = (a.toNat + 1) % m := ringNext_toNat (by omega) hm a
  have hlt : (ringNext m a).toNat < m := hn ▸ Nat.mod_lt _ (by omega)
  rw [ringDistance_eq ha hb] at h ⊢
  rw [ringDistance_eq hlt hb, hn]
  obtain hwrap | hwrap : a.toNat + 1 = m ∨ a.toNat + 1 < m := by omega
  · rw [hwrap, Nat.mod_self]
    split at h <;> split <;> omega
  · rw [Nat.mod_eq_of_lt hwrap]
    split at h <;> split <;> omega

/-- The trailing pointer's step shortens the distance by one, unless it is zero. -/
theorem ringDistance_next_right (h : 0 < ringDistance m a b) :
    ringDistance m a (ringNext m b) + 1 = ringDistance m a b := by
  have hn : (ringNext m b).toNat = (b.toNat + 1) % m := ringNext_toNat (by omega) hm b
  have hlt : (ringNext m b).toNat < m := hn ▸ Nat.mod_lt _ (by omega)
  rw [ringDistance_eq ha hb] at h ⊢
  rw [ringDistance_eq ha hlt, hn]
  obtain hwrap | hwrap : b.toNat + 1 = m ∨ b.toNat + 1 < m := by omega
  · rw [hwrap, Nat.mod_self]
    split at h <;> split <;> omega
  · rw [Nat.mod_eq_of_lt hwrap]
    split at h <;> split <;> omega

end

/-! ### What a write and a read do to the views (spec/40_ring_buffer.md R103 to R105) -/

theorem RB.modulus_pos (r : RB) : 0 < r.modulus := Nat.two_pow_pos _

theorem RB.full_eq_false_iff (sy : Nat) (r : RB) : r.full sy = false ↔ r.wcount sy ≠ r.cap := by
  simp [RB.full]

theorem RB.empty_eq_false_iff (sy : Nat) (r : RB) : r.empty sy = false ↔ r.rcount sy ≠ 0 := by
  simp [RB.empty]

/-- With depth 0 the writer's view is the true count. -/
theorem RB.wcount_of_depth_zero (r : RB) : r.wcount 0 = r.count := rfl

/-- With a synchroniser the reader does not see a write at once. -/
theorem RB.push_rcount_of_depth {sy : Nat} (h : sy ≠ 0) (r : RB) (b : Byte) : (r.push b).rcount sy = r.rcount sy := by
  simp [RB.rcount, RB.readerCopy, h]

/-- With a synchroniser the writer does not see a read at once. -/
theorem RB.pop_wcount_of_depth {sy : Nat} (h : sy ≠ 0) (r : RB) : r.pop.wcount sy = r.wcount sy := by
  simp [RB.wcount, RB.writerCopy, h]

theorem RB.writerCopy_lt (sy : Nat) {r : RB} (hr : r.rbin.toNat < r.modulus) (hq : r.wqR.toNat < r.modulus) :
    (r.writerCopy sy).toNat < r.modulus := by
  rw [RB.writerCopy]
  split
  · exact hr
  · exact hq

theorem RB.readerCopy_lt (sy : Nat) {r : RB} (hw : r.wbin.toNat < r.modulus) (hq : r.rqW.toNat < r.modulus) :
    (r.readerCopy sy).toNat < r.modulus := by
  rw [RB.readerCopy]
  split
  · exact hw
  · exact hq

section
variable {aw sy : Nat} {r : RB} (hinv : r.Inv aw sy)
include hinv

/-- A ring that is not full has room in the writer's view. -/
theorem RB.wcount_lt_cap (hfull : r.full sy = false) : r.wcount sy < r.cap := by
  obtain ⟨_, _, ⟨_, _, hcap⟩, _⟩ := hinv
  exact lt_of_le_of_ne hcap ((RB.full_eq_false_iff sy r).mp hfull)

variable (haw : aw ≤ 15)
include haw

theorem RB.modulus_le_of_inv : r.modulus ≤ 65536 := by
  obtain ⟨hk, _⟩ := hinv
  exact RB.modulus_le (hk.trans haw)

theorem RB.push_wbin_toNat (b : Byte) : (r.push b).wbin.toNat = (r.wbin.toNat + 1) % r.modulus :=
  ringNext_toNat r.modulus_pos (RB.modulus_le_of_inv hinv haw) _

theorem RB.pop_rbin_toNat : r.pop.rbin.toNat = (r.rbin.toNat + 1) % r.modulus :=
  ringNext_toNat r.modulus_pos (RB.modulus_le_of_inv hinv haw) _

theorem RB.push_count (hfull : r.full sy = false) (b : Byte) : (r.push b).count = r.count + 1 := by
  have hlt := RB.wcount_lt_cap hinv hfull
  have hmod := r.modulus_eq
  have hm := RB.modulus_le_of_inv hinv haw
  obtain ⟨_, ⟨hw, hr, _, _⟩, ⟨_, hcount, _⟩, _⟩ := hinv
  exact ringDistance_next_left hm hw hr (show r.count + 1 < r.modulus by omega)

theorem RB.push_wcount (hfull : r.full sy = false) (b : Byte) : (r.push b).wcount sy = r.wcount sy + 1 := by
  have hlt := RB.wcount_lt_cap hinv hfull
  have hmod := r.modulus_eq
  have hm := RB.modulus_le_of_inv hinv haw
  obtain ⟨_, ⟨hw, hr, hq, _⟩, _, _⟩ := hinv
  have hcopy := RB.writerCopy_lt sy hr hq
  exact ringDistance_next_left hm hw hcopy (show r.wcount sy + 1 < r.modulus by omega)

/-- A write takes one free slot in the writer's view. -/
theorem RB.push_free (hfull : r.full sy = false) (b : Byte) : (r.push b).free sy + 1 = r.free sy := by
  have hlt := RB.wcount_lt_cap hinv hfull
  rw [RB.free, RB.free, RB.push_wcount hinv haw hfull, RB.push_cap]
  omega

/-- A write shows in the reader's view at once only without a synchroniser. -/
theorem RB.push_avail (hfull : r.full sy = false) (b : Byte) :
    (r.push b).avail sy = r.avail sy + if sy = 0 then 1 else 0 := by
  rw [RB.avail, RB.avail]
  split
  · next h =>
    subst h
    exact RB.push_count hinv haw hfull b
  · next h => exact RB.push_rcount_of_depth h r b

theorem RB.pop_count (hempty : r.empty sy = false) : r.pop.count + 1 = r.count := by
  have hne := (RB.empty_eq_false_iff sy r).mp hempty
  have hm := RB.modulus_le_of_inv hinv haw
  obtain ⟨_, ⟨hw, hr, _, _⟩, ⟨hcount, _, _⟩, _⟩ := hinv
  exact ringDistance_next_right hm hw hr (show 0 < r.count by omega)

/-- A read takes one byte of the reader's view. -/
theorem RB.pop_avail (hempty : r.empty sy = false) : r.pop.avail sy + 1 = r.avail sy := by
  have hm := RB.modulus_le_of_inv hinv haw
  obtain ⟨_, ⟨hw, hr, _, hq⟩, _, _⟩ := hinv
  have hcopy := RB.readerCopy_lt sy hw hq
  exact ringDistance_next_right hm hcopy hr (Nat.pos_of_ne_zero ((RB.empty_eq_false_iff sy r).mp hempty))

/-- A read shows in the writer's view at once only without a synchroniser. -/
theorem RB.pop_free (hempty : r.empty sy = false) :
    r.pop.free sy = r.free sy + if sy = 0 then 1 else 0 := by
  rw [RB.free, RB.free, RB.pop_cap]
  split
  · next h =>
    subst h
    have hcount := RB.pop_count hinv haw hempty
    obtain ⟨_, _, ⟨_, _, hcap⟩, _⟩ := hinv
    rw [RB.wcount_of_depth_zero] at hcap
    rw [RB.wcount_of_depth_zero, RB.wcount_of_depth_zero]
    omega
  · next h => rw [RB.pop_wcount_of_depth h, Nat.add_zero]

end

/-! ### An empty ring (spec/40_ring_buffer.md R106) -/

theorem RB.init_cap (r : RB) (k : BitVec 5) : (r.init k).cap = 2 ^ k.toNat := rfl

@[simp] theorem RB.init_writerCopy (sy : Nat) (r : RB) (k : BitVec 5) : (r.init k).writerCopy sy = 0 := by
  simp [RB.writerCopy]

@[simp] theorem RB.init_readerCopy (sy : Nat) (r : RB) (k : BitVec 5) : (r.init k).readerCopy sy = 0 := by
  simp [RB.readerCopy]

theorem ringDistance_zero (m : Nat) : ringDistance m 0 0 = 0 := by simp [ringDistance]

theorem RB.init_count (r : RB) (k : BitVec 5) : (r.init k).count = 0 := ringDistance_zero _

theorem RB.init_wcount (sy : Nat) (r : RB) (k : BitVec 5) : (r.init k).wcount sy = 0 := by
  rw [RB.wcount, RB.init_writerCopy, RB.init_wbin, ringDistance_zero]

theorem RB.init_rcount (sy : Nat) (r : RB) (k : BitVec 5) : (r.init k).rcount sy = 0 := by
  rw [RB.rcount, RB.init_readerCopy, RB.init_rbin, ringDistance_zero]

theorem RB.init_empty (sy : Nat) (r : RB) (k : BitVec 5) : (r.init k).empty sy = true := by
  simp [RB.empty, RB.init_rcount]

theorem RB.init_full (sy : Nat) (r : RB) (k : BitVec 5) : (r.init k).full sy = false := by
  rw [RB.full_eq_false_iff, RB.init_wcount]
  exact (r.init k).cap_pos.ne

/-! ### The gray code (spec/40_ring_buffer.md R101) -/

theorem bin2gray_xor {w : Nat} (a b : BitVec w) : bin2gray (a ^^^ b) = bin2gray a ^^^ bin2gray b := by
  simp only [bin2gray, BitVec.ushiftRight_xor_distrib]
  ac_rfl

theorem bin2gray_toNat {w : Nat} (b : BitVec w) : (bin2gray b).toNat = b.toNat ^^^ (b.toNat / 2) := by
  simp [bin2gray, Nat.shiftRight_eq_div_pow]

/-- A value is its own half only where it is 0. -/
theorem eq_zero_of_bin2gray {w : Nat} {b : BitVec w} (h : bin2gray b = 0) : b = 0 := by
  have hn : b.toNat ^^^ (b.toNat / 2) = 0 := by
    rw [← bin2gray_toNat, h]
    rfl
  have hhalf : b.toNat = b.toNat / 2 := Nat.xor_eq_zero_iff.mp hn
  exact BitVec.eq_of_toNat_eq (by simp; omega)

theorem bin2gray_inj {w : Nat} {a b : BitVec w} : bin2gray a = bin2gray b ↔ a = b := by
  refine ⟨fun h => ?_, congrArg bin2gray⟩
  have hz : bin2gray (a ^^^ b) = 0 := by
    rw [bin2gray_xor, h]
    exact BitVec.xor_self
  exact BitVec.xor_eq_zero_iff.mp (eq_zero_of_bin2gray hz)

theorem natCast_one_shiftLeft (w k : Nat) : ((1 <<< k : Nat) : BitVec w) = BitVec.twoPow w k := by
  apply BitVec.eq_of_toNat_eq
  rw [Nat.one_shiftLeft, BitVec.toNat_twoPow]
  rfl

/-- The mask of R121: the top two bits of width `k + 1`, at `k = 0` the one bit, are the gray code of the top bit. -/
theorem inverted_eq_bin2gray_twoPow (k : Nat) :
    (if k = 0 then 1 else (1 <<< k) ||| (1 <<< (k - 1)) : BitVec (k + 1)) = bin2gray (BitVec.twoPow (k + 1) k) := by
  cases k with
  | zero => decide
  | succ k =>
    rw [if_neg k.succ_ne_zero, Nat.add_sub_cancel, natCast_one_shiftLeft, natCast_one_shiftLeft, bin2gray]
    ext j hj
    simp only [BitVec.getElem_or, BitVec.getElem_xor, BitVec.getElem_ushiftRight, BitVec.getElem_twoPow,
      BitVec.getLsbD_twoPow]
    by_cases h : j = k + 1
    · simp [h]
    · simp [h]
      omega

/-- Inverting the bit of weight `2^k` of a number below `2^(k+1)` is adding that weight on the circle. -/
theorem xor_two_pow_top {k x : Nat} (hx : x < 2 * 2 ^ k) : x ^^^ 2 ^ k = (x + 2 ^ k) % (2 * 2 ^ k) := by
  have hmod : (x ^^^ 2 ^ k) % 2 ^ k = x % 2 ^ k := by
    rw [Nat.xor_mod_two_pow, Nat.mod_self, Nat.xor_zero]
  have hdiv : (x ^^^ 2 ^ k) / 2 ^ k = (x / 2 ^ k) ^^^ 1 := by
    rw [Nat.xor_div_two_pow, Nat.div_self (Nat.two_pow_pos k)]
  have hy := Nat.div_add_mod (x ^^^ 2 ^ k) (2 ^ k)
  rw [hmod, hdiv] at hy
  obtain hlow | hhigh := Nat.lt_or_ge x (2 ^ k)
  · rw [Nat.div_eq_of_lt hlow, Nat.mod_eq_of_lt hlow] at hy
    rw [← hy, Nat.mod_eq_of_lt (by omega), Nat.zero_xor]
    omega
  · have h1 : x / 2 ^ k = 1 := by rw [Nat.div_eq_iff (by omega)]; omega
    have h2 : x % 2 ^ k = x - 2 ^ k := by rw [Nat.mod_eq_sub_mod hhigh, Nat.mod_eq_of_lt (by omega)]
    rw [h1, h2] at hy
    rw [← hy, Nat.mod_eq_sub_mod (by omega), Nat.mod_eq_of_lt (by omega), Nat.xor_self]
    omega

/-- On the circle a point lies the capacity ahead of another where it is the other's opposite. -/
theorem ringDistance_eq_cap_iff {r : RB} {a b : BitVec 16} (ha : a.toNat < r.modulus) (hb : b.toNat < r.modulus) :
    ringDistance r.modulus a b = r.cap ↔ a.toNat = b.toNat ^^^ r.cap := by
  have hmod := r.modulus_eq
  have hxor : b.toNat ^^^ r.cap = (b.toNat + r.cap) % r.modulus := hmod ▸ xor_two_pow_top (hmod ▸ hb)
  rw [ringDistance_eq ha hb, hxor]
  obtain hlow | hhigh := Nat.lt_or_ge (b.toNat + r.cap) r.modulus
  · rw [Nat.mod_eq_of_lt hlow]
    split <;> omega
  · rw [Nat.mod_eq_sub_mod hhigh, Nat.mod_eq_of_lt (by omega)]
    split <;> omega

theorem ringDistance_eq_zero_iff {m : Nat} {a b : BitVec 16} (ha : a.toNat < m) (hb : b.toNat < m) :
    ringDistance m a b = 0 ↔ a = b := by
  rw [ringDistance_eq ha hb, ← BitVec.toNat_inj]
  split <;> omega

/-- The width of a gray code holds every pointer below the modulus. -/
theorem RB.setWidth_toNat {r : RB} {a : BitVec 16} (ha : a.toNat < r.modulus) :
    (a.setWidth (r.k.toNat + 1)).toNat = a.toNat := by
  rw [BitVec.toNat_setWidth]
  exact Nat.mod_eq_of_lt ha

theorem RB.grayOf_inj {r : RB} {a b : BitVec 16} (ha : a.toNat < r.modulus) (hb : b.toNat < r.modulus) :
    r.grayOf a = r.grayOf b ↔ a = b := by
  rw [RB.grayOf, RB.grayOf, bin2gray_inj, ← BitVec.toNat_inj, RB.setWidth_toNat ha, RB.setWidth_toNat hb,
    BitVec.toNat_inj]

/-- Both comparisons say that the writer's pointer is the copy with its top bit inverted. -/
theorem RB.fullGray_eq_full {sy : Nat} {r : RB} (hw : r.wbin.toNat < r.modulus)
    (hc : (r.writerCopy sy).toNat < r.modulus) : r.fullGray sy = r.full sy := by
  have hcap : 2 ^ r.k.toNat < 2 ^ (r.k.toNat + 1) := Nat.pow_lt_pow_succ (by decide)
  have hflag : r.full sy = true ↔ r.wbin.toNat = (r.writerCopy sy).toNat ^^^ r.cap := by
    rw [RB.full, beq_iff_eq, RB.wcount, ringDistance_eq_cap_iff hw hc]
  have hcode : r.fullGray sy = true ↔ r.wbin.toNat = (r.writerCopy sy).toNat ^^^ r.cap := by
    rw [RB.fullGray, beq_iff_eq, RB.grayOf, RB.grayOf, inverted_eq_bin2gray_twoPow, ← bin2gray_xor, bin2gray_inj,
      ← BitVec.toNat_inj, BitVec.toNat_xor, BitVec.toNat_twoPow, RB.setWidth_toNat hw, RB.setWidth_toNat hc,
      Nat.mod_eq_of_lt hcap, RB.cap]
  rw [Bool.eq_iff_iff, hcode, hflag]

/-- Both comparisons say that the two pointers are equal. -/
theorem RB.emptyGray_eq_empty {sy : Nat} {r : RB} (hr : r.rbin.toNat < r.modulus)
    (hc : (r.readerCopy sy).toNat < r.modulus) : r.emptyGray sy = r.empty sy := by
  have hflag : r.empty sy = true ↔ r.readerCopy sy = r.rbin := by
    rw [RB.empty, beq_iff_eq, RB.rcount, ringDistance_eq_zero_iff hc hr]
  have hcode : r.emptyGray sy = true ↔ r.rbin = r.readerCopy sy := by
    rw [RB.emptyGray, beq_iff_eq, RB.grayOf_inj hr hc]
  rw [Bool.eq_iff_iff, hcode, hflag, eq_comm]

end Sys2Proof.Machine

/-! # The statements about the RB bank -/

namespace Sys2Proof.Machine

/-! ### The register words as numbers (spec/40_ring_buffer.md R116 to R120) -/

theorem bit1_toNat (b : Bool) : (bit1 b).toNat = if b = true then 1 else 0 := by cases b <;> rfl

/-- `zext_32` of a byte (R115). -/
theorem zext_toNat (b : Byte) : (b.setWidth 32).toNat = b.toNat := BitVec.toNat_setWidth_of_le (by decide)

theorem toNat_append_eq_add {m n : Nat} (a : BitVec m) (b : BitVec n) :
    (a ++ b).toNat = a.toNat * 2 ^ n + b.toNat := by
  rw [BitVec.toNat_append, ← Nat.shiftLeft_add_eq_or_of_lt b.isLt, Nat.shiftLeft_eq]

/-- The layout of both status words: a level in the upper half, a flag in the lowest bit. -/
theorem levelFlagWord_toNat {n : Nat} (hn : n < 65536) (b : Bool) :
    (BitVec.ofNat 16 n ++ 0#15 ++ bit1 b : BitVec (16 + 15 + 1)).toNat = n * 65536 + if b = true then 1 else 0 := by
  rw [toNat_append_eq_add, toNat_append_eq_add, bit1_toNat, BitVec.toNat_ofNat, Nat.mod_eq_of_lt hn]
  simp
  omega

section
variable {r : RB} (hk : r.k.toNat ≤ 15)
include hk

theorem RB.cap_le : r.cap ≤ 32768 := Nat.pow_le_pow_right (by omega) hk

theorem RB.wstatWord_toNat (sy : Nat) :
    (r.wstatWord sy).toNat = (r.cap - r.wcount sy) * 65536 + if r.wcount sy = r.cap then 1 else 0 := by
  have hcap := RB.cap_le hk
  have h := levelFlagWord_toNat (show r.free sy < 65536 by rw [RB.free]; omega) (r.full sy)
  rw [RB.wstatWord]
  simpa [RB.full, RB.free] using h

theorem RB.rstatWord_toNat (sy : Nat) :
    (r.rstatWord sy).toNat = r.rcount sy * 65536 + if r.rcount sy = 0 then 1 else 0 := by
  have hlt : r.rcount sy < r.modulus := ringDistance_lt r.modulus_pos _ _
  have h := levelFlagWord_toNat (lt_of_lt_of_le hlt (RB.modulus_le hk)) (r.empty sy)
  rw [RB.rstatWord]
  simpa [RB.empty, RB.avail] using h

theorem RB.capWord_toNat : r.capWord.toNat = 2 ^ r.k.toNat * 256 + r.k.toNat := by
  have hcap : r.cap < 2 ^ 24 := lt_of_le_of_lt (RB.cap_le hk) (by decide)
  have h : (BitVec.ofNat 24 r.cap ++ 0#3 ++ r.k : BitVec (24 + 3 + 5)).toNat = r.cap * 256 + r.k.toNat := by
    rw [toNat_append_eq_add, toNat_append_eq_add, BitVec.toNat_ofNat, Nat.mod_eq_of_lt hcap]
    simp
    omega
  exact h

theorem RB.grayWord_toNat {a : BitVec 16} (ha : a.toNat < r.modulus) :
    ((r.grayOf a).setWidth 32).toNat = a.toNat ^^^ (a.toNat / 2) := by
  have hgray : (r.grayOf a).toNat = a.toNat ^^^ (a.toNat / 2) := by
    rw [RB.grayOf, bin2gray_toNat, RB.setWidth_toNat ha]
  have hlt : (r.grayOf a).toNat < r.modulus := (r.grayOf a).isLt
  have hm := RB.modulus_le hk
  rw [BitVec.toNat_setWidth, Nat.mod_eq_of_lt (by omega), hgray]

end

/-- Settles O25: the mask of R121 is the gray code of the capacity, and the code is injective. -/
theorem grayComparisonsAreTheFlags : Obligations.GrayComparisonsAreTheFlags :=
  fun sy _ _ hw hr hwq hrq =>
    ⟨RB.fullGray_eq_full hw (RB.writerCopy_lt sy hr hwq), RB.emptyGray_eq_empty hr (RB.readerCopy_lt sy hw hrq)⟩

/-- Settles O20: the row of `RB.INIT`, its two faults, and the ring it leaves. -/
theorem ringInitEmptiesTheRing : Obligations.RingInitEmptiesTheRing := by
  refine ⟨performs_rbInit, fun s i k =>
    ⟨fun habsent => exec_of_not_wf (instanceExists_of_le habsent), fun hi hk => exec_rbInit_above hi hk, ?_⟩⟩
  intro hwf hi hk
  obtain ⟨_, _, _, _, haw, _⟩ := hwf
  have hk5 : (k.setWidth 5).toNat = k.toNat := by
    rw [BitVec.toNat_setWidth]
    exact Nat.mod_eq_of_lt (by omega)
  refine ⟨_, exec_rbInit hi hk, ?_⟩
  simp only [State.ring_setRing_self, RB.init_k, RB.init_cap, hk5, RB.init_wbin, RB.init_rbin, RB.init_wqR, RB.init_rqW,
    RB.init_mem, RB.init_count, RB.init_empty, RB.init_full, and_self]

/-- Settles O21: the row of `RB.WRITE`, its two faults, and what the write does to the storage, the pointer and the
views. -/
theorem ringWriteStoresOneByte : Obligations.RingWriteStoresOneByte := by
  refine ⟨performs_rbWrite, fun s i b =>
    ⟨fun habsent => exec_of_not_wf (instanceExists_of_le habsent), fun hi hfull => exec_rbWrite_full hi b hfull, ?_⟩⟩
  intro hwf hi hinv hfull
  obtain ⟨_, _, _, _, haw, _⟩ := hwf
  refine ⟨_, exec_rbWrite hi b hfull, ?_⟩
  rw [State.ring_setRing_self]
  exact ⟨rfl, rfl, RB.push_wbin_toNat hinv haw b, RB.push_count hinv haw hfull b, RB.push_free hinv haw hfull b,
    RB.push_avail hinv haw hfull b, Memory.read_write_self _ _ _, fun a ha => Memory.read_write_ne _ _ ha⟩

/-- Settles O22: the row of `RB.READ`, its two faults, and what the read answers and does to the pointer and the
views. -/
theorem ringReadTakesOneByte : Obligations.RingReadTakesOneByte := by
  refine ⟨performs_rbRead, fun s i =>
    ⟨fun habsent => exec_of_not_wf (instanceExists_of_le habsent), fun hi hempty => exec_rbRead_empty hi hempty, ?_⟩⟩
  intro hwf hi hinv hempty
  obtain ⟨_, _, _, _, haw, _⟩ := hwf
  refine ⟨_, exec_rbRead hi hempty, ?_⟩
  rw [State.ring_answer, State.ring_setRing_self, answer_rdata]
  refine ⟨rfl, rfl, RB.pop_rbin_toNat hinv haw, RB.pop_count hinv haw hempty, RB.pop_avail hinv haw hempty,
    RB.pop_free hinv haw hempty, ?_, fun b hb => ?_⟩
  · rw [zext_toNat]
    exact BitVec.isLt _
  · rw [zext_toNat, RB.front, RB.readSlot, hb, Option.getD_some]

/-- Settles O23: the rows of the five reads, their fault, and their words as numbers. -/
theorem ringRegistersRead : Obligations.RingRegistersRead := by
  refine ⟨fun i => ⟨performs_rbWstat i, performs_rbRstat i, performs_rbCap i, performs_rbWptr i, performs_rbRptr i⟩,
    fun s i => ⟨fun habsent => ?_, fun hi hk hw hr => ?_⟩⟩
  · have hnot := instanceExists_of_le habsent
    exact ⟨exec_of_not_wf hnot, exec_of_not_wf hnot, exec_of_not_wf hnot, exec_of_not_wf hnot, exec_of_not_wf hnot⟩
  · exact ⟨⟨_, exec_rbWstat hi, RB.wstatWord_toNat hk _⟩, ⟨_, exec_rbRstat hi, RB.rstatWord_toNat hk _⟩,
      ⟨_, exec_rbCap hi, RB.capWord_toNat hk⟩, ⟨_, exec_rbWptr hi, RB.grayWord_toNat hk hw⟩,
      ⟨_, exec_rbRptr hi, RB.grayWord_toNat hk hr⟩⟩

end Sys2Proof.Machine

/-! # The words of the interrupt controller

A row of format ITC tests the whole header, so it performs its own primitive at that header alone; a row of format VEC
leaves the five bits free that name a source, and performs its primitive for every source. -/

namespace Sys2Proof.Machine

/-! ### The words of format ITC (spec/30_encoding.md R82, R84) -/

/-- The one row of a list that selects a header is the one the search finds. -/
theorem find_of_unique {l : List Row} {r : Row} {h : Header} (hr : r ∈ l) (hs : r.selects h = true)
    (hu : ∀ q ∈ l, q.selects h = true → q = r) : l.find? (fun q => q.selects h) = some r := by
  cases hf : l.find? (fun q => q.selects h) with
  | none => exact absurd hs (List.find?_eq_none.mp hf r hr)
  | some q =>
    have hq : q.selects h = true := List.find?_some (p := fun q : Row => q.selects h) hf
    rw [hu q (List.mem_of_find?_eq_some hf) hq]

theorem itcRows_pats_nodup : (itcRows.map Row.pat).Nodup := by decide

theorem selects_itcRow_iff {r : Row} (hr : r ∈ itcRows) (h : Header) : r.selects h = true ↔ h = r.pat := by
  obtain ⟨hmask, _⟩ := itcRows_registers r hr
  rw [selects_iff, hmask, show (0xFFFF : Header) = BitVec.allOnes 16 from rfl, BitVec.and_allOnes]

theorem find_itcRow {r : Row} (hr : r ∈ itcRows) : rows.find? (fun q => q.selects r.pat) = some r := by
  have hfirst : itcRows.find? (fun q => q.selects r.pat) = some r :=
    find_of_unique hr ((selects_itcRow_iff hr _).mpr rfl) fun q hq hs =>
      List.inj_on_of_nodup_map itcRows_pats_nodup hq hr ((selects_itcRow_iff hq _).mp hs).symm
  simp only [rows, List.find?_append, hfirst, Option.some_or]

/-- The header of a row of format ITC is that row's primitive; the rows are numbered as R84 lists them. -/
theorem performs_itcRow (j : Nat) (hj : j < itcRows.length := by decide) :
    Performs itcRows[j].pat (itcRows[j].build itcRows[j].pat) := by
  intro P d
  rw [decode_commandWord, decodeParts_of_find (find_itcRow (List.getElem_mem hj))]

theorem dataThreshold_eq_setWidth (d : Word) : dataThreshold d = d.setWidth 6 := by
  apply BitVec.eq_of_toNat_eq
  simp [dataThreshold]

theorem performs_itcNimaskW : Performs 0x8004 (fun d => .itcNimaskW (d.setWidth 6)) := by
  simp only [← dataThreshold_eq_setWidth]
  exact performs_itcRow 2

/-! ### The words of format VEC (spec/30_encoding.md R82, R84) -/

theorem vecRows_pats_nodup : (vecRows.map Row.pat).Nodup := by decide

/-- A source's number lies outside the bits that a row of format VEC tests, and in those the row reads it from. -/
theorem vecRows_atSource : ∀ r ∈ vecRows, ∀ x : BitVec 5,
    atSource r.pat x &&& 0xFF83 = r.pat ∧ Header.source (atSource r.pat x) = x := by
  decide

/-- No header of format ITC is one of format VEC. -/
theorem itcRows_pats_ne_vecRows : ∀ q ∈ itcRows, ∀ r ∈ vecRows, q.pat &&& 0xFF83 ≠ r.pat := by decide

theorem find_atSource {r : Row} (hr : r ∈ vecRows) (x : BitVec 5) :
    rows.find? (fun q => q.selects (atSource r.pat x)) = some r := by
  obtain ⟨hx, _⟩ := vecRows_atSource r hr x
  have hsel : ∀ q ∈ vecRows, (q.selects (atSource r.pat x) = true ↔ r.pat = q.pat) := fun q hq => by
    obtain ⟨hmask, _⟩ := vecRows_registers q hq
    rw [selects_iff, hmask, hx]
  have hitc : ∀ q ∈ itcRows, ¬ q.selects (atSource r.pat x) = true := fun q hq hs => by
    rw [selects_itcRow_iff hq] at hs
    exact itcRows_pats_ne_vecRows q hq r hr (hs ▸ hx)
  have hvec : vecRows.find? (fun q => q.selects (atSource r.pat x)) = some r :=
    find_of_unique hr ((hsel r hr).mpr rfl) fun q hq hs =>
      List.inj_on_of_nodup_map vecRows_pats_nodup hq hr ((hsel q hq).mp hs).symm
  simp only [rows, List.find?_append, List.find?_eq_none.mpr hitc, hvec, Option.none_or, Option.some_or]

/-- A row of format VEC performs, for every source, the instruction it builds. -/
theorem performs_of_vecRow {r : Row} (hr : r ∈ vecRows) {f : BitVec 5 → Word → Instr}
    (hf : ∀ h d, r.build h d = f (Header.source h) d) (x : BitVec 5) : Performs (atSource r.pat x) (f x) := by
  intro P d
  obtain ⟨_, hsource⟩ := vecRows_atSource r hr x
  rw [decode_commandWord, decodeParts_of_find (find_atSource hr x), hf, hsource]

theorem performs_itcSetHandler (x : BitVec 5) : Performs (atSource 0x8100 x) (.itcSetHandler x) :=
  performs_of_vecRow (r := vecRows[0]) (f := Instr.itcSetHandler) (List.getElem_mem _) (fun _ _ => rfl) x

theorem performs_itcVectR (x : BitVec 5) : Performs (atSource 0x0100 x) (fun _ => .itcVectR x) :=
  performs_of_vecRow (r := vecRows[1]) (f := fun x _ => .itcVectR x) (List.getElem_mem _) (fun _ _ => rfl) x

end Sys2Proof.Machine

/-! # The sources and the arbiter, bit by bit

What one source's bit is in each register and each live view of the controller, and what the arbiter answers of a set of
sources given by its bits. -/

namespace Sys2Proof.Machine

/-! ### The check of a source operand (spec/41_interrupt_controller.md R161) -/

theorem withSource_of_present {s : State} {n : Word} (hn : n.toNat < s.params.nsrc) (f : Nat → State) :
    withSource s n f = .next (f n.toNat) :=
  if_pos hn

theorem withSource_of_absent {s : State} {n : Word} (hn : s.params.nsrc ≤ n.toNat) (f : Nat → State) :
    withSource s n f = .fault .badSource :=
  if_neg (by omega)

theorem withVector_of_present {s : State} {x : BitVec 5} (hx : x.toNat < s.params.nsrc) (f : Unit → Answered) :
    withVector s x f = f () :=
  if_pos hx

theorem sourceExists_of_le {P : Params} {x : BitVec 5} (hx : P.nsrc ≤ x.toNat) : sourceExists P x = false :=
  decide_eq_false (by omega)

/-! ### The commands on an existing source (spec/41_interrupt_controller.md R138 to R141, R150, R151, R158) -/

section
variable {s : State} {n : Word} (hn : n.toNat < s.params.nsrc)
include hn

theorem exec_itcEnableInt : exec (.itcEnableInt n) s =
    .next (s.setItc { s.itc with intenable := putBit s.itc.intenable n.toNat true }) := by
  rw [exec, execItcEnableInt, withSource_of_present hn]

theorem exec_itcDisableInt : exec (.itcDisableInt n) s =
    .next (s.setItc { s.itc with intenable := putBit s.itc.intenable n.toNat false }) := by
  rw [exec, execItcDisableInt, withSource_of_present hn]

theorem exec_itcSetFast : exec (.itcSetFast n) s =
    .next (s.setItc { s.itc with inttype := 1#32 <<< n.toNat }) := by
  rw [exec, execItcSetFast, withSource_of_present hn]

theorem exec_itcSetNormal : exec (.itcSetNormal n) s =
    .next (s.setItc { s.itc with inttype := putBit s.itc.inttype n.toNat false }) := by
  rw [exec, execItcSetNormal, withSource_of_present hn]

theorem exec_itcForceInt : exec (.itcForceInt n) s =
    .next (s.setItc { s.itc with intfrc := putBit s.itc.intfrc n.toNat true }) := by
  rw [exec, execItcForceInt, withSource_of_present hn]

theorem exec_itcUnforceInt : exec (.itcUnforceInt n) s =
    .next (s.setItc { s.itc with intfrc := putBit s.itc.intfrc n.toNat false }) := by
  rw [exec, execItcUnforceInt, withSource_of_present hn]

theorem exec_itcClearHandler : exec (.itcClearHandler n) s =
    .next (s.setItc { s.itc with vecvalid := putBit s.itc.vecvalid n.toNat false }) := by
  rw [exec, execItcClearHandler, withSource_of_present hn]

end

/-! ### The handler table on an existing source (spec/41_interrupt_controller.md R159, R160) -/

section
variable {s : State} {x : BitVec 5} (hx : x.toNat < s.params.nsrc)
include hx

theorem exec_itcSetHandler (h : Word) : exec (.itcSetHandler x h) s =
    .next (s.setItc { s.itc with
      vect := s.itc.vect.set x.toNat h x.isLt
      vecvalid := putBit s.itc.vecvalid x.toNat true }) := by
  rw [exec, execItcSetHandler, withVector_of_present hx]

theorem exec_itcVectR_valid (hv : s.itc.vecvalid.getLsbD x.toNat = true) :
    exec (.itcVectR x) s = .next (answer s (s.vect x)) := by
  rw [exec, execItcVectR, withVector_of_present hx, if_pos hv]

theorem exec_itcVectR_invalid (hv : s.itc.vecvalid.getLsbD x.toNat = false) :
    exec (.itcVectR x) s = .next (answer s.drawn s.freeWord) := by
  rw [exec, execItcVectR, withVector_of_present hx, hv, if_neg Bool.false_ne_true]

end

theorem getElem_vect_set_self (c : Itc) (x : BitVec 5) (h : Word) :
    (c.vect.set x.toNat h x.isLt)[x.toNat]'x.isLt = h :=
  Vector.getElem_set_self _

theorem getElem_vect_set_ne (c : Itc) {x y : BitVec 5} (hy : y ≠ x) (h : Word) :
    (c.vect.set x.toNat h x.isLt)[y.toNat]'y.isLt = c.vect[y.toNat]'y.isLt :=
  Vector.getElem_set_ne _ _ fun e => hy (BitVec.eq_of_toNat_eq e.symm)

/-! ### One bit of a register (spec/10_state.md R24) -/

theorem putBit_true_getLsbD (v : Word) (n : Nat) {k : Nat} (hk : k < 32) :
    (putBit v n true).getLsbD k = (v.getLsbD k || k == n) := by
  rw [putBit_getLsbD v n k true hk]
  by_cases h : k = n <;> simp [h]

theorem putBit_false_getLsbD (v : Word) (n : Nat) {k : Nat} (hk : k < 32) :
    (putBit v n false).getLsbD k = (v.getLsbD k && k != n) := by
  rw [putBit_getLsbD v n k false hk]
  by_cases h : k = n <;> simp [h]

/-- A bit put to 0 is 0, also where the word has no such bit. -/
theorem putBit_false_getLsbD_self (v : Word) (n : Nat) : (putBit v n false).getLsbD n = false := by
  obtain hn | hn := Nat.lt_or_ge n 32
  · simp [putBit_false_getLsbD v n hn]
  · exact BitVec.getLsbD_of_ge _ _ hn

/-- The bits of the existing sources, as a write of a whole mask keeps them (R142, R148). -/
theorem and_sourceMask_getLsbD (v : Word) (P : Params) {k : Nat} (hk : k < 32) :
    (v &&& sourceMask P).getLsbD k = (v.getLsbD k && decide (k < P.nsrc)) := by
  rw [BitVec.getLsbD_and, sourceMask_getLsbD P k hk]

/-- `INTCNTL` as a number (R135). -/
theorem cntlImage_toNat (c : Itc) :
    (cntlImage c).toNat = (if c.nae then 1 else 0) + (if c.fae then 2 else 0) := by
  rw [cntlImage, toNat_append_eq_add, toNat_append_eq_add, bit1_toNat, bit1_toNat]
  cases c.fae <;> simp [Nat.add_comm]

/-! ### The raw lines (spec/42_uart_engine.md R181, spec/41_interrupt_controller.md R147) -/

/-- A port that is not wired to source `k` leaves its line. -/
theorem wirePort_getLsbD_of_ne {s : State} {p : Fin 4} {k : Nat} (hk : k < 32)
    (hp : p.val < s.params.nports → (s.params.uartSrc[p.val]).toNat ≠ k) (v : Word) :
    (wirePort s v p).getLsbD k = v.getLsbD k := by
  unfold wirePort
  split
  · next h => rw [putBit_getLsbD _ _ _ _ hk, if_neg (hp h).symm]
  · rfl

/-- The port wired to a source sets its line. -/
theorem wirePort_getLsbD_self {s : State} {p : Fin 4} (hp : p.val < s.params.nports) (v : Word) :
    (wirePort s v p).getLsbD (s.params.uartSrc[p.val]).toNat = (s.ports[p.val]).irq s.params := by
  rw [wirePort, if_pos hp, putBit_getLsbD _ _ _ _ (BitVec.isLt _), if_pos rfl]

theorem intsrc_getLsbD_of_unwired {s : State} {k : Nat} (hk : k < 32)
    (hne : ∀ p : Fin 4, p.val < s.params.nports → (s.params.uartSrc[p.val]).toNat ≠ k) :
    (intsrc s).getLsbD k = (s.srcLines.getLsbD k && decide (k < s.params.nsrc)) := by
  rw [intsrc, and_sourceMask_getLsbD _ _ hk]
  simp only [wirePort_getLsbD_of_ne hk (hne _)]

/-- No two ports are wired to one source, so none overwrites another's line. -/
theorem wirePort_getLsbD_wired {s : State} (hwf : s.params.wf) {q : Fin 4} (hq : q.val < s.params.nports)
    (p : Fin 4) (v : Word) :
    (wirePort s v p).getLsbD (s.params.uartSrc[q.val]).toNat =
      if p = q then (s.ports[q.val]).irq s.params else v.getLsbD (s.params.uartSrc[q.val]).toNat := by
  obtain ⟨_, _, _, hinj, _⟩ := hwf
  split
  · next h => rw [h, wirePort_getLsbD_self hq]
  · next h =>
    refine wirePort_getLsbD_of_ne (BitVec.isLt _) (fun hp e => ?_) v
    obtain ⟨hsrc, _⟩ := hinj p q hp hq h
    exact hsrc (BitVec.eq_of_toNat_eq e)

/-- The line of a wired source is its port's request: only that one of the four ports writes it. -/
theorem intsrc_getLsbD_wired {s : State} (hwf : s.params.wf) {q : Fin 4} (hq : q.val < s.params.nports) :
    (intsrc s).getLsbD (s.params.uartSrc[q.val]).toNat = (s.ports[q.val]).irq s.params := by
  have hwired := wirePort_getLsbD_wired hwf hq
  obtain ⟨_, _, hsrc, _⟩ := hwf
  rw [intsrc, and_sourceMask_getLsbD _ _ (BitVec.isLt _), decide_eq_true (hsrc q hq), Bool.and_true]
  simp only [hwired]
  fin_cases q <;> simp

/-! ### Pending sources (spec/41_interrupt_controller.md R131) -/

theorem pend_getLsbD (s : State) (k : Nat) :
    (pend s).getLsbD k =
      (((intsrc s).getLsbD k || s.itc.intfrc.getLsbD k) && s.itc.intenable.getLsbD k) := by
  rw [pend, BitVec.getLsbD_and, BitVec.getLsbD_or]

theorem nipend_getLsbD (s : State) {k : Nat} (hk : k < 32) :
    (nipend s).getLsbD k = ((pend s).getLsbD k && !s.itc.inttype.getLsbD k) := by
  rw [nipend, BitVec.getLsbD_and, BitVec.getLsbD_not, decide_eq_true hk, Bool.true_and]

theorem fipend_getLsbD (s : State) (k : Nat) :
    (fipend s).getLsbD k = ((pend s).getLsbD k && s.itc.inttype.getLsbD k) := by
  rw [fipend, BitVec.getLsbD_and]

theorem npass_getLsbD (s : State) {k : Nat} (hk : k < 32) : (npass s).getLsbD k = passes s k := by
  rw [npass, passes, BitVec.getLsbD_and, BitVec.getLsbD_shiftLeft, BitVec.getLsbD_allOnes]
  congr 1
  by_cases h : s.itc.prithr.toNat ≤ k <;> simp [h, hk]
  omega

/-- A source that is not enabled is not pending. -/
theorem pend_getLsbD_of_disabled {s : State} {k : Nat} (h : s.itc.intenable.getLsbD k = false) :
    (pend s).getLsbD k = false := by
  rw [pend_getLsbD, h, Bool.and_false]

/-- A forced source is pending exactly if it is enabled; beyond bit 31 neither register has a bit. -/
theorem pend_getLsbD_of_forced {s : State} {k : Nat} (h : k < 32 → s.itc.intfrc.getLsbD k = true) :
    (pend s).getLsbD k = s.itc.intenable.getLsbD k := by
  obtain hk | hk := Nat.lt_or_ge k 32
  · rw [pend_getLsbD, h hk, Bool.or_true, Bool.true_and]
  · rw [BitVec.getLsbD_of_ge _ _ hk, BitVec.getLsbD_of_ge _ _ hk]

section
variable {s : State}

theorem pend_eq_zero (h : s.itc.intenable = 0) : pend s = 0 := by
  rw [pend, h]
  exact BitVec.and_zero

theorem irqO_of_pend_eq_zero (h : pend s = 0) : irqO s = false := by simp [irqO, npass, nipend, h]

theorem fiqO_of_pend_eq_zero (h : pend s = 0) : fiqO s = false := by simp [fiqO, fipend, h]

end

/-! ### The arbiter (spec/41_interrupt_controller.md R131, R145, R146) -/

theorem highest_eq_some {v : Word} {k : Nat} (hk : k < 32) (hb : v.getLsbD k = true)
    (hz : ∀ j < 32, k < j → v.getLsbD j = false) : highest v = some k := by
  obtain ⟨_, hnone⟩ | ⟨m, hm, hm32, hmb, hmz⟩ := highest_cases v
  · simp [hnone k hk] at hb
  · obtain hlt | heq | hgt := Nat.lt_trichotomy k m
    · simp [hz m hm32 hlt] at hmb
    · rw [hm, heq]
    · simp [hmz k hk hgt] at hb

theorem highest_eq_none {v : Word} (hz : ∀ k < 32, v.getLsbD k = false) : highest v = none := by
  obtain ⟨hnone, _⟩ | ⟨m, _, hm, hb, _⟩ := highest_cases v
  · exact hnone
  · simp [hz m hm] at hb

theorem vectorImage_none : vectorImage none = 0x80000000 := rfl

theorem vectorImage_some : ∀ k < 32, vectorImage (some k) = BitVec.ofNat 32 k := by decide

/-- `NONE` is set exactly if the set of sources is empty. -/
theorem vectorImage_highest_eq_iff (v : Word) :
    vectorImage (highest v) = 0x80000000 ↔ ∀ k < 32, v.getLsbD k = false := by
  refine ⟨fun h => ?_, fun hz => by rw [highest_eq_none hz, vectorImage_none]⟩
  obtain ⟨_, hz⟩ | ⟨m, hm, hm32, _⟩ := highest_cases v
  · exact hz
  · rw [hm, vectorImage_some m hm32, ← BitVec.toNat_inj, BitVec.toNat_ofNat] at h
    change m % 2 ^ 32 = 0x80000000 at h
    omega

theorem ne_zero_iff_exists_getLsbD (v : Word) : v ≠ 0 ↔ ∃ k, k < 32 ∧ v.getLsbD k = true := by
  refine ⟨fun h => ?_, fun ⟨k, _, hb⟩ h0 => by simp [h0] at hb⟩
  by_contra hall
  exact h (BitVec.eq_of_getLsbD_eq fun k hk => by simpa using fun hb => hall ⟨k, hk, hb⟩)

/-- A read that answers the vector of a set of sources, the set given by its bits: it answers `0x8000_0000` exactly if
the set is empty, and else its highest member. -/
theorem vectorRead_of_bits {i : Instr} {s : State} {v : Word} {p : Nat → Bool}
    (hi : exec i s = .next (answer s (vectorImage (highest v)))) (hp : ∀ k < 32, v.getLsbD k = p k) :
    ((∀ k < 32, p k = false) → exec i s = .next (answer s 0x80000000)) ∧
    (∀ k < 32, p k = true → (∀ j < 32, k < j → p j = false) →
      exec i s = .next (answer s (BitVec.ofNat 32 k))) ∧
    ∃ w, exec i s = .next (answer s w) ∧ (w = 0x80000000 ↔ ∀ k < 32, p k = false) := by
  have hempty : vectorImage (highest v) = 0x80000000 ↔ ∀ k < 32, p k = false :=
    (vectorImage_highest_eq_iff v).trans (forall₂_congr fun k hk => by rw [hp k hk])
  refine ⟨fun hz => ?_, fun k hk hb hz => ?_, _, hi, hempty⟩
  · rw [hi, hempty.mpr hz]
  · have hmax : highest v = some k :=
      highest_eq_some hk ((hp k hk).trans hb) fun j hj hlt => (hp j hj).trans (hz j hj hlt)
    rw [hi, hmax, vectorImage_some k hk]

/-- A request line asserts exactly when its arbiter is enabled and its set of sources, given by its bits, is not
empty. -/
theorem request_iff_of_bits {v : Word} {p : Nat → Bool} (hp : ∀ k < 32, v.getLsbD k = p k) (en : Bool) :
    (en && decide (v ≠ 0)) = true ↔ en = true ∧ ∃ k, k < 32 ∧ p k = true := by
  rw [Bool.and_eq_true, decide_eq_true_iff, ne_zero_iff_exists_getLsbD]
  exact and_congr_right fun _ => exists_congr fun k => and_congr_right fun hk => by rw [hp k hk]

end Sys2Proof.Machine

/-! # The statements about the interrupt controller -/

namespace Sys2Proof.Machine

/-- Settles O9: each of the seven commands checks its source before it does anything. -/
theorem sourceOutOfRangeFaults : Obligations.SourceOutOfRangeFaults := by
  intro s n hn
  refine ⟨?_, ?_, ?_, ?_, ?_, ?_, ?_⟩ <;> (rw [exec]; exact withSource_of_absent hn _)

/-- Settles O10: the rows of the four writes, and the state each leaves. -/
theorem controlAndMaskRegisterWrites : Obligations.ControlAndMaskRegisterWrites := by
  refine ⟨performs_itcRow 0, performs_itcNimaskW, performs_itcRow 6, performs_itcRow 14, fun s => ?_⟩
  have hmask (m : Word) : ∀ k < 32, (m &&& sourceMask s.params).getLsbD k =
      (m.getLsbD k && decide (k < s.params.nsrc)) := fun _ hk => and_sourceMask_getLsbD m s.params hk
  exact ⟨fun v => ⟨_, rfl, rfl, rfl, rfl⟩, fun thr => ⟨_, rfl, rfl, rfl⟩, fun m => ⟨_, rfl, rfl, hmask m⟩,
    fun m => ⟨_, rfl, rfl, hmask m⟩⟩

/-- Settles O11: the rows of the seven reads; the two images that are no whole register, as numbers. -/
theorem storedItcRegistersRead : Obligations.StoredItcRegistersRead := by
  refine ⟨performs_itcRow 1, performs_itcRow 3, performs_itcRow 7, performs_itcRow 8, performs_itcRow 15,
    performs_itcRow 20, performs_itcRow 23, fun s => ?_⟩
  exact ⟨⟨_, rfl, cntlImage_toNat s.itc⟩, ⟨_, rfl, BitVec.toNat_setWidth_of_le (by decide)⟩, rfl, rfl, rfl, rfl, rfl⟩

/-- Settles O12: the rows of the four commands, their fault, and the one bit each changes. -/
theorem enableAndForceChangeOneBit : Obligations.EnableAndForceChangeOneBit := by
  refine ⟨performs_itcRow 4, performs_itcRow 5, performs_itcRow 16, performs_itcRow 17, fun s n =>
    ⟨fun hn => ?_, fun hn => ?_⟩⟩
  · obtain ⟨henable, hdisable, _, _, hforce, hunforce, _⟩ := sourceOutOfRangeFaults s n hn
    exact ⟨henable, hdisable, hforce, hunforce⟩
  · have hset (v : Word) : ∀ k < 32, (putBit v n.toNat true).getLsbD k = (v.getLsbD k || k == n.toNat) :=
      fun _ hk => putBit_true_getLsbD v n.toNat hk
    have hclear (v : Word) : ∀ k < 32, (putBit v n.toNat false).getLsbD k = (v.getLsbD k && k != n.toNat) :=
      fun _ hk => putBit_false_getLsbD v n.toNat hk
    refine ⟨⟨_, exec_itcEnableInt hn, rfl, hset _⟩, ⟨_, exec_itcDisableInt hn, rfl, ?_, hclear _⟩,
      ⟨_, exec_itcForceInt hn, rfl, ?_, hset _⟩, ⟨_, exec_itcUnforceInt hn, rfl, hclear _⟩⟩
    · exact pend_getLsbD_of_disabled (putBit_false_getLsbD_self s.itc.intenable n.toNat)
    · exact pend_getLsbD_of_forced fun h32 => by simp [hset _ _ h32]

/-- Settles O13: the rows of the two commands, their fault, and the selection each leaves. -/
theorem fastReplacesNormalClears : Obligations.FastReplacesNormalClears := by
  refine ⟨performs_itcRow 9, performs_itcRow 10, fun s n => ⟨fun hn => ?_, fun hn => ?_⟩⟩
  · obtain ⟨_, _, hfast, hnormal, _⟩ := sourceOutOfRangeFaults s n hn
    exact ⟨hfast, hnormal⟩
  · refine ⟨⟨_, exec_itcSetFast hn, rfl, fun k hk => ?_⟩, ⟨_, exec_itcSetNormal hn, rfl, fun k hk => ?_⟩⟩
    · rw [State.setItc_itc, one_shiftLeft_getLsbD, decide_eq_true hk, Bool.true_and]
    · exact putBit_false_getLsbD s.itc.inttype n.toNat hk

/-- Settles O14: the rows of the three reads; a line is the wired port's request or what `SRC` drives. -/
theorem pendingViewsRead : Obligations.PendingViewsRead := by
  refine ⟨performs_itcRow 13, performs_itcRow 18, performs_itcRow 19, fun s hwf => ?_⟩
  refine ⟨intsrc s, nipend s, fipend s, rfl, rfl, rfl, fun p hp => intsrc_getLsbD_wired hwf hp,
    fun k hk hne => intsrc_getLsbD_of_unwired hk hne, fun k hk => ⟨?_, ?_⟩⟩
  · rw [nipend_getLsbD s hk, pend_getLsbD]
  · rw [fipend_getLsbD, pend_getLsbD]

/-- Settles O15: the rows of the two reads; the arbiter on the set of passing normal sources and on that of pending
fast ones. -/
theorem vectorsNameTheHighestSource : Obligations.VectorsNameTheHighestSource := by
  refine ⟨performs_itcRow 11, performs_itcRow 12, fun s => ?_⟩
  have hpass : ∀ k < 32, (npass s).getLsbD k = passes s k := fun _ hk => npass_getLsbD s hk
  have hpend : ∀ k < 32, (fipend s).getLsbD k = (fipend s).getLsbD k := fun _ _ => rfl
  obtain ⟨hnone, hhighest, hread⟩ := vectorRead_of_bits (i := .itcNivectorR) (s := s) rfl hpass
  obtain ⟨hfnone, hfhighest, hfread⟩ := vectorRead_of_bits (i := .itcFivectorR) (s := s) rfl hpend
  exact ⟨hnone, hhighest, hread, hfnone, hfhighest, hfread, request_iff_of_bits hpass s.itc.nae,
    request_iff_of_bits hpend s.itc.fae⟩

/-- Settles O16: the rows of the two commands; a snapshot leaves nothing enabled, so nothing pending. -/
theorem criticalSectionSnapshotsAndRestores : Obligations.CriticalSectionSnapshotsAndRestores := by
  refine ⟨performs_itcRow 21, performs_itcRow 22, fun s => ⟨⟨_, rfl, rfl, ?_⟩, ⟨_, rfl, rfl, rfl⟩⟩⟩
  have hpend : pend (s.setItc { s.itc with intsave := s.itc.intenable, intenable := 0 }) = 0 := pend_eq_zero rfl
  exact ⟨hpend, irqO_of_pend_eq_zero hpend, fiqO_of_pend_eq_zero hpend, _, rfl, rfl, rfl, rfl⟩

/-- Settles O17: the rows of the three primitives, the two faults, and the slot and valid bit each touches. -/
theorem handlerTableSetClearRead : Obligations.HandlerTableSetClearRead := by
  refine ⟨performs_itcRow 24, fun x => ⟨performs_itcSetHandler x, performs_itcVectR x⟩, fun s =>
    ⟨fun x h => ⟨fun hx => ?_, fun hx => ⟨?_, ?_, ?_⟩⟩, fun n => ⟨fun hn => ?_, fun hn => ?_⟩⟩⟩
  · exact ⟨exec_of_not_wf (sourceExists_of_le hx), exec_of_not_wf (sourceExists_of_le hx)⟩
  · exact ⟨_, exec_itcSetHandler hx h, rfl, getElem_vect_set_self s.itc x h,
      fun _ hy => getElem_vect_set_ne s.itc hy h, fun _ hk => putBit_true_getLsbD s.itc.vecvalid x.toNat hk⟩
  · exact exec_itcVectR_valid hx
  · exact fun hv => ⟨_, exec_itcVectR_invalid hx hv⟩
  · obtain ⟨_, _, _, _, _, _, hclear⟩ := sourceOutOfRangeFaults s n hn
    exact hclear
  · exact ⟨_, exec_itcClearHandler hn, rfl, fun _ hk => putBit_false_getLsbD s.itc.vecvalid n.toNat hk⟩

end Sys2Proof.Machine

/-! # The UART registers on the bus

A header of a port names the port in two bits that the rows of format UART leave free, so a row of that format performs
its own primitive for every port; and each primitive, its port existing, is one operation on that port. -/

namespace Sys2Proof.Machine

/-! ### The words of format UART (spec/30_encoding.md R82, R86) -/

theorem uartRows_pats_nodup : (uartRows.map Row.pat).Nodup := by decide

/-- A port's number lies outside the bits that a row of format UART tests, and in those the row reads it from. -/
theorem uartRows_atPort : ∀ r ∈ uartRows, ∀ p : BitVec 2,
    atPort r.pat p &&& 0xCFFF = r.pat ∧ Header.port (atPort r.pat p) = p := by
  decide

theorem selects_uartRow_iff {r : Row} (hr : r ∈ uartRows) (h : Header) :
    r.selects h = true ↔ h &&& 0xCFFF = r.pat := by
  obtain ⟨hmask, _⟩ := uartRows_registers r hr
  rw [selects_iff, hmask]

/-- Every other format fixes the top bit of the unit to 0 (R82). -/
theorem rows_below_uart : ∀ r ∈ itcRows ++ vecRows ++ rbRows,
    r.mask.extractLsb' 14 1 = BitVec.allOnes 1 ∧ r.pat.extractLsb' 14 1 = 0 := by
  decide

/-- Only a row of format UART selects a header of a unit from 4 on (R81). -/
theorem mem_uartRows_of_unit {r : Row} {h : Header} (hr : r ∈ rows) (hs : r.selects h = true)
    (hu : h.extractLsb' 14 1 = 1) : r ∈ uartRows := by
  obtain hr | hr := List.mem_append.mp hr
  · obtain ⟨hmask, hpat⟩ := rows_below_uart r hr
    exact absurd (hu.symm.trans ((extractLsb'_of_selects hs hmask).trans hpat)) (by decide)
  · exact hr

theorem find_atPort {r : Row} (hr : r ∈ uartRows) (p : BitVec 2) :
    rows.find? (fun q => q.selects (atPort r.pat p)) = some r := by
  obtain ⟨hmask, htop, _⟩ := uartRows_registers r hr
  obtain ⟨hpat, _⟩ := uartRows_atPort r hr p
  have hself : r.selects (atPort r.pat p) = true := (selects_uartRow_iff hr _).mpr hpat
  have hunit : (atPort r.pat p).extractLsb' 14 1 = 1 :=
    (extractLsb'_of_selects hself (by rw [hmask]; decide)).trans htop
  refine find_of_unique (by simp [rows, hr]) hself fun q hq hs => ?_
  have hq : q ∈ uartRows := mem_uartRows_of_unit hq hs hunit
  exact List.inj_on_of_nodup_map uartRows_pats_nodup hq hr
    (((selects_uartRow_iff hq _).mp hs).symm.trans hpat)

/-- A row of format UART performs, for every port, the instruction it builds; the rows are numbered as R86 lists
them. -/
theorem performs_uartRow (j : Fin 19) {f : BitVec 2 → Word → Instr}
    (hf : ∀ h d, (uartRows.get j).build h d = f (Header.port h) d) (p : BitVec 2) :
    Performs (atPort (uartRows.get j).pat p) (f p) := by
  intro P d
  have hr : uartRows.get j ∈ uartRows := List.get_mem uartRows j
  obtain ⟨_, hport⟩ := uartRows_atPort _ hr p
  rw [decode_commandWord, decodeParts_of_find (find_atPort hr p), hf, hport]

/-- A read takes nothing from `DATA`. -/
theorem performs_uartRead (j : Fin 19) {c : BitVec 2 → Instr}
    (hc : ∀ h d, (uartRows.get j).build h d = c (Header.port h)) (p : BitVec 2) :
    Performs (atPort (uartRows.get j).pat p) (fun _ => c p) :=
  performs_uartRow j (f := fun p _ => c p) hc p

theorem dataDirections_eq_setWidth (d : Word) : dataDirections d = d.setWidth 2 := by
  apply BitVec.eq_of_toNat_eq
  simp [dataDirections]

/-- A command on a direction set takes the two lowest bits of `DATA` (R83). -/
theorem performs_uartDirections (j : Fin 19) {c : BitVec 2 → BitVec 2 → Instr}
    (hc : ∀ h d, (uartRows.get j).build h d = c (Header.port h) (dataDirections d)) (p : BitVec 2) :
    Performs (atPort (uartRows.get j).pat p) (fun d => c p (d.setWidth 2)) :=
  performs_uartRow j (f := fun p d => c p (d.setWidth 2))
    (fun h d => (hc h d).trans (congrArg _ (dataDirections_eq_setWidth d))) p

/-! ### The nineteen primitives on an existing port (spec/42_uart_engine.md R183 to R201) -/

/-- What `UART.CON.W` makes of its port: the fields of the image, then the abort of each engine whose enable falls. -/
def Port.writeCon (q : Port) (v : Word) : Port :=
  let q1 := q.setCon v
  let q2 := if q.txe && !v.getLsbD 0 then q1.abortTx else q1
  if q.rxe && !v.getLsbD 1 then q2.abortRx else q2

theorem withPort_of_present {s : State} {p : BitVec 2} (hp : p.toNat < s.params.nports)
    (f : Port → Answered) : withPort s p f = f (s.port p) :=
  if_pos hp

section
variable {s : State} {p : BitVec 2} (hp : p.toNat < s.params.nports)
include hp

theorem exec_uartConW (v : Word) :
    exec (.uartConW p v) s = .next (s.setPort p ((s.port p).writeCon v)) := by
  rw [exec, execUartConW, withPort_of_present hp, Port.writeCon]

theorem exec_uartConR : exec (.uartConR p) s = .next (answer s (conImage (s.port p))) := by
  rw [exec, execUartConR, withPort_of_present hp]

theorem exec_uartStatR : exec (.uartStatR p) s =
    .next (answer
      (s.setPort p { s.port p with fe := false, pe := false, oe := false, ue := false, toe := false })
      (statImage s.params (s.port p))) := by
  rw [exec, execUartStatR, withPort_of_present hp]

theorem exec_uartDataW_overrun (b : Byte) (h : (s.port p).txspace s.params = 0) :
    exec (.uartDataW p b) s = .next (s.setPort p { s.port p with toe := true }) := by
  rw [exec, execUartDataW, withPort_of_present hp, if_pos h]

theorem exec_uartDataW (b : Byte) (h : 0 < (s.port p).txspace s.params) :
    exec (.uartDataW p b) s = .next (s.setPort p { s.port p with hwtx := (s.port p).hwtx.push b }) := by
  rw [exec, execUartDataW, withPort_of_present hp, if_neg (Nat.ne_of_gt h)]

theorem exec_uartDataR_underrun (h : (s.port p).rxlevel s.params = 0) : exec (.uartDataR p) s =
    .next (answer (s.drawn.setPort p { s.port p with ue := true }) (s.freeByte.setWidth 32)) := by
  rw [exec, execUartDataR, withPort_of_present hp, if_pos h]

theorem exec_uartDataR (h : 0 < (s.port p).rxlevel s.params) : exec (.uartDataR p) s =
    .next (answer (s.drawn.setPort p { s.port p with hwrx := (s.port p).hwrx.pop })
      (((s.port p).hwrx.front s.freeByte).setWidth 32)) := by
  rw [exec, execUartDataR, withPort_of_present hp, if_neg (Nat.ne_of_gt h)]

theorem exec_uartRxconW (v : Word) :
    exec (.uartRxconW p v) s = .next (s.setPort p { s.port p with rxwm := watermarkField v }) := by
  rw [exec, execUartRxconW, withPort_of_present hp]

theorem exec_uartRxconR : exec (.uartRxconR p) s =
    .next (answer s (levelImage (s.port p).rxwm ((s.port p).rxlevel s.params))) := by
  rw [exec, execUartRxconR, withPort_of_present hp]

theorem exec_uartTxconW (v : Word) :
    exec (.uartTxconW p v) s = .next (s.setPort p { s.port p with txwm := watermarkField v }) := by
  rw [exec, execUartTxconW, withPort_of_present hp]

theorem exec_uartTxconR : exec (.uartTxconR p) s =
    .next (answer s (levelImage (s.port p).txwm ((s.port p).txspace s.params))) := by
  rw [exec, execUartTxconR, withPort_of_present hp]

theorem exec_uartBrW_enabled (v : Word) (h : (s.port p).txe = true ∨ (s.port p).rxe = true) :
    exec (.uartBrW p v) s = .fault .baudWhileEnabled := by
  rw [exec, execUartBrW, withPort_of_present hp, if_pos (Bool.or_eq_true_iff.mpr h)]

section
variable {v : Word} (htx : (s.port p).txe = false) (hrx : (s.port p).rxe = false)
include htx hrx

theorem exec_uartBrW_above (h : 0 < (modField v).toNat ∧ (modField v).toNat < (incField v).toNat) :
    exec (.uartBrW p v) s = .fault .badDivisor := by
  rw [exec, execUartBrW, withPort_of_present hp, if_neg (by simp [htx, hrx]), if_pos h]

theorem exec_uartBrW (h : ¬ (0 < (modField v).toNat ∧ (modField v).toNat < (incField v).toNat)) :
    exec (.uartBrW p v) s =
      .next (s.setPort p { s.port p with brMod := modField v, brInc := incField v, bacc := 0 }) := by
  rw [exec, execUartBrW, withPort_of_present hp, if_neg (by simp [htx, hrx]), if_neg h]

end

theorem exec_uartBrR : exec (.uartBrR p) s = .next (answer s (brImage (s.port p))) := by
  rw [exec, execUartBrR, withPort_of_present hp]

theorem exec_uartCbrxW (t : Word) :
    exec (.uartCbrxW p t) s = .next (s.setPort p { s.port p with ucbrx := t, cbvalidRx := true }) := by
  rw [exec, execUartCbrxW, withPort_of_present hp]

theorem exec_uartCbrxR : exec (.uartCbrxR p) s =
    .next (if (s.port p).cbvalidRx then answer s (s.port p).ucbrx else answer s.drawn s.freeWord) := by
  rw [exec, execUartCbrxR, withPort_of_present hp]

theorem exec_uartCbtxW (t : Word) :
    exec (.uartCbtxW p t) s = .next (s.setPort p { s.port p with ucbtx := t, cbvalidTx := true }) := by
  rw [exec, execUartCbtxW, withPort_of_present hp]

theorem exec_uartCbtxR : exec (.uartCbtxR p) s =
    .next (if (s.port p).cbvalidTx then answer s (s.port p).ucbtx else answer s.drawn s.freeWord) := by
  rw [exec, execUartCbtxR, withPort_of_present hp]

theorem exec_uartCbvalidR : exec (.uartCbvalidR p) s = .next (answer s (cbvalidImage (s.port p))) := by
  rw [exec, execUartCbvalidR, withPort_of_present hp]

theorem exec_uartCbclr (d : BitVec 2) : exec (.uartCbclr p d) s =
    .next (s.setPort p { s.port p with
      cbvalidTx := (s.port p).cbvalidTx && !d.getLsbD 0
      cbvalidRx := (s.port p).cbvalidRx && !d.getLsbD 1 }) := by
  rw [exec, execUartCbclr, withPort_of_present hp]

theorem exec_uartMaskset (d : BitVec 2) : exec (.uartMaskset p d) s =
    .next (s.setPort p { s.port p with
      mtxr := (s.port p).mtxr || d.getLsbD 0, mrxr := (s.port p).mrxr || d.getLsbD 1 }) := by
  rw [exec, execUartMaskset, withPort_of_present hp]

theorem exec_uartMaskclr (d : BitVec 2) : exec (.uartMaskclr p d) s =
    .next (s.setPort p { s.port p with
      mtxr := (s.port p).mtxr && !d.getLsbD 0, mrxr := (s.port p).mrxr && !d.getLsbD 1 }) := by
  rw [exec, execUartMaskclr, withPort_of_present hp]

end

end Sys2Proof.Machine

/-! # A port's control word, images, levels and masks

What `UART.CON.W` leaves of the two engines, the register images as numbers, the levels of the hardware FIFOs, and what
the masks say of the request. -/

namespace Sys2Proof.Machine

/-! ### The control word (spec/42_uart_engine.md R183, R225, R230) -/

/-- Beside the fields of `UCON`, a control write may touch only the engine registers that the aborts reset. -/
theorem Port.writeCon_frame (q : Port) (v : Word) :
    q.writeCon v = { q with
      txe := v.getLsbD 0, rxe := v.getLsbD 1, pen := v.getLsbD 2, eps := v.getLsbD 3, fce := v.getLsbD 4,
      mtxr := v.getLsbD 8, mrxr := v.getLsbD 9,
      txstate := (q.writeCon v).txstate, txdO := (q.writeCon v).txdO, txtick := (q.writeCon v).txtick,
      txbit := (q.writeCon v).txbit, rxstate := (q.writeCon v).rxstate, rxtick := (q.writeCon v).rxtick,
      rxbit := (q.writeCon v).rxbit, rxperr := (q.writeCon v).rxperr } := by
  unfold Port.writeCon
  cases q.txe && !v.getLsbD 0 <;> cases q.rxe && !v.getLsbD 1 <;> rfl

theorem falls_iff (a b : Bool) : (a = true ∧ b = false) ↔ (a && !b) = true := by simp

/-- The transmit engine is reset exactly if its enable falls. -/
theorem Port.writeCon_transmitter (q : Port) (v : Word) :
    if q.txe = true ∧ v.getLsbD 0 = false then
      (q.writeCon v).txstate = .idle ∧ (q.writeCon v).txdO = true ∧ (q.writeCon v).txtick = 0 ∧
        (q.writeCon v).txbit = 0
    else
      (q.writeCon v).txstate = q.txstate ∧ (q.writeCon v).txdO = q.txdO ∧
        (q.writeCon v).txtick = q.txtick ∧ (q.writeCon v).txbit = q.txbit := by
  unfold Port.writeCon
  simp only [falls_iff]
  cases q.txe && !v.getLsbD 0 <;> cases q.rxe && !v.getLsbD 1 <;> exact ⟨rfl, rfl, rfl, rfl⟩

/-- The receive engine is reset exactly if its enable falls. -/
theorem Port.writeCon_receiver (q : Port) (v : Word) :
    if q.rxe = true ∧ v.getLsbD 1 = false then
      (q.writeCon v).rxstate = .idle ∧ (q.writeCon v).rxtick = 0 ∧ (q.writeCon v).rxbit = 0 ∧
        (q.writeCon v).rxperr = false
    else
      (q.writeCon v).rxstate = q.rxstate ∧ (q.writeCon v).rxtick = q.rxtick ∧
        (q.writeCon v).rxbit = q.rxbit ∧ (q.writeCon v).rxperr = q.rxperr := by
  unfold Port.writeCon
  simp only [falls_iff]
  cases q.txe && !v.getLsbD 0 <;> cases q.rxe && !v.getLsbD 1 <;> exact ⟨rfl, rfl, rfl, rfl⟩

/-! ### The register images as numbers (spec/42_uart_engine.md R184, R185, R189, R191, R193, R198) -/

theorem bit1_toNat_eq (b : Bool) : (bit1 b).toNat = b.toNat := BitVec.toNat_ofBool b

theorem conImage_toNat (q : Port) :
    (conImage q).toNat = q.txe.toNat + 2 * q.rxe.toNat + 4 * q.pen.toNat + 8 * q.eps.toNat + 16 * q.fce.toNat
      + 256 * q.mtxr.toNat + 512 * q.mrxr.toNat := by
  rw [conImage]
  simp only [toNat_append_eq_add, bit1_toNat_eq, BitVec.toNat_ofNat]
  omega

theorem brImage_toNat (q : Port) : (brImage q).toNat = 65536 * q.brInc.toNat + q.brMod.toNat := by
  rw [brImage, toNat_append_eq_add]
  omega

theorem cbvalidImage_toNat (q : Port) :
    (cbvalidImage q).toNat = q.cbvalidTx.toNat + 2 * q.cbvalidRx.toNat := by
  rw [cbvalidImage]
  simp only [toNat_append_eq_add, bit1_toNat_eq, BitVec.toNat_ofNat]
  omega

theorem statImage_toNat (P : Params) (q : Port) :
    (statImage P q).toNat = q.fe.toNat + 2 * q.pe.toNat + 4 * q.oe.toNat + 8 * q.ue.toNat + 16 * q.toe.toNat
      + 64 * (q.txrdy P).toNat + 128 * (q.rxrdy P).toNat := by
  rw [statImage]
  simp only [toNat_append_eq_add, bit1_toNat_eq, BitVec.toNat_ofNat]
  omega

theorem levelImage_toNat (wm : BitVec 8) {level : Nat} (h : level < 256) :
    (levelImage wm level).toNat = wm.toNat * 256 + level := by
  rw [levelImage]
  simp only [toNat_append_eq_add, BitVec.toNat_ofNat]
  omega

/-! ### The fields of a written word (spec/10_state.md R25) -/

theorem watermarkField_toNat (v : Word) : (watermarkField v).toNat = v.toNat / 256 % 256 := by
  rw [watermarkField, BitVec.extractLsb'_toNat, Nat.shiftRight_eq_div_pow]

theorem modField_toNat (v : Word) : (modField v).toNat = v.toNat % 65536 := by
  rw [modField, BitVec.extractLsb'_toNat, Nat.shiftRight_zero]

theorem incField_toNat (v : Word) : (incField v).toNat = v.toNat / 65536 := by
  rw [incField, BitVec.extractLsb'_toNat, Nat.shiftRight_eq_div_pow]
  omega

/-! ### The levels of the hardware FIFOs (spec/42_uart_engine.md R182) -/

/-- A ring with a free slot in the writer's view is not full. -/
theorem RB.full_eq_false_of_free {sy : Nat} {r : RB} (h : 0 < r.free sy) : r.full sy = false := by
  rw [RB.free] at h
  rw [RB.full_eq_false_iff]
  omega

/-- A ring with a byte in the reader's view is not empty. -/
theorem RB.empty_eq_false_of_avail {sy : Nat} {r : RB} (h : 0 < r.avail sy) : r.empty sy = false :=
  (RB.empty_eq_false_iff sy r).mpr (Nat.ne_of_gt h)

/-- Both levels of a ring fit its storage. -/
theorem RB.levels_le_of_inv {aw sy : Nat} {r : RB} (h : r.Inv aw sy) : r.free sy ≤ 2 ^ aw ∧ r.avail sy ≤ 2 ^ aw := by
  obtain ⟨hk, _, ⟨hr, hc, hw⟩, _⟩ := h
  have hcap : r.cap ≤ 2 ^ aw := Nat.pow_le_pow_right (by omega) hk
  have havail : r.avail sy ≤ r.cap := hr.trans (hc.trans hw)
  exact ⟨(Nat.sub_le _ _).trans hcap, havail.trans hcap⟩

/-- Both levels of a port fit the eight bits of their fields. -/
theorem Port.levels_lt_of_inv {P : Params} (hwf : P.wf) {q : Port} (h : q.Inv P) :
    q.txspace P < 256 ∧ q.rxlevel P < 256 := by
  obtain ⟨_, _, _, _, _, ⟨_, haw⟩, _⟩ := hwf
  obtain ⟨htx, hrx, _⟩ := h
  have hdepth : 2 ^ P.hwfifoAw < 256 := lt_of_le_of_lt (Nat.pow_le_pow_right (by omega) haw) (by decide)
  obtain ⟨hspace, _⟩ := RB.levels_le_of_inv htx
  obtain ⟨_, hlevel⟩ := RB.levels_le_of_inv hrx
  exact ⟨lt_of_le_of_lt hspace hdepth, lt_of_le_of_lt hlevel hdepth⟩

theorem Params.hwfifoAw_le {P : Params} (hwf : P.wf) : P.hwfifoAw ≤ 15 := by
  obtain ⟨_, _, _, _, _, ⟨_, haw⟩, _⟩ := hwf
  omega

/-! ### The request and the masks (spec/42_uart_engine.md R181) -/

theorem Port.irq_of_masked {P : Params} {q : Port} (htx : q.mtxr = true) (hrx : q.mrxr = true) :
    q.irq P = false := by
  simp [Port.irq, htx, hrx]

theorem Port.irq_of_txrdy {P : Params} {q : Port} (hm : q.mtxr = false) (hr : q.txrdy P = true) :
    q.irq P = true := by
  simp [Port.irq, hm, hr]

theorem Port.irq_of_rxrdy {P : Params} {q : Port} (hm : q.mrxr = false) (hr : q.rxrdy P = true) :
    q.irq P = true := by
  simp [Port.irq, hm, hr]

/-- A named bit is set, an unnamed one stays. -/
theorem or_eq_ite (a b : Bool) : (a || b) = if b then true else a := by cases b <;> simp

/-- A named bit is cleared, an unnamed one stays. -/
theorem and_not_eq_ite (a b : Bool) : (a && !b) = if b then false else a := by cases b <;> simp

end Sys2Proof.Machine

/-! # The statements about the UART registers and the parity bit -/

namespace Sys2Proof.Machine

/-- Settles O30: the row of `UART.CON.W`, its frame, and the abort of each engine whose enable falls. -/
theorem controlWriteSetsFieldsAndAborts : Obligations.ControlWriteSetsFieldsAndAborts := by
  refine ⟨performs_uartRow 0 (fun _ _ => rfl), fun s p v hp => ⟨_, exec_uartConW hp v, ?_⟩⟩
  rw [State.port_setPort_self]
  exact ⟨rfl, Port.writeCon_frame _ v, Port.writeCon_transmitter _ v, Port.writeCon_receiver _ v⟩

/-- Settles O31: the rows of the three reads, and their images as numbers. -/
theorem uartStoredRegistersRead : Obligations.UartStoredRegistersRead := by
  refine ⟨fun p => ⟨performs_uartRead 1 (fun _ _ => rfl) p, performs_uartRead 10 (fun _ _ => rfl) p,
    performs_uartRead 15 (fun _ _ => rfl) p⟩, fun s p hp => ?_⟩
  exact ⟨⟨_, exec_uartConR hp, conImage_toNat _⟩, ⟨_, exec_uartBrR hp, brImage_toNat _⟩,
    ⟨_, exec_uartCbvalidR hp, cbvalidImage_toNat _⟩⟩

/-- Settles O32: the row of `UART.STAT.R`, the image as a number, and the flags cleared with it. -/
theorem statusReadAcknowledges : Obligations.StatusReadAcknowledges := by
  refine ⟨performs_uartRead 2 (fun _ _ => rfl), fun s p hp => ⟨_, exec_uartStatR hp, ?_⟩⟩
  rw [State.port_answer, State.port_setPort_self]
  exact ⟨rfl, rfl, statImage_toNat s.params (s.port p)⟩

/-- Settles O33: the row of `UART.DATA.W`; without space only `TOE`, with space a write of a ring that is not full. -/
theorem dataWriteFillsTheTransmitFifo : Obligations.DataWriteFillsTheTransmitFifo := by
  refine ⟨performs_uartRow 3 (fun _ _ => congrArg (Instr.uartDataW _) (dataByte_eq_setWidth _)),
    fun s p b hwf hp hinv => ⟨exec_uartDataW_overrun hp b, fun hspace => ⟨_, exec_uartDataW hp b hspace, ?_⟩⟩⟩
  have haw := Params.hwfifoAw_le hwf
  rw [State.port_setPort_self]
  exact ⟨rfl, rfl, rfl, RB.push_wbin_toNat hinv haw b, RB.push_free hinv haw (RB.full_eq_false_of_free hspace) b,
    Memory.read_write_self _ _ _, fun a ha => Memory.read_write_ne _ _ ha⟩

/-- Settles O34: the row of `UART.DATA.R`; on underrun `UE` and the free byte, else a read of a ring that is not
empty. -/
theorem dataReadDrainsTheReceiveFifo : Obligations.DataReadDrainsTheReceiveFifo := by
  refine ⟨performs_uartRead 4 (fun _ _ => rfl), fun s p hwf hp hinv => ⟨fun hlevel => ?_, fun hlevel => ?_⟩⟩
  · refine ⟨_, exec_uartDataR_underrun hp hlevel, rfl, ?_⟩
    rw [answer_rdata, zext_toNat]
    exact BitVec.isLt _
  · have haw := Params.hwfifoAw_le hwf
    refine ⟨_, exec_uartDataR hp hlevel, ?_⟩
    rw [State.port_answer, State.port_setPort_self, answer_rdata, zext_toNat]
    refine ⟨rfl, rfl, rfl, RB.pop_rbin_toNat hinv haw, RB.pop_avail hinv haw (RB.empty_eq_false_of_avail hlevel),
      BitVec.isLt _, fun b hb => ?_⟩
    rw [RB.front, hb, Option.getD_some]

/-- Settles O35: the rows of the four primitives, the field each write takes, and both levels within eight bits. -/
theorem watermarksAndLevels : Obligations.WatermarksAndLevels := by
  refine ⟨fun p => ⟨performs_uartRow 5 (fun _ _ => rfl) p, performs_uartRead 6 (fun _ _ => rfl) p,
    performs_uartRow 7 (fun _ _ => rfl) p, performs_uartRead 8 (fun _ _ => rfl) p⟩, fun s p hwf hp hinv => ?_⟩
  obtain ⟨hspace, hlevel⟩ := Port.levels_lt_of_inv hwf hinv
  refine ⟨fun v => ⟨_, exec_uartRxconW hp v, ?_⟩, fun v => ⟨_, exec_uartTxconW hp v, ?_⟩,
    ⟨_, exec_uartRxconR hp, levelImage_toNat _ hlevel⟩, ⟨_, exec_uartTxconR hp, levelImage_toNat _ hspace⟩⟩
  all_goals
    rw [State.port_setPort_self]
    exact ⟨rfl, watermarkField_toNat v⟩

/-- Settles O36: the row of `UART.BR.W`, its two faults in their order, and the divisor written. -/
theorem divisorWriteAndItsFaults : Obligations.DivisorWriteAndItsFaults := by
  refine ⟨performs_uartRow 9 (fun _ _ => rfl), fun s p v hp => ⟨exec_uartBrW_enabled hp v, ?_⟩⟩
  rw [← modField_toNat, ← incField_toNat]
  refine ⟨fun htx hrx hpos hlt => exec_uartBrW_above hp htx hrx ⟨hpos, hlt⟩, fun htx hrx hlegal => ?_⟩
  refine ⟨_, exec_uartBrW hp htx hrx (by omega), ?_⟩
  rw [State.port_setPort_self]
  exact ⟨rfl, rfl, rfl⟩

/-- Settles O38: the rows of the two commands, the masks each names, and the request that follows from them. -/
theorem maskCommandsChangeTheNamedMasks : Obligations.MaskCommandsChangeTheNamedMasks := by
  refine ⟨fun p => ⟨performs_uartDirections 17 (fun _ _ => rfl) p,
    performs_uartDirections 18 (fun _ _ => rfl) p⟩,
    fun s p d hp => ⟨⟨_, exec_uartMaskset hp d, ?_⟩, ⟨_, exec_uartMaskclr hp d, ?_⟩⟩⟩
  · rw [State.port_setPort_self, or_eq_ite, or_eq_ite]
    exact ⟨rfl, fun hd => Port.irq_of_masked (by rw [hd]; rfl) (by rw [hd]; rfl)⟩
  · rw [State.port_setPort_self, and_not_eq_ite, and_not_eq_ite]
    exact ⟨rfl, fun hd => Port.irq_of_txrdy (if_pos hd), fun hd => Port.irq_of_rxrdy (if_pos hd)⟩

/-- Settles O37: the rows of the five primitives; a slot is answered while valid, else a free word. -/
theorem callbackSlotsSetClearRead : Obligations.CallbackSlotsSetClearRead := by
  refine ⟨fun p => ⟨performs_uartRow 11 (fun _ _ => rfl) p, performs_uartRead 12 (fun _ _ => rfl) p,
    performs_uartRow 13 (fun _ _ => rfl) p, performs_uartRead 14 (fun _ _ => rfl) p,
    performs_uartDirections 16 (fun _ _ => rfl) p⟩,
    fun s p hp => ⟨exec_uartCbrxW hp, exec_uartCbtxW hp, fun hv => ?_, fun hv => ⟨s.freeWord, ?_⟩, fun hv => ?_,
      fun hv => ⟨s.freeWord, ?_⟩, fun d => ?_⟩⟩
  · rw [exec_uartCbrxR hp, if_pos hv]
  · rw [exec_uartCbrxR hp, hv, if_neg Bool.false_ne_true]
  · rw [exec_uartCbtxR hp, if_pos hv]
  · rw [exec_uartCbtxR hp, hv, if_neg Bool.false_ne_true]
  · rw [exec_uartCbclr hp, and_not_eq_ite, and_not_eq_ite]

/-- Settles O41: the parity bit is the sum of the data bits modulo 2, inverted for `EPS = 0`. -/
theorem parityMakesOnesEvenOrOdd : Obligations.ParityMakesOnesEvenOrOdd := by
  intro eps b
  rcases Nat.mod_two_eq_zero_or_one (popcount b) with hones | hones <;> cases eps <;>
    simp [parity, hones, Nat.add_mod]

end Sys2Proof.Machine

/-! # The map HANDLERS, `Invoke` and `return` (60_exceptions R284) -/

namespace Sys2Proof.Machine

/-! ### What a token is bound to -/

theorem isrBinding_eq_some_iff {P : Params} {t : Word} {p : Fin 4} {prog : Program} :
    isrBinding P t p = some prog ↔
      (p.val < P.nports ∧ P.isrToken[p.val] = t) ∧ isrProgram P (BitVec.ofNat 32 p.val) = prog := by
  rw [isrBinding, Option.ite_none_right_eq_some, Option.some_inj]

theorem isrBinding_eq_none_iff {P : Params} {t : Word} {p : Fin 4} :
    isrBinding P t p = none ↔ (p.val < P.nports → P.isrToken[p.val] ≠ t) := by
  rw [isrBinding, ite_eq_right_iff, imp_iff_not (Option.some_ne_none _), not_and]

theorem findSome_cons_orElse {α β : Type} (f : α → Option β) (x : α) (l : List α) (d : Unit → Option β) :
    ((x :: l).findSome? f).orElse d = (f x).orElse fun _ => (l.findSome? f).orElse d := by
  rw [List.findSome?_cons]
  cases f x <;> rfl

/-- The ports' bindings come first, in the order of the ports, then the environment's map. -/
theorem handlerProgram_eq_findSome (P : Params) (handlers : List (Word × Program)) (t : Word) :
    handlerProgram P handlers t =
      ((List.finRange 4).findSome? (isrBinding P t)).orElse fun _ => boundProgram handlers t := by
  rw [show List.finRange 4 = [0, 1, 2, 3] from rfl]
  simp only [findSome_cons_orElse]
  rfl

/-- A token names an existing port's service routine, or it is looked up in the environment's map. -/
theorem handlerProgram_cases (P : Params) (handlers : List (Word × Program)) (t : Word) :
    (∃ p : Fin 4, p.val < P.nports ∧ P.isrToken[p.val] = t ∧
      handlerProgram P handlers t = some (isrProgram P (BitVec.ofNat 32 p.val))) ∨
    ((∀ p : Fin 4, p.val < P.nports → P.isrToken[p.val] ≠ t) ∧
      handlerProgram P handlers t = boundProgram handlers t) := by
  rw [handlerProgram_eq_findSome]
  cases hfind : (List.finRange 4).findSome? (isrBinding P t) with
  | none =>
    rw [List.findSome?_eq_none_iff] at hfind
    exact .inr ⟨fun p => isrBinding_eq_none_iff.1 (hfind p (List.mem_finRange p)), rfl⟩
  | some prog =>
    obtain ⟨p, -, hp⟩ := List.exists_of_findSome?_eq_some hfind
    obtain ⟨⟨hport, htoken⟩, rfl⟩ := isrBinding_eq_some_iff.1 hp
    exact .inl ⟨p, hport, htoken, rfl⟩

/-- Legal parameters give each existing port a token of its own (00_scope R6), so the port it names is the only one. -/
theorem handlerProgram_isrToken {P : Params} (hwf : P.wf) (handlers : List (Word × Program)) {p : Fin 4}
    (hp : p.val < P.nports) :
    handlerProgram P handlers (P.isrToken[p.val]) = some (isrProgram P (BitVec.ofNat 32 p.val)) := by
  obtain ⟨-, -, -, hdistinct, -⟩ := hwf
  rcases handlerProgram_cases P handlers (P.isrToken[p.val]) with ⟨q, hq, htoken, hprog⟩ | ⟨hnone, -⟩
  · have hqp : q = p := by
      by_contra hne
      exact (hdistinct q p hq hp hne).2 htoken
    rwa [hqp] at hprog
  · exact absurd rfl (hnone p hp)

theorem handlerProgram_of_ne_isrToken {P : Params} {t : Word}
    (ht : ∀ p : Fin 4, p.val < P.nports → P.isrToken[p.val] ≠ t) (handlers : List (Word × Program)) :
    handlerProgram P handlers t = boundProgram handlers t := by
  rcases handlerProgram_cases P handlers t with ⟨p, hp, htoken, -⟩ | ⟨-, hprog⟩
  · exact absurd htoken (ht p hp)
  · exact hprog

@[simp] theorem boundProgram_nil (t : Word) : boundProgram [] t = none := rfl

@[simp] theorem boundProgram_cons_self (t : Word) (prog : Program) (rest : List (Word × Program)) :
    boundProgram ((t, prog) :: rest) t = some prog := if_pos rfl

theorem boundProgram_cons_ne {u t : Word} (h : u ≠ t) (prog : Program) (rest : List (Word × Program)) :
    boundProgram ((u, prog) :: rest) t = boundProgram rest t := if_neg h

/-! ### The two statements -/

section
variable {s : State} {shut : Bool} (hagenda : s.agenda = [])
include hagenda

/-- The host moves when the agenda is empty, and performs the statement of its line. -/
theorem step_of_line {l : Line} (hline : s.act.prog[s.act.pos]? = some l) : step s = runStmt s l.stmt := by
  rw [step_of_agenda_nil hagenda, hostStep_of_line hline]

theorem step_of_invoke {e : Expr} {w : Word} (hline : s.act.prog[s.act.pos]? = some { stmt := .invoke e, shut := shut })
    (he : evalExpr s.act.temps e = some w) : step s = invokeToken s w := by
  rw [step_of_line hagenda hline, runStmt, he, withValue]

theorem step_of_plain_return (hline : s.act.prog[s.act.pos]? = some { stmt := .ret .plain, shut := shut }) :
    step s = .next (returnFrom s none) := by
  rw [step_of_line hagenda hline, runStmt, runReturn]

end

theorem invokeToken_of_bound {s : State} {w : Word} {prog : Program}
    (h : handlerProgram s.params s.host.handlers w = some prog) :
    invokeToken s w = .next (enterProgram s prog none) := by
  rcases invokeToken_cases s w with ⟨q, hq, hstart⟩ | ⟨hnone, -⟩
  · cases h.symm.trans hq
    exact hstart
  · cases h.symm.trans hnone

theorem invokeToken_of_unbound {s : State} {w : Word} (h : handlerProgram s.params s.host.handlers w = none) :
    invokeToken s w = .fault .noHandler := by
  rcases invokeToken_cases s w with ⟨q, hq, -⟩ | ⟨-, hfault⟩
  · cases h.symm.trans hq
  · exact hfault

theorem returnFrom_none_of_caller {s : State} {a : Activation} {rest : List Activation}
    (h : s.host.running.callers = a :: rest) :
    returnFrom s none =
      { s with host := { s.host with running := { s.host.running with act := a, callers := rest } } } := by
  rcases returnFrom_none_cases s with ⟨b, others, hcallers, hreturn⟩ | ⟨hcallers, -⟩
  · cases h.symm.trans hcallers
    exact hreturn
  · cases h.symm.trans hcallers

/-- Settles O48: the step of an invocation and of a bare return to a caller, and what the map binds. -/
theorem invokeRunsTheBoundProgram : Obligations.InvokeRunsTheBoundProgram := by
  refine ⟨fun s e shut w hagenda hline he => ?_, fun s a rest shut hagenda hline hcallers => ?_,
    fun P handlers p hwf hp => handlerProgram_isrToken hwf handlers hp, fun P w hw => ?_⟩
  · rw [step_of_invoke hagenda hline he]
    exact ⟨fun prog hbound => ⟨_, invokeToken_of_bound hbound, rfl, rfl, rfl, rfl⟩, invokeToken_of_unbound⟩
  · rw [step_of_plain_return hagenda hline, returnFrom_none_of_caller hcallers]
  · have hmap := handlerProgram_of_ne_isrToken hw
    refine ⟨by rw [hmap, boundProgram_nil], fun prog rest => ⟨?_, fun u hu => ?_⟩⟩
    · rw [hmap, boundProgram_cons_self]
    · rw [hmap, hmap, boundProgram_cons_ne hu]

end Sys2Proof.Machine

/-! # The reset state (70_reset R301)

A ring after reset is the ring that `RB.INIT` would leave at the capacity of its whole storage, so the facts about an
initialised ring give its flags and levels; a port after reset has two such FIFOs, and the controller enables nothing. -/

namespace Sys2Proof.Machine

/-! ### An instance after reset (spec/10_state.md R22) -/

section
variable {aw : Nat} (sy : Nat)

theorem RB.reset_eq_init : RB.reset aw = (RB.reset aw).init (BitVec.ofNat 5 aw) := rfl

/-- The register `K` holds every storage size that R6 admits. -/
theorem RB.reset_k_toNat (haw : aw ≤ 15) : (RB.reset aw).k.toNat = aw :=
  Nat.mod_eq_of_lt (by omega)

theorem RB.reset_cap (haw : aw ≤ 15) : (RB.reset aw).cap = 2 ^ aw := by
  rw [RB.cap, RB.reset_k_toNat haw]

theorem RB.reset_empty : (RB.reset aw).empty sy = true := by rw [RB.reset_eq_init, RB.init_empty]

theorem RB.reset_full : (RB.reset aw).full sy = false := by rw [RB.reset_eq_init, RB.init_full]

theorem RB.reset_avail : (RB.reset aw).avail sy = 0 := by rw [RB.avail, RB.reset_eq_init, RB.init_rcount]

theorem RB.reset_wcount : (RB.reset aw).wcount sy = 0 := by rw [RB.reset_eq_init, RB.init_wcount]

theorem RB.reset_free (haw : aw ≤ 15) : (RB.reset aw).free sy = 2 ^ aw := by
  rw [RB.free, RB.reset_wcount, RB.reset_cap haw, Nat.sub_zero]

/-- R301's elements of one instance: its registers, and its flags and levels in both views. -/
theorem RB.reset_values (haw : aw ≤ 15) :
    (RB.reset aw).k.toNat = aw ∧ (RB.reset aw).wbin = 0 ∧ (RB.reset aw).rbin = 0 ∧ (RB.reset aw).wqR = 0 ∧
      (RB.reset aw).rqW = 0 ∧ (RB.reset aw).empty sy = true ∧ (RB.reset aw).full sy = false ∧
      (RB.reset aw).free sy = 2 ^ aw ∧ (RB.reset aw).avail sy = 0 :=
  ⟨RB.reset_k_toNat haw, rfl, rfl, rfl, rfl, RB.reset_empty sy, RB.reset_full sy, RB.reset_free sy haw,
    RB.reset_avail sy⟩

end

/-! ### A port after reset (spec/10_state.md R25, R26) -/

section
variable {P : Params} (rxd rts : Bool)

/-- An empty transmit FIFO has at least the one free slot that the watermark asks for. -/
theorem Port.reset_txrdy (haw : P.hwfifoAw ≤ 15) : (Port.reset P.hwfifoAw rxd rts).txrdy P = true := by
  have hspace : (Port.reset P.hwfifoAw rxd rts).txspace P = 2 ^ P.hwfifoAw := RB.reset_free P.syncHwfifo haw
  rw [Port.txrdy, hspace]
  exact decide_eq_true Nat.one_le_two_pow

/-- An empty receive FIFO stays below the one byte that the watermark asks for. -/
theorem Port.reset_rxrdy : (Port.reset P.hwfifoAw rxd rts).rxrdy P = false := by
  have hlevel : (Port.reset P.hwfifoAw rxd rts).rxlevel P = 0 := RB.reset_avail P.syncHwfifo
  rw [Port.rxrdy, hlevel]
  rfl

/-- `USTAT` shows only `TXRDY`. -/
theorem Port.reset_statImage (haw : P.hwfifoAw ≤ 15) : statImage P (Port.reset P.hwfifoAw rxd rts) = 0x40 := by
  apply BitVec.eq_of_toNat_eq
  rw [statImage_toNat, Port.reset_rxrdy, Port.reset_txrdy rxd rts haw]
  rfl

/-- `UCON` shows both masks set and every enable clear. -/
theorem Port.reset_conImage (aw : Nat) : conImage (Port.reset aw rxd rts) = 0x300 := by
  apply BitVec.eq_of_toNat_eq
  rw [conImage_toNat]
  rfl

theorem Port.reset_brImage (aw : Nat) : brImage (Port.reset aw rxd rts) = 0 := by
  apply BitVec.eq_of_toNat_eq
  rw [brImage_toNat]
  rfl

/-- No callback slot is valid. -/
theorem Port.reset_cbvalidImage (aw : Nat) : cbvalidImage (Port.reset aw rxd rts) = 0 := by
  apply BitVec.eq_of_toNat_eq
  rw [cbvalidImage_toNat]
  rfl

end

/-! ### The whole machine after reset -/

section
variable (P : Params) (main : Program) (handlers : List (Word × Program))

theorem State.resetOf_ring (j : Fin 8) : (State.resetOf P main handlers).rings[j.val] = RB.reset P.ringAw :=
  Vector.getElem_replicate j.isLt

theorem State.resetOf_port (p : Fin 4) :
    (State.resetOf P main handlers).ports[p.val] = Port.reset P.hwfifoAw true true :=
  Vector.getElem_replicate p.isLt

/-- Nothing is pending, whatever the lines carry, for no source is enabled. -/
theorem State.resetOf_pend : pend (State.resetOf P main handlers) = 0 := pend_eq_zero rfl

end

/-- Settles O56: each ring, the controller, each port with its two FIFOs, the two requests and the host. -/
theorem resetValuesOfTheBlock : Obligations.ResetValuesOfTheBlock := by
  refine ⟨rfl, rfl, fun P main handlers hwf => ?_⟩
  have hfifo : P.hwfifoAw ≤ 15 := Params.hwfifoAw_le hwf
  obtain ⟨_, _, _, _, hring, _⟩ := hwf
  have hpend := State.resetOf_pend P main handlers
  refine ⟨fun j => ?ring, rfl, rfl, rfl, rfl, rfl, rfl, rfl, rfl, fun p => ?port, irqO_of_pend_eq_zero hpend,
    fiqO_of_pend_eq_zero hpend, rfl, rfl⟩
  case ring =>
    rw [State.resetOf_ring]
    exact RB.reset_values P.syncRing hring
  case port =>
    rw [State.resetOf_port]
    refine ⟨Port.reset_conImage true true _, Port.reset_statImage true true hfifo, rfl, rfl,
      Port.reset_brImage true true _, Port.reset_cbvalidImage true true _, rfl, rfl, rfl, rfl, rfl, rfl, rfl, rfl, rfl, rfl,
      rfl, rfl, rfl, rfl, rfl, fun r hr => ?_⟩
    obtain rfl | rfl := hr
    · exact RB.reset_values P.syncHwfifo hfifo
    · exact RB.reset_values P.syncHwfifo hfifo

end Sys2Proof.Machine

/-! # Decoder and encoder

A header is determined by its direction, its unit and its offset. At most one row of the opcode map selects a header, so
the row that selects the canonical header of an instruction is the one the decoder finds; and within a row the header is
determined by the index that the row's mask leaves free. -/

namespace Sys2Proof.Machine

/-! ### Equal fields, equal headers (spec/30_encoding.md R80) -/

theorem header_toNat (h : Header) :
    h.toNat = (Header.isWrite h).toNat * 32768 + (Header.unit h).toNat * 4096 + (Header.off h).toNat := by
  have hw : (Header.isWrite h).toNat = h.toNat / 32768 % 2 := by
    rw [Header.isWrite, BitVec.getLsbD, Nat.toNat_testBit]
  have hlt := h.isLt
  rw [hw]
  simp only [Header.unit, Header.off, BitVec.extractLsb'_toNat, Nat.shiftRight_eq_div_pow]
  omega

theorem header_ext {h g : Header} (hw : Header.isWrite h = Header.isWrite g) (hu : Header.unit h = Header.unit g)
    (ho : (Header.off h).toNat = (Header.off g).toNat) : h = g := by
  apply BitVec.eq_of_toNat_eq
  rw [header_toNat, header_toNat g, hw, hu, ho]

/-! ### One row per header (spec/30_encoding.md R91 step 2) -/

/-- Two rows that could select one header agree where both look; no two rows of the map do. -/
theorem rows_pairwise_disjoint : rows.Pairwise fun a b => a.pat &&& b.mask ≠ b.pat &&& a.mask := by decide

theorem row_unique {a b : Row} {h : Header} (ha : a ∈ rows) (hb : b ∈ rows) (hsa : a.selects h = true)
    (hsb : b.selects h = true) : a = b := by
  by_contra hne
  have hsymm : Std.Symm fun a b : Row => a.pat &&& b.mask ≠ b.pat &&& a.mask := ⟨fun _ _ hd => hd.symm⟩
  refine rows_pairwise_disjoint.forall ha hb hne ?_
  rw [selects_iff] at hsa hsb
  rw [← hsa, ← hsb]
  ac_rfl

/-- The decoder reads a header by the row that selects it. -/
theorem decodeParts_of_row {P : Params} {r : Row} {h : Header} (hr : r ∈ rows) (hs : r.selects h = true) (d : Word) :
    decodeParts P h d = if (r.build h d).wf P then .ok (r.build h d) else .error .noIndex :=
  decodeParts_of_find (find_of_unique hr hs fun _ hq hsq => row_unique hq hr hsq hs) d

/-! ### The canonical word of an instruction -/

/-- Every instruction has a row that selects its canonical header and reads it back. -/
theorem headerRow (i : Instr) : Laws.HeaderRow.Statement i := by
  open Laws.HeaderRow in
  cases i with
  | itcCntlW v => exact itcCntlW v
  | itcCntlR => exact itcCntlR
  | itcNimaskW t => exact itcNimaskW t
  | itcNimaskR => exact itcNimaskR
  | itcEnableInt n => exact itcEnableInt n
  | itcDisableInt n => exact itcDisableInt n
  | itcIntenableW m => exact itcIntenableW m
  | itcIntenableR => exact itcIntenableR
  | itcInttypeR => exact itcInttypeR
  | itcSetFast n => exact itcSetFast n
  | itcSetNormal n => exact itcSetNormal n
  | itcNivectorR => exact itcNivectorR
  | itcFivectorR => exact itcFivectorR
  | itcIntsrcR => exact itcIntsrcR
  | itcIntfrcW m => exact itcIntfrcW m
  | itcIntfrcR => exact itcIntfrcR
  | itcForceInt n => exact itcForceInt n
  | itcUnforceInt n => exact itcUnforceInt n
  | itcNipendR => exact itcNipendR
  | itcFipendR => exact itcFipendR
  | itcIntsaveR => exact itcIntsaveR
  | itcDisableInts => exact itcDisableInts
  | itcRestoreInts => exact itcRestoreInts
  | itcVecvalidR => exact itcVecvalidR
  | itcClearHandler n => exact itcClearHandler n
  | itcSetHandler x t => exact itcSetHandler x t
  | itcVectR x => exact itcVectR x
  | rbInit i k => exact rbInit i k
  | rbWrite i b => exact rbWrite i b
  | rbRead i => exact rbRead i
  | rbWstat i => exact rbWstat i
  | rbRstat i => exact rbRstat i
  | rbCap i => exact rbCap i
  | rbWptr i => exact rbWptr i
  | rbRptr i => exact rbRptr i
  | uartConW p v => exact uartConW p v
  | uartConR p => exact uartConR p
  | uartStatR p => exact uartStatR p
  | uartDataW p b => exact uartDataW p b
  | uartDataR p => exact uartDataR p
  | uartRxconW p v => exact uartRxconW p v
  | uartRxconR p => exact uartRxconR p
  | uartTxconW p v => exact uartTxconW p v
  | uartTxconR p => exact uartTxconR p
  | uartBrW p v => exact uartBrW p v
  | uartBrR p => exact uartBrR p
  | uartCbrxW p t => exact uartCbrxW p t
  | uartCbrxR p => exact uartCbrxR p
  | uartCbtxW p t => exact uartCbtxW p t
  | uartCbtxR p => exact uartCbtxR p
  | uartCbvalidR p => exact uartCbvalidR p
  | uartCbclr p d => exact uartCbclr p d
  | uartMaskset p d => exact uartMaskset p d
  | uartMaskclr p d => exact uartMaskclr p d

theorem decode_encode {P : Params} {i : Instr} (hwf : i.wf P = true) : decode P (encode i) = .ok i := by
  obtain ⟨r, hr, hs, hbuild⟩ := headerRow i
  rw [encode, decode_commandWord, decodeParts_of_row hr hs, hbuild, if_pos hwf]

/-! ### The canonical header of what a row builds (spec/30_encoding.md R82) -/

theorem vecHeader_eq_atSource (w : BitVec 1) (x : BitVec 5) : vecHeader w x = atSource (vecHeader w 0) x := by
  revert w x
  decide

theorem rbHeader_eq_atRing (w : BitVec 1) (i : BitVec 7) (reg : BitVec 5) :
    rbHeader w i reg = atRing (rbHeader w 0 reg) i := by
  show (w ++ 1#3 ++ i ++ reg : BitVec (1 + 3 + 7 + 5)) = (w ++ 1#3 ++ 0#7 ++ reg : BitVec (1 + 3 + 7 + 5)) ||| _
  ext j hj
  simp only [BitVec.getElem_append, BitVec.getElem_or, BitVec.getElem_shiftLeft]
  interval_cases j <;> simp

theorem uartHeader_eq_atPort (w : BitVec 1) (p : BitVec 2) (off : BitVec 12) :
    uartHeader w p off = atPort (uartHeader w 0 off) p := by
  apply BitVec.eq_of_toNat_eq
  rw [atPort, BitVec.toNat_add]
  simp only [uartHeader, toNat_append_eq_add, BitVec.toNat_shiftLeft, BitVec.toNat_setWidth, Nat.shiftLeft_eq]
  simp
  omega

theorem itcRows_encodeHeader {r : Row} (hr : r ∈ itcRows) (h : Header) (d : Word) :
    encodeHeader (r.build h d) = r.pat := by
  fin_cases hr <;> rfl

theorem vecRows_encodeHeader {r : Row} (hr : r ∈ vecRows) (h : Header) (d : Word) :
    encodeHeader (r.build h d) = atSource r.pat (Header.source h) := by
  fin_cases hr <;> exact vecHeader_eq_atSource _ _

theorem rbRows_encodeHeader {r : Row} (hr : r ∈ rbRows) (h : Header) (d : Word) :
    encodeHeader (r.build h d) = atRing r.pat (Header.ring h) := by
  fin_cases hr <;> exact rbHeader_eq_atRing _ _ _

theorem uartRows_encodeHeader {r : Row} (hr : r ∈ uartRows) (h : Header) (d : Word) :
    encodeHeader (r.build h d) = atPort r.pat (Header.port h) := by
  fin_cases hr <;> exact uartHeader_eq_atPort _ _ _

/-! ### A header is its row's at its own index -/

theorem itcRows_wf {r : Row} (hr : r ∈ itcRows) (P : Params) (h : Header) (d : Word) :
    (r.build h d).wf P = true := by
  fin_cases hr <;> rfl

theorem selects_atSource {r : Row} (hr : r ∈ vecRows) (x : BitVec 5) : r.selects (atSource r.pat x) = true := by
  obtain ⟨hmask, _⟩ := vecRows_registers r hr
  obtain ⟨hpat, _⟩ := vecRows_atSource r hr x
  rw [selects_iff, hmask, hpat]

theorem selects_atPort {r : Row} (hr : r ∈ uartRows) (p : BitVec 2) : r.selects (atPort r.pat p) = true :=
  (selects_uartRow_iff hr _).mpr (uartRows_atPort r hr p).1

section
variable {r : Row} {h : Header} (hw : Header.isWrite h = Header.isWrite r.pat)
include hw

theorem eq_atSource (hr : r ∈ vecRows) (hu : Header.unit h = Header.unit r.pat)
    (h7 : h.extractLsb' 7 5 = r.pat.extractLsb' 7 5) (h0 : h.extractLsb' 0 2 = r.pat.extractLsb' 0 2) :
    h = atSource r.pat (Header.source h) := by
  obtain ⟨hmask, _⟩ := vecRows_registers r hr
  obtain ⟨_, hsource⟩ := vecRows_atSource r hr (Header.source h)
  have hs := selects_atSource hr (Header.source h)
  have g7 := extractLsb'_of_selects hs (start := 7) (len := 5) (by rw [hmask]; decide)
  have g0 := extractLsb'_of_selects hs (start := 0) (len := 2) (by rw [hmask]; decide)
  refine header_ext (hw.trans (isWrite_of_selects hs (by rw [hmask]; decide)).symm)
    (hu.trans (unit_of_selects hs (by rw [hmask]; decide)).symm) ?_
  rw [off_eq_source, off_eq_source, hsource, h7, h0, g7, g0]

theorem eq_atRing (hr : r ∈ rbRows) (hu : Header.unit h = Header.unit r.pat)
    (hreg : h.extractLsb' 0 5 = r.pat.extractLsb' 0 5) : h = atRing r.pat (Header.ring h) := by
  obtain ⟨hmask, _⟩ := rbRows_registers r hr
  obtain ⟨_, hring⟩ := rbRows_pats r hr
  have hs := selects_atRing hr (Header.ring h)
  have greg := extractLsb'_of_selects hs (start := 0) (len := 5) (by rw [hmask]; decide)
  refine header_ext (hw.trans (isWrite_of_selects hs (by rw [hmask]; decide)).symm)
    (hu.trans (unit_of_selects hs (by rw [hmask]; decide)).symm) ?_
  rw [← Nat.div_add_mod (Header.off h).toNat 32, ← Nat.div_add_mod (Header.off (atRing _ _)).toNat 32,
    off_div_eq_ring, off_div_eq_ring, off_mod_eq_reg, off_mod_eq_reg, ring_atRing hring, hreg, greg]

theorem eq_atPort (hr : r ∈ uartRows) (h14 : h.extractLsb' 14 1 = r.pat.extractLsb' 14 1)
    (ho : Header.off h = Header.off r.pat) : h = atPort r.pat (Header.port h) := by
  obtain ⟨hmask, _⟩ := uartRows_registers r hr
  obtain ⟨_, hport⟩ := uartRows_atPort r hr (Header.port h)
  have hs := selects_atPort hr (Header.port h)
  have g14 := extractLsb'_of_selects hs (start := 14) (len := 1) (by rw [hmask]; decide)
  have goff : Header.off (atPort r.pat (Header.port h)) = Header.off r.pat :=
    extractLsb'_of_selects hs (by rw [hmask]; decide)
  refine header_ext (hw.trans (isWrite_of_selects hs (by rw [hmask]; decide)).symm)
    (BitVec.eq_of_toNat_eq ?_) (congrArg BitVec.toNat (ho.trans goff.symm))
  rw [unit_eq_port, unit_eq_port, hport, h14, g14]

end

/-- The canonical header of what a row builds from a header it selects is that header. -/
theorem encodeHeader_build {r : Row} {h : Header} (hr : r ∈ rows) (hs : r.selects h = true) (d : Word) :
    encodeHeader (r.build h d) = h := by
  simp only [rows, List.mem_append] at hr
  obtain ((hr | hr) | hr) | hr := hr
  · rw [itcRows_encodeHeader hr, (selects_itcRow_iff hr h).mp hs]
  · obtain ⟨hmask, _⟩ := vecRows_registers r hr
    rw [vecRows_encodeHeader hr]
    exact (eq_atSource (isWrite_of_selects hs (by rw [hmask]; decide)) hr
      (unit_of_selects hs (by rw [hmask]; decide)) (extractLsb'_of_selects hs (by rw [hmask]; decide))
      (extractLsb'_of_selects hs (by rw [hmask]; decide))).symm
  · obtain ⟨hmask, _⟩ := rbRows_registers r hr
    rw [rbRows_encodeHeader hr]
    exact (eq_atRing (isWrite_of_selects hs (by rw [hmask]; decide)) hr
      (unit_of_selects hs (by rw [hmask]; decide)) (extractLsb'_of_selects hs (by rw [hmask]; decide))).symm
  · obtain ⟨hmask, _⟩ := uartRows_registers r hr
    rw [uartRows_encodeHeader hr]
    exact (eq_atPort (isWrite_of_selects hs (by rw [hmask]; decide)) hr
      (extractLsb'_of_selects hs (by rw [hmask]; decide)) (extractLsb'_of_selects hs (by rw [hmask]; decide))).symm

/-- The decoder accepts a header exactly if a row selects it and its index check passes. -/
theorem decodeParts_ok_iff {P : Params} {h : Header} {d : Word} {i : Instr} :
    decodeParts P h d = .ok i ↔ ∃ r ∈ rows, r.selects h = true ∧ r.build h d = i ∧ i.wf P = true := by
  constructor
  · intro hd
    obtain ⟨r, hr, hs, hwf⟩ := row_of_decodeParts_ok hd
    rw [decodeParts_of_row hr hs, if_pos hwf] at hd
    cases hd
    exact ⟨r, hr, hs, rfl, hwf⟩
  · rintro ⟨r, hr, hs, rfl, hwf⟩
    rw [decodeParts_of_row hr hs, if_pos hwf]

/-! ### Whatever the map allows, a row accepts (spec/10_state.md R24, R25, spec/40_ring_buffer.md R100) -/

/-- Every writable and every readable offset of the ITC has a row. -/
theorem itc_register_has_row : ∀ w : Bool, ∀ off ∈ (if w then itcWritable else itcReadable),
    ∃ r ∈ itcRows, Header.isWrite r.pat = w ∧ (Header.off r.pat).toNat = off := by
  decide

/-- Each slot of `VECT` may be written and read. -/
theorem vect_register_has_row : ∀ w : Bool, ∃ r ∈ vecRows, Header.isWrite r.pat = w := by decide

theorem rb_register_has_row : ∀ w : Bool, ∀ reg ∈ (if w then rbWritable else rbReadable),
    ∃ r ∈ rbRows, Header.isWrite r.pat = w ∧ (r.pat.extractLsb' 0 5).toNat = reg := by
  decide

theorem uart_register_has_row : ∀ w : Bool, ∀ off ∈ (if w then uartWritable else uartReadable),
    ∃ r ∈ uartRows, Header.isWrite r.pat = w ∧ (Header.off r.pat).toNat = off := by
  decide

/-- A row of the map selects every access the register map allows, and its index check passes. -/
theorem row_of_accessible {P : Params} {h : Header} (ha : AccessibleHeader P h) :
    ∃ r ∈ rows, r.selects h = true ∧ ∀ d, (r.build h d).wf P = true := by
  simp only [rows, List.mem_append]
  obtain ⟨hunit, hoff⟩ | ⟨hunit, x, hx, hsrc, hoff⟩ | ⟨hunit, hinst, hoff⟩ | ⟨hunit, hport, hoff⟩ := ha
  · obtain ⟨r, hr, hw, ho⟩ := itc_register_has_row _ _ hoff
    obtain ⟨_, hu, _⟩ := itcRows_registers r hr
    have hh : h = r.pat := header_ext hw.symm (BitVec.eq_of_toNat_eq (hunit.trans (by rw [hu]; rfl))) ho.symm
    exact ⟨r, .inl (.inl (.inl hr)), (selects_itcRow_iff hr h).mpr hh, itcRows_wf hr P h⟩
  · obtain ⟨r, hr, hw⟩ := vect_register_has_row (Header.isWrite h)
    obtain ⟨_, hu, hhigh, hlow⟩ := vecRows_registers r hr
    have hfields := off_eq_source h
    have hs := (Header.source h).isLt
    have h0 := (h.extractLsb' 0 2).isLt
    have hsource : (Header.source h).toNat = x := by omega
    have hh : h = atSource r.pat (Header.source h) := by
      refine eq_atSource hw.symm hr (BitVec.eq_of_toNat_eq (hunit.trans (by rw [hu]; rfl))) ?_ ?_
      · rw [hhigh]
        exact BitVec.eq_of_toNat_eq (show _ = 2 by omega)
      · rw [hlow]
        exact BitVec.eq_of_toNat_eq (show _ = 0 by omega)
    refine ⟨r, .inl (.inl (.inr hr)), hh ▸ selects_atSource hr _, fun d => ?_⟩
    rw [vecRows_wf hr]
    exact decide_eq_true (hsource ▸ hsrc)
  · obtain ⟨r, hr, hw, hreg⟩ := rb_register_has_row _ _ hoff
    obtain ⟨_, hu, _⟩ := rbRows_registers r hr
    have hh : h = atRing r.pat (Header.ring h) := by
      refine eq_atRing hw.symm hr (BitVec.eq_of_toNat_eq (hunit.trans (by rw [hu]; rfl))) (BitVec.eq_of_toNat_eq ?_)
      rw [hreg, off_mod_eq_reg]
    refine ⟨r, .inl (.inr hr), hh ▸ selects_atRing hr _, fun d => ?_⟩
    rw [rbRows_wf hr]
    exact decide_eq_true (off_div_eq_ring h ▸ hinst)
  · obtain ⟨r, hr, hw, ho⟩ := uart_register_has_row _ _ hoff
    obtain ⟨_, htop, _⟩ := uartRows_registers r hr
    have hfields := unit_eq_port h
    have hp := (Header.port h).isLt
    have h14 := (h.extractLsb' 14 1).isLt
    have hh : h = atPort r.pat (Header.port h) := by
      refine eq_atPort hw.symm hr ?_ (BitVec.eq_of_toNat_eq ho.symm)
      rw [htop]
      exact BitVec.eq_of_toNat_eq (show _ = 1 by omega)
    refine ⟨r, .inr hr, hh ▸ selects_atPort hr _, fun d => ?_⟩
    rw [uartRows_wf hr]
    exact decide_eq_true (by omega)

end Sys2Proof.Machine

/-! # The statements about the encoding -/

namespace Sys2Proof.Machine

/-- Settles O1: the row of the instruction is the one the decoder finds. -/
theorem decodeOfEncodeIsTheInstruction : Obligations.DecodeOfEncodeIsTheInstruction := fun _ _ hwf => decode_encode hwf

/-- Settles O2: the row that decodes a header fixes every bit of it but its index, and the canonical header has both. -/
theorem decodedWordKeepsItsHeader : Obligations.DecodedWordKeepsItsHeader := by
  intro P cw i hd
  obtain ⟨r, hr, hs, rfl, hwf⟩ := decodeParts_ok_iff.mp hd
  rw [encode, header_commandWord]
  exact ⟨hwf, encodeHeader_build hr hs _⟩

/-- Settles O3: a header that two rows select would make them agree where both look. -/
theorem opcodeRowsAreDisjoint : Obligations.OpcodeRowsAreDisjoint :=
  ⟨rfl, by decide, fun _ _ _ ha hb hsa hsb => congrArg Row.mnemonic (row_unique ha hb hsa hsb)⟩

/-- Settles O4: what a row accepts is in the register map, and each access of the map has its row. -/
theorem decoderAcceptsTheRegisterMap : Obligations.DecoderAcceptsTheRegisterMap := by
  refine fun P cw => ⟨fun ⟨i, hd⟩ => accessible_of_decodeParts_ok hd, fun ha => ?_⟩
  obtain ⟨r, hr, hs, hwf⟩ := row_of_accessible ha
  exact ⟨_, decodeParts_ok_iff.mpr ⟨r, hr, hs, rfl, hwf _⟩⟩

/-- Settles O5: the decoder evaluated on the seven words. -/
theorem specWordsDecode : Obligations.SpecWordsDecode := by
  refine ⟨?_, ?_, ?_, ?_, ?_, ?_, ?_⟩ <;> decide

end Sys2Proof.Machine

/-! # What a primitive can change

Each primitive that answers a next state either writes registers of the controller, changes one ring, writes one port,
or only answers. Each of the first three is listed with what it leaves, so that a claim about every primitive is a claim
about these lists. -/

namespace Sys2Proof.Machine

/-! ### The checks in front of a meaning, read backwards -/

section
variable {s t : State}

theorem of_withSource_next {n : Word} {f : Nat → State} (h : withSource s n f = .next t) :
    n.toNat < s.params.nsrc ∧ t = f n.toNat := by
  obtain ⟨hn, e⟩ | ⟨_, e⟩ := withSource_cases s n f
  · cases h.symm.trans e
    exact ⟨hn, rfl⟩
  · cases h.symm.trans e

/-- A primitive that answers has passed its index check. -/
theorem wf_of_exec_next {i : Instr} (h : exec i s = .next t) : i.wf s.params = true := by
  by_contra hwf
  cases h.symm.trans (exec_of_not_wf (Bool.eq_false_of_not_eq_true hwf))

end

/-! ### The lists -/

/-- The controller `c` after a primitive that writes its registers (spec/41_interrupt_controller.md R134 to R159). -/
inductive Itc.Writes (P : Params) (c : Itc) : Instr → Itc → Prop
  | cntl (v : Word) : Itc.Writes P c (.itcCntlW v) { c with nae := v.getLsbD 0, fae := v.getLsbD 1 }
  | nimask (thr : BitVec 6) : Itc.Writes P c (.itcNimaskW thr) { c with prithr := thr }
  | enable {n : Word} (hn : n.toNat < P.nsrc) :
    Itc.Writes P c (.itcEnableInt n) { c with intenable := putBit c.intenable n.toNat true }
  | disable {n : Word} (hn : n.toNat < P.nsrc) :
    Itc.Writes P c (.itcDisableInt n) { c with intenable := putBit c.intenable n.toNat false }
  | intenable (m : Word) : Itc.Writes P c (.itcIntenableW m) { c with intenable := m &&& sourceMask P }
  | setFast {n : Word} (hn : n.toNat < P.nsrc) : Itc.Writes P c (.itcSetFast n) { c with inttype := 1#32 <<< n.toNat }
  | setNormal {n : Word} (hn : n.toNat < P.nsrc) :
    Itc.Writes P c (.itcSetNormal n) { c with inttype := putBit c.inttype n.toNat false }
  | intfrc (m : Word) : Itc.Writes P c (.itcIntfrcW m) { c with intfrc := m &&& sourceMask P }
  | force {n : Word} (hn : n.toNat < P.nsrc) :
    Itc.Writes P c (.itcForceInt n) { c with intfrc := putBit c.intfrc n.toNat true }
  | unforce {n : Word} (hn : n.toNat < P.nsrc) :
    Itc.Writes P c (.itcUnforceInt n) { c with intfrc := putBit c.intfrc n.toNat false }
  | disableAll : Itc.Writes P c .itcDisableInts { c with intsave := c.intenable, intenable := 0 }
  | restore : Itc.Writes P c .itcRestoreInts { c with intenable := c.intsave }
  | clearHandler {n : Word} (hn : n.toNat < P.nsrc) :
    Itc.Writes P c (.itcClearHandler n) { c with vecvalid := putBit c.vecvalid n.toNat false }
  | setHandler {x : BitVec 5} (hx : x.toNat < P.nsrc) (w : Word) :
    Itc.Writes P c (.itcSetHandler x w)
      { c with vect := c.vect.set x.toNat w x.isLt, vecvalid := putBit c.vecvalid x.toNat true }

/-- One allowed operation on a ring with storage exponent `aw` and synchroniser depth `sy`, or none
(spec/40_ring_buffer.md R104 to R106, R110). -/
inductive RB.Changes (aw sy : Nat) (r : RB) : RB → Prop
  | rest : RB.Changes aw sy r r
  | push (b : Byte) (h : r.full sy = false) : RB.Changes aw sy r (r.push b)
  | pop (h : r.empty sy = false) : RB.Changes aw sy r r.pop
  | init {k : BitVec 5} (h : k.toNat ≤ aw) : RB.Changes aw sy r (r.init k)
  | sync (d : SyncDir) : RB.Changes aw sy r (r.sync sy d)

/-- Port `p`, standing at `q`, after a primitive that writes it (spec/42_uart_engine.md R183 to R201). -/
inductive Port.Writes (P : Params) (p : BitVec 2) (q : Port) : Instr → Port → Prop
  | con (v : Word) : Port.Writes P p q (.uartConW p v) (q.writeCon v)
  | stat : Port.Writes P p q (.uartStatR p) { q with fe := false, pe := false, oe := false, ue := false, toe := false }
  | overrun (b : Byte) : Port.Writes P p q (.uartDataW p b) { q with toe := true }
  | data (b : Byte) (h : 0 < q.txspace P) : Port.Writes P p q (.uartDataW p b) { q with hwtx := q.hwtx.push b }
  | underrun : Port.Writes P p q (.uartDataR p) { q with ue := true }
  | received (h : 0 < q.rxlevel P) : Port.Writes P p q (.uartDataR p) { q with hwrx := q.hwrx.pop }
  | rxcon (v : Word) : Port.Writes P p q (.uartRxconW p v) { q with rxwm := watermarkField v }
  | txcon (v : Word) : Port.Writes P p q (.uartTxconW p v) { q with txwm := watermarkField v }
  | br {v : Word} (h : ¬ (0 < (modField v).toNat ∧ (modField v).toNat < (incField v).toNat)) :
    Port.Writes P p q (.uartBrW p v) { q with brMod := modField v, brInc := incField v, bacc := 0 }
  | cbrx (w : Word) : Port.Writes P p q (.uartCbrxW p w) { q with ucbrx := w, cbvalidRx := true }
  | cbtx (w : Word) : Port.Writes P p q (.uartCbtxW p w) { q with ucbtx := w, cbvalidTx := true }
  | cbclr (d : BitVec 2) : Port.Writes P p q (.uartCbclr p d)
      { q with cbvalidTx := q.cbvalidTx && !d.getLsbD 0, cbvalidRx := q.cbvalidRx && !d.getLsbD 1 }
  | maskset (d : BitVec 2) : Port.Writes P p q (.uartMaskset p d)
      { q with mtxr := q.mtxr || d.getLsbD 0, mrxr := q.mrxr || d.getLsbD 1 }
  | maskclr (d : BitVec 2) : Port.Writes P p q (.uartMaskclr p d)
      { q with mtxr := q.mtxr && !d.getLsbD 0, mrxr := q.mrxr && !d.getLsbD 1 }

/-- The states a primitive can leave: beside the one unit it writes, only the answer and the draw counter. -/
inductive Effect (s : State) (i : Instr) : State → Prop
  | answered (v : Word) (n : Nat) : Effect s i { s with rdata := v, draws := n }
  | itc {c : Itc} (h : Itc.Writes s.params s.itc i c) : Effect s i (s.setItc c)
  | ring {j : BitVec 3} {r : RB} (v : Word) (n : Nat)
      (h : RB.Changes s.params.ringAw s.params.syncRing (s.ring j) r) :
    Effect s i { s.setRing j r with rdata := v, draws := n }
  | port {p : BitVec 2} {q : Port} (v : Word) (n : Nat) (h : Port.Writes s.params p (s.port p) i q) :
    Effect s i { s.setPort p q with rdata := v, draws := n }

/-! ### Every primitive is on a list -/

section
variable {i : Instr} {s t : State}

theorem exec_effect (h : exec i s = .next t) : Effect s i t := by
  cases i with
  | itcCntlR | itcNimaskR | itcIntenableR | itcInttypeR | itcNivectorR | itcFivectorR | itcIntsrcR | itcIntfrcR
  | itcNipendR | itcFipendR | itcIntsaveR | itcVecvalidR =>
    cases h
    exact .answered _ _
  | itcCntlW v =>
    cases h
    exact .itc (.cntl v)
  | itcNimaskW thr =>
    cases h
    exact .itc (.nimask thr)
  | itcIntenableW m =>
    cases h
    exact .itc (.intenable m)
  | itcIntfrcW m =>
    cases h
    exact .itc (.intfrc m)
  | itcDisableInts =>
    cases h
    exact .itc .disableAll
  | itcRestoreInts =>
    cases h
    exact .itc .restore
  | itcEnableInt n =>
    rw [exec, execItcEnableInt] at h
    obtain ⟨hn, rfl⟩ := of_withSource_next h
    exact .itc (.enable hn)
  | itcDisableInt n =>
    rw [exec, execItcDisableInt] at h
    obtain ⟨hn, rfl⟩ := of_withSource_next h
    exact .itc (.disable hn)
  | itcSetFast n =>
    rw [exec, execItcSetFast] at h
    obtain ⟨hn, rfl⟩ := of_withSource_next h
    exact .itc (.setFast hn)
  | itcSetNormal n =>
    rw [exec, execItcSetNormal] at h
    obtain ⟨hn, rfl⟩ := of_withSource_next h
    exact .itc (.setNormal hn)
  | itcForceInt n =>
    rw [exec, execItcForceInt] at h
    obtain ⟨hn, rfl⟩ := of_withSource_next h
    exact .itc (.force hn)
  | itcUnforceInt n =>
    rw [exec, execItcUnforceInt] at h
    obtain ⟨hn, rfl⟩ := of_withSource_next h
    exact .itc (.unforce hn)
  | itcClearHandler n =>
    rw [exec, execItcClearHandler] at h
    obtain ⟨hn, rfl⟩ := of_withSource_next h
    exact .itc (.clearHandler hn)
  | itcSetHandler x w =>
    have hx := of_decide_eq_true (wf_of_exec_next h)
    cases h.symm.trans (exec_itcSetHandler hx w)
    exact .itc (.setHandler hx w)
  | itcVectR x =>
    have hx := of_decide_eq_true (wf_of_exec_next h)
    cases hv : s.itc.vecvalid.getLsbD x.toNat
    · cases h.symm.trans (exec_itcVectR_invalid hx hv)
      exact .answered _ _
    · cases h.symm.trans (exec_itcVectR_valid hx hv)
      exact .answered _ _
  | rbInit j k =>
    have hj := of_decide_eq_true (wf_of_exec_next h)
    by_cases hk : k.toNat ≤ s.params.ringAw
    · cases h.symm.trans (exec_rbInit hj hk)
      refine .ring _ _ (.init ?_)
      rw [BitVec.toNat_setWidth]
      exact (Nat.mod_le _ _).trans hk
    · cases h.symm.trans (exec_rbInit_above hj (Nat.lt_of_not_le hk))
  | rbWrite j b =>
    have hj := of_decide_eq_true (wf_of_exec_next h)
    cases hfull : (s.ring (ringIndex j)).full s.params.syncRing
    · cases h.symm.trans (exec_rbWrite hj b hfull)
      exact .ring _ _ (.push b hfull)
    · cases h.symm.trans (exec_rbWrite_full hj b hfull)
  | rbRead j =>
    have hj := of_decide_eq_true (wf_of_exec_next h)
    cases hempty : (s.ring (ringIndex j)).empty s.params.syncRing
    · cases h.symm.trans (exec_rbRead hj hempty)
      exact .ring _ _ (.pop hempty)
    · cases h.symm.trans (exec_rbRead_empty hj hempty)
  | rbWstat j =>
    cases h.symm.trans (exec_rbWstat (of_decide_eq_true (wf_of_exec_next h)))
    exact .answered _ _
  | rbRstat j =>
    cases h.symm.trans (exec_rbRstat (of_decide_eq_true (wf_of_exec_next h)))
    exact .answered _ _
  | rbCap j =>
    cases h.symm.trans (exec_rbCap (of_decide_eq_true (wf_of_exec_next h)))
    exact .answered _ _
  | rbWptr j =>
    cases h.symm.trans (exec_rbWptr (of_decide_eq_true (wf_of_exec_next h)))
    exact .answered _ _
  | rbRptr j =>
    cases h.symm.trans (exec_rbRptr (of_decide_eq_true (wf_of_exec_next h)))
    exact .answered _ _
  | uartConR p =>
    cases h.symm.trans (exec_uartConR (of_decide_eq_true (wf_of_exec_next h)))
    exact .answered _ _
  | uartRxconR p =>
    cases h.symm.trans (exec_uartRxconR (of_decide_eq_true (wf_of_exec_next h)))
    exact .answered _ _
  | uartTxconR p =>
    cases h.symm.trans (exec_uartTxconR (of_decide_eq_true (wf_of_exec_next h)))
    exact .answered _ _
  | uartBrR p =>
    cases h.symm.trans (exec_uartBrR (of_decide_eq_true (wf_of_exec_next h)))
    exact .answered _ _
  | uartCbvalidR p =>
    cases h.symm.trans (exec_uartCbvalidR (of_decide_eq_true (wf_of_exec_next h)))
    exact .answered _ _
  | uartCbrxR p =>
    have hread := exec_uartCbrxR (s := s) (of_decide_eq_true (wf_of_exec_next h))
    split at hread
    · cases h.symm.trans hread
      exact .answered _ _
    · cases h.symm.trans hread
      exact .answered _ _
  | uartCbtxR p =>
    have hread := exec_uartCbtxR (s := s) (of_decide_eq_true (wf_of_exec_next h))
    split at hread
    · cases h.symm.trans hread
      exact .answered _ _
    · cases h.symm.trans hread
      exact .answered _ _
  | uartConW p v =>
    cases h.symm.trans (exec_uartConW (of_decide_eq_true (wf_of_exec_next h)) v)
    exact .port _ _ (.con v)
  | uartStatR p =>
    cases h.symm.trans (exec_uartStatR (of_decide_eq_true (wf_of_exec_next h)))
    exact .port _ _ .stat
  | uartRxconW p v =>
    cases h.symm.trans (exec_uartRxconW (of_decide_eq_true (wf_of_exec_next h)) v)
    exact .port _ _ (.rxcon v)
  | uartTxconW p v =>
    cases h.symm.trans (exec_uartTxconW (of_decide_eq_true (wf_of_exec_next h)) v)
    exact .port _ _ (.txcon v)
  | uartCbrxW p w =>
    cases h.symm.trans (exec_uartCbrxW (of_decide_eq_true (wf_of_exec_next h)) w)
    exact .port _ _ (.cbrx w)
  | uartCbtxW p w =>
    cases h.symm.trans (exec_uartCbtxW (of_decide_eq_true (wf_of_exec_next h)) w)
    exact .port _ _ (.cbtx w)
  | uartCbclr p d =>
    cases h.symm.trans (exec_uartCbclr (of_decide_eq_true (wf_of_exec_next h)) d)
    exact .port _ _ (.cbclr d)
  | uartMaskset p d =>
    cases h.symm.trans (exec_uartMaskset (of_decide_eq_true (wf_of_exec_next h)) d)
    exact .port _ _ (.maskset d)
  | uartMaskclr p d =>
    cases h.symm.trans (exec_uartMaskclr (of_decide_eq_true (wf_of_exec_next h)) d)
    exact .port _ _ (.maskclr d)
  | uartDataW p b =>
    have hp := of_decide_eq_true (wf_of_exec_next h)
    obtain hspace | hspace := Nat.eq_zero_or_pos ((s.port p).txspace s.params)
    · cases h.symm.trans (exec_uartDataW_overrun hp b hspace)
      exact .port _ _ (.overrun b)
    · cases h.symm.trans (exec_uartDataW hp b hspace)
      exact .port _ _ (.data b hspace)
  | uartDataR p =>
    have hp := of_decide_eq_true (wf_of_exec_next h)
    obtain hlevel | hlevel := Nat.eq_zero_or_pos ((s.port p).rxlevel s.params)
    · cases h.symm.trans (exec_uartDataR_underrun hp hlevel)
      exact .port _ _ .underrun
    · cases h.symm.trans (exec_uartDataR hp hlevel)
      exact .port _ _ (.received hlevel)
  | uartBrW p v =>
    have hp := of_decide_eq_true (wf_of_exec_next h)
    by_cases hon : (s.port p).txe = true ∨ (s.port p).rxe = true
    · cases h.symm.trans (exec_uartBrW_enabled hp v hon)
    · obtain ⟨htx, hrx⟩ := not_or.mp hon
      have htx := Bool.eq_false_of_not_eq_true htx
      have hrx := Bool.eq_false_of_not_eq_true hrx
      by_cases habove : 0 < (modField v).toNat ∧ (modField v).toNat < (incField v).toNat
      · cases h.symm.trans (exec_uartBrW_above hp htx hrx habove)
      · cases h.symm.trans (exec_uartBrW hp htx hrx habove)
        exact .port _ _ (.br habove)

end

end Sys2Proof.Machine

/-! # What every primitive leaves alone -/

namespace Sys2Proof.Machine

section
variable {i : Instr} {s t : State} (h : Effect s i t)
include h

/-- The host, the parameters, the schedule and the lines `SRC` drives are no primitive's. -/
theorem Effect.frame : t.host = s.host ∧ t.params = s.params ∧ t.agenda = s.agenda ∧ t.srcLines = s.srcLines := by
  cases h <;> exact ⟨rfl, rfl, rfl, rfl⟩

/-- The controller stays, or the primitive is one that writes it. -/
theorem Effect.itc_cases : t.itc = s.itc ∨ Itc.Writes s.params s.itc i t.itc := by
  cases h with
  | itc hw => exact .inr hw
  | _ => exact .inl rfl

/-- A port stays, or the primitive is one that writes that port. -/
theorem Effect.port_cases (p : BitVec 2) :
    t.port p = s.port p ∨ Port.Writes s.params p (s.port p) i (t.port p) := by
  cases h with
  | port v n hw =>
    rename_i p' q
    by_cases hp : p = p'
    · subst hp
      rw [show State.port { s.setPort p q with rdata := v, draws := n } p = q from State.port_setPort_self s p q]
      exact .inr hw
    · exact .inl (State.port_setPort_ne hp s q)
  | _ => exact .inl rfl

end

/-- The registers that differ after a write of the controller name the primitive. -/
theorem Itc.Writes.only {P : Params} {c d : Itc} {i : Instr} (h : Itc.Writes P c i d) :
    (d.intenable ≠ c.intenable →
      (∃ n, i = .itcEnableInt n ∨ i = .itcDisableInt n) ∨ (∃ m, i = .itcIntenableW m) ∨
        i = .itcDisableInts ∨ i = .itcRestoreInts) ∧
    (d.inttype ≠ c.inttype → ∃ n, i = .itcSetFast n ∨ i = .itcSetNormal n) ∧
    (d.intfrc ≠ c.intfrc →
      (∃ m, i = .itcIntfrcW m) ∨ ∃ n, i = .itcForceInt n ∨ i = .itcUnforceInt n) ∧
    (d.intsave ≠ c.intsave → i = .itcDisableInts) ∧
    (d.prithr ≠ c.prithr → ∃ thr, i = .itcNimaskW thr) ∧
    ((d.nae ≠ c.nae ∨ d.fae ≠ c.fae) → ∃ v, i = .itcCntlW v) ∧
    (d.vect ≠ c.vect → ∃ x h, i = .itcSetHandler x h) ∧
    (d.vecvalid ≠ c.vecvalid → (∃ x h, i = .itcSetHandler x h) ∨ ∃ n, i = .itcClearHandler n) := by
  cases h <;> simp

section
variable (q : Port) (v : Word)

@[simp] theorem Port.writeCon_fe : (q.writeCon v).fe = q.fe := by rw [q.writeCon_frame v]
@[simp] theorem Port.writeCon_pe : (q.writeCon v).pe = q.pe := by rw [q.writeCon_frame v]
@[simp] theorem Port.writeCon_oe : (q.writeCon v).oe = q.oe := by rw [q.writeCon_frame v]
@[simp] theorem Port.writeCon_ue : (q.writeCon v).ue = q.ue := by rw [q.writeCon_frame v]
@[simp] theorem Port.writeCon_toe : (q.writeCon v).toe = q.toe := by rw [q.writeCon_frame v]
@[simp] theorem Port.writeCon_hwtx : (q.writeCon v).hwtx = q.hwtx := by rw [q.writeCon_frame v]
@[simp] theorem Port.writeCon_hwrx : (q.writeCon v).hwrx = q.hwrx := by rw [q.writeCon_frame v]
@[simp] theorem Port.writeCon_brMod : (q.writeCon v).brMod = q.brMod := by rw [q.writeCon_frame v]
@[simp] theorem Port.writeCon_brInc : (q.writeCon v).brInc = q.brInc := by rw [q.writeCon_frame v]
@[simp] theorem Port.writeCon_bacc : (q.writeCon v).bacc = q.bacc := by rw [q.writeCon_frame v]

end

/-- A mask or an error flag that is set before and clear after a write of the port names the primitive. -/
theorem Port.Writes.only_clearers {P : Params} {p : BitVec 2} {q q' : Port} {i : Instr}
    (h : Port.Writes P p q i q') :
    ((q.mtxr = true ∧ q'.mtxr = false ∨ q.mrxr = true ∧ q'.mrxr = false) →
      (∃ v, i = .uartConW p v) ∨ ∃ d, i = .uartMaskclr p d) ∧
    ((q.fe = true ∧ q'.fe = false ∨ q.pe = true ∧ q'.pe = false ∨ q.oe = true ∧ q'.oe = false ∨
      q.ue = true ∧ q'.ue = false ∨ q.toe = true ∧ q'.toe = false) → i = .uartStatR p) := by
  cases h <;> simp +contextual

/-- Settles O18: of the primitives that write the controller, each register's own. -/
theorem itcRegistersHaveTheirOnlyWriters : Obligations.ItcRegistersHaveTheirOnlyWriters := by
  intro i s t h
  obtain hsame | hw := (exec_effect h).itc_cases
  · simp [hsame]
  · exact hw.only

/-- Settles O19: no primitive's effect reaches them. -/
theorem primitivesLeaveTheHostAlone : Obligations.PrimitivesLeaveTheHostAlone :=
  fun _ _ _ h => (exec_effect h).frame

/-- Settles O39: of the primitives that write the port, those that clear a mask or a flag. -/
theorem uartMasksAndFlagsHaveTheirOnlyClearers : Obligations.UartMasksAndFlagsHaveTheirOnlyClearers := by
  intro i s t p h
  obtain hsame | hw := (exec_effect h).port_cases p
  · simp [hsame]
  · exact hw.only_clearers

end Sys2Proof.Machine

/-! # The invariant and the order of a ring

Every allowed operation on a ring keeps the order of its pointers and views, whatever its storage holds; a copy that
lags gains one on its pointer with every step; and the slots between the pointers are a queue. -/

namespace Sys2Proof.Machine

/-! ### Which pointer a distance names -/

section
variable {m : Nat} {a b c : BitVec 16} (ha : a.toNat < m) (hb : b.toNat < m) (hc : c.toNat < m)
include ha hb hc

theorem ringDistance_left_inj (h : ringDistance m a c = ringDistance m b c) : a = b := by
  rw [ringDistance_eq ha hc, ringDistance_eq hb hc] at h
  apply BitVec.eq_of_toNat_eq
  split at h <;> split at h <;> omega

theorem ringDistance_right_inj (h : ringDistance m a b = ringDistance m a c) : b = c := by
  rw [ringDistance_eq ha hb, ringDistance_eq ha hc] at h
  apply BitVec.eq_of_toNat_eq
  split at h <;> split at h <;> omega

end

/-! ### The invariant without the storage (spec/10_state.md R30(b)) -/

/-- The ring with nothing stored. -/
def RB.bare (r : RB) : RB := { r with mem := [] }

/-- The invariant of a ring's registers, whatever its storage holds. -/
def RB.Ordered (aw sy : Nat) (r : RB) : Prop := r.bare.Inv aw sy

theorem RB.ordered_iff {aw sy : Nat} {r : RB} : r.Ordered aw sy ↔
    r.k.toNat ≤ aw ∧
    (r.wbin.toNat < r.modulus ∧ r.rbin.toNat < r.modulus ∧ r.wqR.toNat < r.modulus ∧ r.rqW.toNat < r.modulus) ∧
    (r.rcount sy ≤ r.count ∧ r.count ≤ r.wcount sy ∧ r.wcount sy ≤ r.cap) := by
  refine ⟨fun ⟨hk, hptr, hview, _⟩ => ⟨hk, hptr, hview⟩,
    fun ⟨hk, hptr, hview⟩ => ⟨hk, hptr, hview, List.Pairwise.nil, ?_⟩⟩
  simp [RB.bare]

theorem RB.inv_iff_ordered {aw sy : Nat} {r : RB} :
    r.Inv aw sy ↔ r.Ordered aw sy ∧ r.mem.wf ∧ ∀ c ∈ r.mem, c.1 < 2 ^ aw := by
  rw [RB.ordered_iff]
  exact ⟨fun ⟨hk, hptr, hview, hmem⟩ => ⟨⟨hk, hptr, hview⟩, hmem⟩,
    fun ⟨⟨hk, hptr, hview⟩, hmem⟩ => ⟨hk, hptr, hview, hmem⟩⟩

theorem RB.init_ordered {aw : Nat} (sy : Nat) (r : RB) {k : BitVec 5} (hk : k.toNat ≤ aw) :
    (r.init k).Ordered aw sy := by
  have hpos := (r.init k).modulus_pos
  rw [RB.ordered_iff, RB.init_rcount, RB.init_count, RB.init_wcount]
  exact ⟨hk, ⟨hpos, hpos, hpos, hpos⟩, Nat.le_refl 0, Nat.le_refl 0, Nat.zero_le _⟩

section
variable {aw sy : Nat} {r : RB} (h : r.Ordered aw sy)
include h

theorem RB.Ordered.count_lt : r.rcount sy < r.modulus ∧ r.count < r.modulus ∧ r.wcount sy < r.modulus := by
  have hmod := r.modulus_eq
  have hpos := r.cap_pos
  rw [RB.ordered_iff] at h
  omega

/-- The reader's copy has caught up exactly if it counts every byte. -/
theorem RB.Ordered.rcount_eq_iff (h0 : 0 < sy) : r.rcount sy = r.count ↔ r.rqW = r.wbin := by
  obtain ⟨_, ⟨hw, hr, _, hrq⟩, _⟩ := RB.ordered_iff.mp h
  rw [RB.rcount, RB.readerCopy, if_neg (by omega)]
  exact ⟨ringDistance_left_inj hrq hw hr, fun e => by rw [e, RB.count]⟩

/-- The writer's copy has caught up exactly if it counts no byte that was read. -/
theorem RB.Ordered.wcount_eq_iff (h0 : 0 < sy) : r.wcount sy = r.count ↔ r.wqR = r.rbin := by
  obtain ⟨_, ⟨hw, hr, hwq, _⟩, _⟩ := RB.ordered_iff.mp h
  rw [RB.wcount, RB.writerCopy, if_neg (by omega)]
  exact ⟨ringDistance_right_inj hw hwq hr, fun e => by rw [e, RB.count]⟩

variable (haw : aw ≤ 15)
include haw

theorem RB.Ordered.modulus_le : r.modulus ≤ 65536 := RB.modulus_le_of_inv (r := r.bare) h haw

/-- A pointer that moves by one stays below the modulus. -/
theorem RB.Ordered.next_lt (x : BitVec 16) : (ringNext r.modulus x).toNat < r.modulus := by
  rw [ringNext_toNat r.modulus_pos (h.modulus_le haw)]
  exact Nat.mod_lt _ r.modulus_pos

/-! ### Writes and reads keep the order (spec/40_ring_buffer.md R104, R105) -/

theorem RB.Ordered.push_count (hfull : r.full sy = false) (b : Byte) : (r.push b).count = r.count + 1 :=
  RB.push_count (r := r.bare) h haw hfull b

theorem RB.Ordered.pop_count (hempty : r.empty sy = false) : r.pop.count + 1 = r.count :=
  RB.pop_count (r := r.bare) h haw hempty

theorem RB.Ordered.pop_wcount (hempty : r.empty sy = false) :
    r.pop.wcount sy + (if sy = 0 then 1 else 0) = r.wcount sy := by
  split
  · next h0 =>
    subst h0
    exact h.pop_count haw hempty
  · next h0 => exact RB.pop_wcount_of_depth h0 r

theorem RB.Ordered.push (hfull : r.full sy = false) (b : Byte) : (r.push b).Ordered aw sy := by
  have hcount := h.push_count haw hfull b
  have hwcount : (r.push b).wcount sy = r.wcount sy + 1 := RB.push_wcount (r := r.bare) h haw hfull b
  have hrcount : (r.push b).rcount sy = r.rcount sy + if sy = 0 then 1 else 0 :=
    RB.push_avail (r := r.bare) h haw hfull b
  have hroom : r.wcount sy < r.cap := RB.wcount_lt_cap (r := r.bare) h hfull
  have hnext := h.next_lt haw r.wbin
  rw [RB.ordered_iff] at h ⊢
  obtain ⟨hk, ⟨_, hr, hwq, hrq⟩, hle, hle', _⟩ := h
  refine ⟨hk, ⟨hnext, hr, hwq, hrq⟩, ?_⟩
  rw [hcount, hwcount, hrcount, RB.push_cap]
  split <;> omega

theorem RB.Ordered.pop (hempty : r.empty sy = false) : r.pop.Ordered aw sy := by
  have hcount := h.pop_count haw hempty
  have hrcount : r.pop.rcount sy + 1 = r.rcount sy := RB.pop_avail (r := r.bare) h haw hempty
  have hwcount := h.pop_wcount haw hempty
  have hnext := h.next_lt haw r.rbin
  rw [RB.ordered_iff] at h ⊢
  obtain ⟨hk, ⟨hw, _, hwq, hrq⟩, hle, hle', hcap⟩ := h
  refine ⟨hk, ⟨hw, hnext, hwq, hrq⟩, ?_⟩
  rw [RB.pop_cap]
  split at hwcount <;> omega

/-! ### A copy that lags gains one with each step (spec/40_ring_buffer.md R110) -/

theorem RB.Ordered.next_rqW_rcount (h0 : 0 < sy) (hne : r.rqW ≠ r.wbin) :
    RB.rcount sy { r with rqW := ringNext r.modulus r.rqW } = r.rcount sy + 1 := by
  have hlag := mt (h.rcount_eq_iff h0).mp hne
  obtain ⟨_, hlt, _⟩ := h.count_lt
  have hm := h.modulus_le haw
  obtain ⟨_, ⟨_, hr, _, hrq⟩, hle, _⟩ := RB.ordered_iff.mp h
  have hroom : r.rcount sy + 1 < r.modulus := by omega
  rw [RB.rcount, RB.readerCopy, if_neg (by omega)] at hroom ⊢
  rw [RB.rcount, RB.readerCopy, if_neg (by omega)]
  exact ringDistance_next_left hm hrq hr hroom

theorem RB.Ordered.next_wqR_wcount (h0 : 0 < sy) (hne : r.wqR ≠ r.rbin) :
    RB.wcount sy { r with wqR := ringNext r.modulus r.wqR } + 1 = r.wcount sy := by
  have hlag := mt (h.wcount_eq_iff h0).mp hne
  have hm := h.modulus_le haw
  obtain ⟨_, ⟨hw, _, hwq, _⟩, _, hle, _⟩ := RB.ordered_iff.mp h
  have hpos : 0 < r.wcount sy := by omega
  rw [RB.wcount, RB.writerCopy, if_neg (by omega)] at hpos ⊢
  rw [RB.wcount, RB.writerCopy, if_neg (by omega)]
  exact ringDistance_next_right hm hw hwq hpos

theorem RB.Ordered.next_rqW (h0 : 0 < sy) (hne : r.rqW ≠ r.wbin) :
    RB.Ordered aw sy { r with rqW := ringNext r.modulus r.rqW } := by
  have hlag := mt (h.rcount_eq_iff h0).mp hne
  have hcount := h.next_rqW_rcount haw h0 hne
  have hnext := h.next_lt haw r.rqW
  rw [RB.ordered_iff] at h ⊢
  obtain ⟨hk, ⟨hw, hr, hwq, _⟩, hle, hview⟩ := h
  exact ⟨hk, ⟨hw, hr, hwq, hnext⟩, by rw [hcount]; change _ ≤ r.count; omega, hview⟩

theorem RB.Ordered.next_wqR (h0 : 0 < sy) (hne : r.wqR ≠ r.rbin) :
    RB.Ordered aw sy { r with wqR := ringNext r.modulus r.wqR } := by
  have hlag := mt (h.wcount_eq_iff h0).mp hne
  have hcount := h.next_wqR_wcount haw h0 hne
  have hnext := h.next_lt haw r.wqR
  rw [RB.ordered_iff] at h ⊢
  obtain ⟨hk, ⟨hw, hr, _, hrq⟩, hle, hle', hcap⟩ := h
  exact ⟨hk, ⟨hw, hr, hnext, hrq⟩, hle, by change r.count ≤ _; omega, by change _ ≤ r.cap; omega⟩

theorem RB.Ordered.sync (d : SyncDir) : (r.sync sy d).Ordered aw sy := by
  obtain e | ⟨h0, -, hne, e⟩ | ⟨h0, -, hne, e⟩ := RB.sync_cases sy d r
  · rwa [e]
  · rw [e]
    exact h.next_rqW haw h0 hne
  · rw [e]
    exact h.next_wqR haw h0 hne

end

theorem RB.sync_w2r_of_ne {sy : Nat} (h0 : 0 < sy) {r : RB} (h : r.rqW ≠ r.wbin) :
    r.sync sy .w2r = { r with rqW := ringNext r.modulus r.rqW } := by
  simp [RB.sync, h, Nat.ne_of_gt h0]

theorem RB.sync_r2w_of_ne {sy : Nat} (h0 : 0 < sy) {r : RB} (h : r.wqR ≠ r.rbin) :
    r.sync sy .r2w = { r with wqR := ringNext r.modulus r.wqR } := by
  simp [RB.sync, h, Nat.ne_of_gt h0]

section
variable {aw sy : Nat} (haw : aw ≤ 15) (h0 : 0 < sy)
include haw h0

/-- As many steps as the reader's copy lags bring it to the pointer. -/
theorem RB.Ordered.iterate_w2r (n : Nat) : ∀ {r : RB}, r.Ordered aw sy → r.rcount sy + n = r.count →
    ((RB.sync sy .w2r)^[n] r).rqW = r.wbin ∧ ((RB.sync sy .w2r)^[n] r).avail sy = r.count := by
  induction n with
  | zero => exact fun h hn => ⟨(h.rcount_eq_iff h0).mp hn, hn⟩
  | succ n ih =>
    intro r h hn
    have hne : r.rqW ≠ r.wbin := fun e => by
      have := (h.rcount_eq_iff h0).mpr e
      omega
    have hcount := h.next_rqW_rcount haw h0 hne
    rw [Function.iterate_succ_apply, RB.sync_w2r_of_ne h0 hne]
    exact ih (h.next_rqW haw h0 hne) (by rw [hcount, Nat.add_assoc, Nat.add_comm 1]; exact hn)

/-- As many steps as the writer's copy lags bring it to the pointer. -/
theorem RB.Ordered.iterate_r2w (n : Nat) : ∀ {r : RB}, r.Ordered aw sy → r.wcount sy = r.count + n →
    ((RB.sync sy .r2w)^[n] r).wqR = r.rbin ∧ ((RB.sync sy .r2w)^[n] r).free sy = r.cap - r.count := by
  induction n with
  | zero =>
    exact fun h hn => ⟨(h.wcount_eq_iff h0).mp hn, by rw [Function.iterate_zero_apply, RB.free, hn, Nat.add_zero]⟩
  | succ n ih =>
    intro r h hn
    have hne : r.wqR ≠ r.rbin := fun e => by
      have := (h.wcount_eq_iff h0).mpr e
      omega
    have hcount := h.next_wqR_wcount haw h0 hne
    rw [Function.iterate_succ_apply, RB.sync_r2w_of_ne h0 hne]
    exact ih (h.next_wqR haw h0 hne) (show _ = r.count + n by omega)

end

/-! ### Every allowed operation keeps the invariant -/

theorem RB.writeSlot_lt (r : RB) : r.writeSlot < r.cap := Nat.mod_lt _ r.cap_pos

theorem RB.Changes.inv {aw sy : Nat} {r r' : RB} (hc : RB.Changes aw sy r r') (haw : aw ≤ 15) (h : r.Inv aw sy) :
    r'.Inv aw sy := by
  rw [RB.inv_iff_ordered] at h ⊢
  obtain ⟨hord, hwf, haddr⟩ := h
  cases hc with
  | rest => exact ⟨hord, hwf, haddr⟩
  | push b hfull =>
    refine ⟨hord.push haw hfull b, Memory.write_wf hwf _ b, fun c hcell => ?_⟩
    obtain ⟨hk, _⟩ := RB.ordered_iff.mp hord
    have hcap : r.cap ≤ 2 ^ aw := Nat.pow_le_pow_right (by omega) hk
    obtain hslot | hold := Memory.mem_write hcell
    · exact hslot ▸ r.writeSlot_lt.trans_le hcap
    · exact haddr c hold
  | pop hempty => exact ⟨hord.pop haw hempty, hwf, haddr⟩
  | init hk => exact ⟨RB.init_ordered sy r hk, hwf, haddr⟩
  | sync d =>
    have hmem : (r.sync sy d).mem = r.mem := by
      obtain e | ⟨-, -, -, e⟩ | ⟨-, -, -, e⟩ := RB.sync_cases sy d r <;> rw [e]
    exact ⟨hord.sync haw d, hmem ▸ hwf, hmem ▸ haddr⟩

/-! ### The ring as a queue (spec/40_ring_buffer.md R109) -/

/-- What slot number `j` from the oldest on holds. -/
def RB.slot (r : RB) (j : Nat) : Option Byte := r.mem.read ((r.rbin.toNat + j) % r.cap)

theorem RB.contents_eq (r : RB) : r.contents = (List.range r.count).map r.slot := rfl

/-- The write pointer lies `count` slots behind the read pointer. -/
theorem RB.writeSlot_eq {r : RB} (hw : r.wbin.toNat < r.modulus) (hr : r.rbin.toNat < r.modulus) :
    r.writeSlot = (r.rbin.toNat + r.count) % r.cap := by
  have hmod := r.modulus_eq
  have hcount : r.count = if r.rbin.toNat ≤ r.wbin.toNat then r.wbin.toNat - r.rbin.toNat
      else r.wbin.toNat + r.modulus - r.rbin.toNat := ringDistance_eq hw hr
  rw [RB.writeSlot]
  split at hcount
  · rw [show r.rbin.toNat + r.count = r.wbin.toNat by omega]
  · rw [show r.rbin.toNat + r.count = r.wbin.toNat + r.cap * 2 by omega, Nat.add_mul_mod_self_left]

theorem RB.slot_ne {r : RB} {i j : Nat} (hi : i < r.cap) (hj : j < r.cap) (hne : i ≠ j) :
    (r.rbin.toNat + i) % r.cap ≠ (r.rbin.toNat + j) % r.cap := fun e =>
  hne ((Nat.ModEq.add_left_cancel' _ (show _ ≡ _ [MOD r.cap] from e)).eq_of_lt_of_lt hi hj)

section
variable {aw sy : Nat} {r : RB} (h : r.Ordered aw sy) (haw : aw ≤ 15)
include h haw

/-- A write puts its byte behind the others. -/
theorem RB.Ordered.push_contents (hfull : r.full sy = false) (b : Byte) :
    (r.push b).contents = r.contents ++ [some b] := by
  have hroom : r.wcount sy < r.cap := RB.wcount_lt_cap (r := r.bare) h hfull
  have hcount := h.push_count haw hfull b
  obtain ⟨_, ⟨hw, hr, _⟩, _, hle, _⟩ := RB.ordered_iff.mp h
  have hslot := RB.writeSlot_eq hw hr
  have hold : ∀ j < r.count, (r.push b).slot j = r.slot j := fun j hj => by
    have hne := RB.slot_ne (r := r) (i := j) (j := r.count) (by omega) (by omega) (by omega)
    exact Memory.read_write_ne _ _ (hslot ▸ hne)
  have hnew : (r.push b).slot r.count = some b := by
    rw [RB.slot, RB.push_rbin, RB.push_cap, RB.push_mem, ← hslot, Memory.read_write_self]
  rw [RB.contents_eq, RB.contents_eq, hcount, List.range_succ, List.map_append, List.map_singleton, hnew]
  congr 1
  exact List.map_congr_left fun j hj => hold j (List.mem_range.mp hj)

/-- A read takes the oldest byte. -/
theorem RB.Ordered.contents_eq_cons (hempty : r.empty sy = false) :
    r.contents = r.mem.read r.readSlot :: r.pop.contents := by
  have hcount := h.pop_count haw hempty
  have hmod := r.modulus_eq
  have hnext : r.pop.rbin.toNat = (r.rbin.toNat + 1) % r.modulus := ringNext_toNat r.modulus_pos (h.modulus_le haw) _
  have hslot : ∀ j, r.pop.slot j = r.slot (j + 1) := fun j => by
    rw [RB.slot, RB.slot, hnext, RB.pop_cap, RB.pop_mem, hmod, Nat.add_mod, Nat.mod_mod_of_dvd _ (Dvd.intro_left 2 rfl),
      ← Nat.add_mod, Nat.add_right_comm, Nat.add_assoc]
  rw [RB.contents_eq, RB.contents_eq, ← hcount, List.range_succ_eq_map, List.map_cons, List.map_map]
  refine congrArg₂ List.cons (by rw [RB.slot, Nat.add_zero, RB.readSlot]) ?_
  exact List.map_congr_left fun j _ => (hslot j).symm

end

theorem RB.sync_contents (sy : Nat) (d : SyncDir) (r : RB) : (r.sync sy d).contents = r.contents := by
  obtain e | ⟨-, -, -, e⟩ | ⟨-, -, -, e⟩ := RB.sync_cases sy d r <;> rw [e] <;> rfl

/-- What a run's reads find, followed by what the ring then holds, is what it held, followed by what was written. -/
theorem ringRun_contents {aw sy : Nat} (haw : aw ≤ 15) (ops : List RingOp) :
    ∀ {r r' : RB} {found : List (Option Byte)}, r.Ordered aw sy → ringRun sy r ops = some (r', found) →
      r.contents ++ (RingOp.written ops).map some = found ++ r'.contents := by
  induction ops with
  | nil =>
    rintro r r' found - hrun
    cases hrun
    simp [RingOp.written]
  | cons op rest ih =>
    intro r r' found h hrun
    cases op with
    | write b =>
      rw [ringRun] at hrun
      split at hrun
      · cases hrun
      · next hfull =>
        have hfull := Bool.eq_false_of_not_eq_true hfull
        have := ih (h.push haw hfull b) hrun
        rwa [h.push_contents haw hfull, List.append_assoc] at this
    | read =>
      rw [ringRun] at hrun
      split at hrun
      · cases hrun
      · next hempty =>
        have hempty := Bool.eq_false_of_not_eq_true hempty
        obtain ⟨⟨r₁, found₁⟩, hrun₁, heq⟩ := Option.map_eq_some_iff.mp hrun
        cases heq
        rw [h.contents_eq_cons haw hempty]
        exact congrArg _ (ih (h.pop haw hempty) hrun₁)
    | sync d =>
      rw [ringRun] at hrun
      have := ih (h.sync haw d) hrun
      rwa [RB.sync_contents] at this

/-- Settles O26: each of the four is an allowed operation. -/
theorem ringStepsKeepTheInvariant : Obligations.RingStepsKeepTheInvariant := fun _ _ _ haw h =>
  ⟨fun b hfull => (RB.Changes.push b hfull).inv haw h, fun hempty => (RB.Changes.pop hempty).inv haw h,
    fun _ hk => (RB.Changes.init hk).inv haw h, fun d => (RB.Changes.sync d).inv haw h⟩

/-- Settles O27: each view is on its safe side of the true count, and is the true count without a synchroniser. -/
theorem ringFlagsAreOneSided : Obligations.RingFlagsAreOneSided := by
  intro aw sy r h
  have hpos := r.cap_pos
  obtain ⟨_, _, ⟨hle, hle', hcap⟩, _⟩ := h
  rw [RB.full_eq_false_iff, RB.empty_eq_false_iff, RB.free, RB.avail]
  refine ⟨fun _ => by omega, fun _ => by omega, by omega, hle, ?_, fun ⟨hzero, hfull⟩ => ?_⟩
  · rintro rfl
    exact ⟨beq_iff_eq, beq_iff_eq⟩
  · have : r.count = r.cap := beq_iff_eq.mp hfull
    omega

/-- Settles O28: each copy gains one on its pointer with each step. -/
theorem pointerCopiesCatchUp : Obligations.PointerCopiesCatchUp := by
  intro aw sy r haw h0 h
  obtain ⟨hord, -⟩ := RB.inv_iff_ordered.mp h
  obtain ⟨_, _, ⟨hle, hle', _⟩, _⟩ := h
  exact ⟨hord.iterate_w2r haw h0 _ (by omega), hord.iterate_r2w haw h0 _ (by omega)⟩

/-- Settles O29: an initialised ring is empty, so what was written is found or still held. -/
theorem ringReturnsBytesInOrder : Obligations.RingReturnsBytesInOrder := by
  intro aw sy r r' k ops found haw hk hrun
  have hempty : (r.init k).contents = [] := by rw [RB.contents_eq, RB.init_count, List.range_zero, List.map_nil]
  have := ringRun_contents haw ops (RB.init_ordered sy r hk) hrun
  rwa [hempty, List.nil_append] at this

end Sys2Proof.Machine

/-! # The gray code on the circle of pointers

`gray2bin` restores the bits from the top down. A value and its successor differ in a block of low bits that ends at the
first zero, or in all bits at the wrap; the code of such a block is one bit. -/

namespace Sys2Proof.Machine

theorem bin2gray_getLsbD {w : Nat} (b : BitVec w) (j : Nat) :
    (bin2gray b).getLsbD j = (b.getLsbD j ^^ b.getLsbD (j + 1)) := by
  rw [bin2gray, BitVec.getLsbD_xor, BitVec.getLsbD_ushiftRight, Nat.add_comm 1]

/-- With the bits from `n` on restored, the search restores the others. -/
theorem grayBits_bin2gray {w : Nat} (b : BitVec w) (n : Nat) (hn : n ≤ w) : ∀ acc : BitVec w,
    (∀ j < w, acc.getLsbD j = (decide (n ≤ j) && b.getLsbD j)) → grayBits (bin2gray b) n (b.getLsbD n) acc = b := by
  induction n with
  | zero =>
    intro acc hacc
    rw [grayBits]
    exact BitVec.eq_of_getLsbD_eq fun j hj => by simpa using hacc j hj
  | succ n ih =>
    intro acc hacc
    have hbit : (b.getLsbD (n + 1) ^^ (bin2gray b).getLsbD n) = b.getLsbD n := by
      rw [bin2gray_getLsbD, Bool.xor_comm, Bool.xor_assoc, Bool.xor_self, Bool.xor_false]
    rw [grayBits, hbit]
    refine ih (by omega) _ fun j hj => ?_
    have hset : (if b.getLsbD n then acc ||| (1#w <<< n) else acc).getLsbD j =
        (acc.getLsbD j || (b.getLsbD n && decide (j = n))) := by
      have hone : (1#w <<< n).getLsbD j = decide (j = n) := by
        rw [← BitVec.twoPow, BitVec.getLsbD_twoPow, decide_eq_true (show n < w from hn), Bool.true_and]
        exact decide_eq_decide.mpr eq_comm
      split
      · rw [BitVec.getLsbD_or, hone, ‹b.getLsbD n = true›, Bool.true_and]
      · simp [‹¬ b.getLsbD n = true›]
    rw [hset, hacc j hj]
    obtain rfl | hne := eq_or_ne j n
    · simp
    · have hle : (n + 1 ≤ j) ↔ n ≤ j := by omega
      simp [hne, hle]

theorem gray2bin_bin2gray {w : Nat} (b : BitVec w) : gray2bin (bin2gray b) = b := by
  have htop : b.getLsbD w = false := BitVec.getLsbD_of_ge _ _ (Nat.le_refl w)
  rw [gray2bin, ← htop]
  refine grayBits_bin2gray b w (Nat.le_refl w) 0 fun j hj => ?_
  simp [Nat.not_le.mpr hj]

/-- A number and its successor on a circle of `2^(w+1)` differ in a block of low bits. -/
theorem exists_xor_succ_mod (w : Nat) :
    ∀ x < 2 ^ (w + 1), ∃ k ≤ w, x ^^^ ((x + 1) % 2 ^ (w + 1)) = 2 ^ (k + 1) - 1 := by
  induction w with
  | zero =>
    intro x hx
    interval_cases x <;> exact ⟨0, Nat.le_refl 0, rfl⟩
  | succ w ih =>
    intro x hx
    have hpow : 2 ^ (w + 1 + 1) = 2 * 2 ^ (w + 1) := Nat.pow_succ'
    have hdiv : (x ^^^ ((x + 1) % 2 ^ (w + 1 + 1))) / 2 = x / 2 ^^^ ((x + 1) / 2 % 2 ^ (w + 1)) := by
      rw [Nat.xor_div_two, hpow, Nat.mod_mul_right_div_self]
    have hmod : (x ^^^ ((x + 1) % 2 ^ (w + 1 + 1))) % 2 = 1 := by
      rw [Nat.xor_mod_two_eq, Nat.add_mod, Nat.mod_mod_of_dvd _ (hpow ▸ Nat.dvd_mul_right 2 _)]
      omega
    obtain heven | hodd := Nat.mod_two_eq_zero_or_one x
    · rw [show (x + 1) / 2 = x / 2 by omega, Nat.mod_eq_of_lt (show x / 2 < _ by omega), Nat.xor_self] at hdiv
      exact ⟨0, Nat.zero_le _, by omega⟩
    · obtain ⟨k, hk, hblock⟩ := ih (x / 2) (by omega)
      rw [show (x + 1) / 2 = x / 2 + 1 by omega, hblock] at hdiv
      have hpos := Nat.two_pow_pos (k + 1)
      have hnext : 2 ^ (k + 1 + 1) = 2 * 2 ^ (k + 1) := Nat.pow_succ'
      exact ⟨k + 1, by omega, by omega⟩

theorem bin2gray_low_block {w k : Nat} (hk : k ≤ w) {b : BitVec (w + 1)} (hb : b.toNat = 2 ^ (k + 1) - 1) :
    bin2gray b = BitVec.twoPow (w + 1) k := by
  refine BitVec.eq_of_getLsbD_eq fun j hj => ?_
  have hbits : ∀ i, b.getLsbD i = decide (i < k + 1) := fun i => by
    rw [BitVec.getLsbD, hb, Nat.testBit_two_pow_sub_one]
  rw [bin2gray_getLsbD, hbits, hbits, BitVec.getLsbD_twoPow]
  obtain hlt | rfl | hgt := Nat.lt_trichotomy j k
  · simp [show j < k + 1 by omega, hlt, Nat.ne_of_gt hlt]
  · simp [hj]
  · simp [show ¬ j < k + 1 by omega, show ¬ j < k by omega, Nat.ne_of_lt hgt]

theorem popcount_twoPow {w k : Nat} (hk : k < w) : popcount (BitVec.twoPow w k) = 1 := by
  have hbits : ∀ j ∈ List.range w, (BitVec.twoPow w k).getLsbD j = (j == k) := fun j hj => by
    rw [BitVec.getLsbD_twoPow, decide_eq_true hk, Bool.true_and, Bool.beq_eq_decide_eq]
    exact decide_eq_decide.mpr eq_comm
  rw [popcount, List.countP_congr fun j hj => by rw [hbits j hj]]
  exact List.count_eq_one_of_mem List.nodup_range (List.mem_range.mpr hk)

/-- Settles O24: restoring from the top down, and the one bit that the block between a value and its successor
codes to. -/
theorem grayCodeConvertsAndStepsOneBit : Obligations.GrayCodeConvertsAndStepsOneBit := by
  refine ⟨fun w b => gray2bin_bin2gray b, fun w b => ?_⟩
  obtain ⟨k, hk, hblock⟩ := exists_xor_succ_mod w b.toNat b.isLt
  have hx : (b ^^^ (b + 1)).toNat = 2 ^ (k + 1) - 1 := by
    rw [← hblock, BitVec.toNat_xor, BitVec.toNat_add]
    simp
  rw [← bin2gray_xor, bin2gray_low_block hk hx, popcount_twoPow (by omega)]

end Sys2Proof.Machine

/-! # What one clock cycle of a port can change

Each engine writes its own registers and its own hardware FIFO, the receive engine also the three flags it may set; the
baud generator writes its accumulator. -/

namespace Sys2Proof.Machine

/-! ### The transmit engine (spec/42_uart_engine.md R223, R224) -/

section
variable (P : Params) (free : Byte) (q : Port)

/-- The transmit engine's registers from one port, all else from another. -/
def Port.withTx (q e : Port) : Port :=
  { q with
    hwtx := e.hwtx, txstate := e.txstate, txsr := e.txsr, txbit := e.txbit, txtick := e.txtick, txpar := e.txpar,
    txdO := e.txdO }

theorem txTryLoad_frame : txTryLoad P free q = q.withTx (txTryLoad P free q) := by
  unfold txTryLoad
  split <;> rfl

theorem txTick_frame : txTick P free q = q.withTx (txTick P free q) := by
  have hload : txTryLoad P free { q with txtick := 0 } = q.withTx (txTryLoad P free { q with txtick := 0 }) :=
    txTryLoad_frame P free { q with txtick := 0 }
  have hend : txBitEnd P free { q with txtick := 0 } = q.withTx (txBitEnd P free { q with txtick := 0 }) := by
    unfold txBitEnd
    split
    · exact hload
    · rfl
    · split
      · rfl
      · split <;> rfl
    · rfl
    · exact hload
  unfold txTick
  split
  · rfl
  · split
    · exact txTryLoad_frame P free q
    all_goals
      split
      · rfl
      · exact hend

/-- `HWTX` stays, or gives its oldest byte to the engine. -/
theorem txTryLoad_hwtx : RB.Changes P.hwfifoAw P.syncHwfifo q.hwtx (txTryLoad P free q).hwtx := by
  unfold txTryLoad
  split
  · next h =>
    rw [Bool.and_eq_true, Bool.not_eq_true'] at h
    exact .pop h.1
  · exact .rest

theorem txTick_hwtx : RB.Changes P.hwfifoAw P.syncHwfifo q.hwtx (txTick P free q).hwtx := by
  have hload : RB.Changes P.hwfifoAw P.syncHwfifo q.hwtx (txTryLoad P free { q with txtick := 0 }).hwtx :=
    txTryLoad_hwtx P free { q with txtick := 0 }
  have hend : RB.Changes P.hwfifoAw P.syncHwfifo q.hwtx (txBitEnd P free { q with txtick := 0 }).hwtx := by
    unfold txBitEnd
    split
    · exact hload
    · exact .rest
    · split
      · exact .rest
      · split <;> exact .rest
    · exact .rest
    · exact hload
  unfold txTick
  split
  · exact .rest
  · split
    · exact txTryLoad_hwtx P free q
    all_goals
      split
      · exact .rest
      · exact hend

end

/-! ### The receive engine (spec/42_uart_engine.md R226 to R229) -/

section
variable (P : Params) (q : Port)

/-- The receive engine's registers and the three flags it may set from one port, all else from another. -/
def Port.withRx (q e : Port) : Port :=
  { q with
    fe := e.fe, pe := e.pe, oe := e.oe, hwrx := e.hwrx, rxstate := e.rxstate, rxsr := e.rxsr, rxbit := e.rxbit,
    rxtick := e.rxtick, rxperr := e.rxperr }

/-- What the receive engine may do to its flags and its FIFO: set the former, push onto the latter. -/
structure Port.Receives (P : Params) (q q' : Port) : Prop where
  frame : q' = q.withRx q'
  fe : q.fe = true → q'.fe = true
  pe : q.pe = true → q'.pe = true
  oe : q.oe = true → q'.oe = true
  hwrx : RB.Changes P.hwfifoAw P.syncHwfifo q.hwrx q'.hwrx

theorem rxDeliver_receives : q.Receives P (rxDeliver P q) := by
  unfold rxDeliver
  dsimp only
  split
  · exact ⟨rfl, by simp +contextual, by simp +contextual, fun _ => rfl, .rest⟩
  · next h => exact ⟨rfl, by simp +contextual, by simp +contextual, id, .push _ (Bool.eq_false_of_not_eq_true h)⟩

theorem rxMiddle_receives : q.Receives P (rxMiddle P q) := by
  unfold rxMiddle
  split
  · exact ⟨rfl, id, id, id, .rest⟩
  · split <;> exact ⟨rfl, id, id, id, .rest⟩
  · exact ⟨rfl, id, id, id, .rest⟩
  · exact ⟨rfl, id, id, id, .rest⟩
  · exact rxDeliver_receives P q

theorem rxBitEnd_receives : q.Receives P (rxBitEnd q) := by
  unfold rxBitEnd
  split
  · exact ⟨rfl, id, id, id, .rest⟩
  · exact ⟨rfl, id, id, id, .rest⟩
  · split <;> exact ⟨rfl, id, id, id, .rest⟩
  · exact ⟨rfl, id, id, id, .rest⟩
  · exact ⟨rfl, id, id, id, .rest⟩

theorem rxTick_receives : q.Receives P (rxTick P q) := by
  have hmiddle : q.Receives P (rxMiddle P { q with rxtick := q.rxtick + 1 }) := by
    obtain ⟨hframe, hfe, hpe, hoe, hrx⟩ := rxMiddle_receives P { q with rxtick := q.rxtick + 1 }
    exact ⟨hframe, hfe, hpe, hoe, hrx⟩
  have hend : q.Receives P (rxBitEnd { q with rxtick := q.rxtick + 1 }) := by
    obtain ⟨hframe, hfe, hpe, hoe, hrx⟩ := rxBitEnd_receives P { q with rxtick := q.rxtick + 1 }
    exact ⟨hframe, hfe, hpe, hoe, hrx⟩
  unfold rxTick
  split
  · exact ⟨rfl, id, id, id, .rest⟩
  · split
    · split <;> exact ⟨rfl, id, id, id, .rest⟩
    all_goals
      dsimp only
      split
      · exact hmiddle
      · split
        · exact hend
        · exact ⟨rfl, id, id, id, .rest⟩

end

/-! ### The baud generator (spec/42_uart_engine.md R215 to R217) -/

section
variable {q : Port}

/-- The generator counts only in an enabled port with a divisor. -/
theorem Port.stopped (h : ¬ ((q.txe || q.rxe) = true ∧ 0 < q.brMod.toNat)) : q.ticks = false ∧ q.baccNext = 0 := by
  have hoff : ((q.txe || q.rxe) && decide (0 < q.brMod.toNat)) = false := by
    rw [Bool.and_eq_false_iff, decide_eq_false_iff_not, ← Bool.not_eq_true]
    exact not_and_or.mp h
  exact ⟨by rw [Port.ticks, hoff, Bool.false_and], by rw [Port.baccNext, hoff, if_neg Bool.false_ne_true]⟩

/-- In a counting port the accumulator takes `INC`, and a tick takes `MOD` from it. -/
theorem Port.counts (hon : (q.txe || q.rxe) = true) (hmod : 0 < q.brMod.toNat)
    (hinc : q.brInc.toNat ≤ q.brMod.toNat) (hacc : q.bacc.toNat < q.brMod.toNat) :
    q.baccNext.toNat + (if q.ticks then q.brMod.toNat else 0) = q.bacc.toNat + q.brInc.toNat ∧
      q.baccNext.toNat < q.brMod.toNat := by
  have h16 := q.brMod.isLt
  by_cases hsum : q.brMod.toNat ≤ q.bacc.toNat + q.brInc.toNat
  · simp only [Port.ticks, Port.baccNext, hon, hmod, hsum, decide_true, Bool.true_and, if_true]
    rw [BitVec.toNat_ofNat, Nat.mod_eq_of_lt (by omega)]
    omega
  · simp only [Port.ticks, Port.baccNext, hon, hmod, hsum, decide_true, decide_false, Bool.true_and, Bool.and_false,
      if_true, if_false]
    rw [BitVec.toNat_ofNat, Nat.mod_eq_of_lt (by omega)]
    simp
    omega

end

/-! ### One cycle (spec/42_uart_engine.md R215) -/

/-- What one cycle may do to a port, beside what the engines do to their own registers. -/
structure Port.Cycles (P : Params) (q q' : Port) : Prop where
  masks : q'.mtxr = q.mtxr ∧ q'.mrxr = q.mrxr
  flags : (q.fe = true → q'.fe = true) ∧ (q.pe = true → q'.pe = true) ∧ (q.oe = true → q'.oe = true) ∧
    q'.ue = q.ue ∧ q'.toe = q.toe
  enables : q'.txe = q.txe ∧ q'.rxe = q.rxe
  divisor : q'.brMod = q.brMod ∧ q'.brInc = q.brInc
  bacc : q'.bacc = q.baccNext
  hwtx : RB.Changes P.hwfifoAw P.syncHwfifo q.hwtx q'.hwtx
  hwrx : RB.Changes P.hwfifoAw P.syncHwfifo q.hwrx q'.hwrx

theorem uclkCycle_cycles (P : Params) (free : Byte) (q : Port) : q.Cycles P (uclkCycle P free q) := by
  obtain ⟨-, e⟩ | ⟨-, e⟩ := uclkCycle_cases P free q
  · rw [e, portTick]
    obtain ⟨hrx, hfe, hpe, hoe, hfifo⟩ := rxTick_receives P { samplePins q with bacc := (samplePins q).baccNext }
    have hload := txTick_hwtx P free (rxTick P { samplePins q with bacc := (samplePins q).baccNext })
    rw [txTick_frame]
    rw [hrx] at hload hfe hpe hoe hfifo ⊢
    exact ⟨⟨rfl, rfl⟩, ⟨hfe, hpe, hoe, rfl, rfl⟩, ⟨rfl, rfl⟩, ⟨rfl, rfl⟩, rfl, hload, hfifo⟩
  · rw [e]
    exact ⟨⟨rfl, rfl⟩, ⟨id, id, id, rfl, rfl⟩, ⟨rfl, rfl⟩, ⟨rfl, rfl⟩, rfl, .rest, .rest⟩

end Sys2Proof.Machine

/-! # What one step can change

A step is a transaction, another statement of the host, or the move of another agent. A statement that is no transaction
moves inside the host: it leaves the block, keeps the kind of the running context or returns to the one below, and may
write one byte of host memory. -/

namespace Sys2Proof.Machine

/-! ### The host's own moves (spec/60_exceptions.md R270, R284, R285) -/

/-- What a statement of the host that is no transaction leaves. -/
structure HostMove (s t : State) : Prop where
  block : BlockUnchanged s t
  kept : t.params = s.params ∧ t.host.handlers = s.host.handlers ∧ t.host.main = s.host.main
  stack : (t.host.running.kind = s.host.running.kind ∧ t.host.below = s.host.below) ∨
    s.host.below = t.host.running :: t.host.below
  mem : t.host.mem = s.host.mem ∨ ∃ a b, t.host.mem = s.host.mem.write a b

section
variable (s : State)

/-- A move within the running context. -/
theorem HostMove.within (a : Activation) (cs : List Activation) (r : Option Result) :
    HostMove s { s with host := { s.host with
      result := r, running := { s.host.running with act := a, callers := cs } } } :=
  ⟨⟨rfl, rfl, rfl⟩, ⟨rfl, rfl, rfl⟩, .inl ⟨rfl, rfl⟩, .inl rfl⟩

theorem HostMove.setAct (a : Activation) : HostMove s (s.setAct a) := .within s a _ _

theorem HostMove.enterProgram (prog : Program) (dst : Option Temp) : HostMove s (enterProgram s prog dst) :=
  .within s _ _ _

theorem HostMove.leaveContext (r : Option Result) :
    HostMove s (leaveContext { s with host := { s.host with result := r } }) := by
  obtain ⟨c, rest, hbelow, e⟩ | ⟨_, e⟩ := leaveContext_cases { s with host := { s.host with result := r } }
  · rw [e]
    exact ⟨⟨rfl, rfl, rfl⟩, ⟨rfl, rfl, rfl⟩, .inr hbelow, .inl rfl⟩
  · rw [e]
    exact .within s _ _ r

theorem HostMove.returnFrom (r : Option Result) : HostMove s (returnFrom s r) := by
  cases r with
  | none =>
    obtain ⟨a, rest, _, e⟩ | ⟨_, e⟩ := returnFrom_none_cases s
    · rw [e]
      exact .within s _ _ _
    · rw [e]
      exact .leaveContext s s.host.result
  | some x =>
    obtain ⟨a, rest, _, e⟩ | ⟨_, e⟩ := returnFrom_some_cases s x
    · rw [e]
      exact .within s _ _ _
    · rw [e]
      exact .leaveContext s (some x)

theorem HostMove.waitOn (target : Nat) : HostMove s (waitOn s target) := by
  obtain ⟨_, _, _, e⟩ | ⟨_, e⟩ := waitOn_cases s target
  · rw [e]
    exact .returnFrom s _
  · rw [e]
    exact .setAct s _

theorem HostMove.loadHostByte (t : Temp) (a : Word) : HostMove s (loadHostByte s t a) :=
  ⟨⟨rfl, rfl, rfl⟩, ⟨rfl, rfl, rfl⟩, .inl ⟨rfl, rfl⟩, .inl rfl⟩

theorem HostMove.storeHostByte (a v : Word) : HostMove s (storeHostByte s a v) :=
  ⟨⟨rfl, rfl, rfl⟩, ⟨rfl, rfl, rfl⟩, .inl ⟨rfl, rfl⟩, .inr ⟨_, _, rfl⟩⟩

end

/-! ### Every statement of the host -/

theorem of_withValue_next {α : Type} {v : Option α} {f : α → Answered} {t : State} (h : withValue v f = .next t) :
    ∃ x, v = some x ∧ f x = .next t := by
  obtain ⟨x, hv, e⟩ | ⟨_, e⟩ := withValue_cases v f
  · exact ⟨x, hv, e.symm.trans h⟩
  · cases h.symm.trans e

/-- A statement performs a primitive and stores its answer, or moves within the host. -/
theorem runStmt_next {s t : State} {st : Stmt} (h : runStmt s st = .next t) :
    (∃ i u dst, exec i s = .next u ∧ t = assigned u dst u.rdata) ∨ HostMove s t := by
  cases st with
  | bus dst hdr data =>
    obtain ⟨w, -, h⟩ := of_withValue_next h
    obtain ⟨d, -, h⟩ := of_withValue_next h
    obtain ⟨_, -, e⟩ | ⟨i, -, ⟨u, hu, e⟩ | ⟨_, -, e⟩ | ⟨_, -, e⟩⟩ := transact_cases s dst (busWord w d)
    · cases h.symm.trans e
    · cases h.symm.trans e
      exact .inl ⟨i, u, dst, hu, rfl⟩
    · cases h.symm.trans e
    · cases h.symm.trans e
  | set x e =>
    obtain ⟨v, -, h⟩ := of_withValue_next h
    cases h
    exact .inr (.setAct s _)
  | branch c target =>
    obtain ⟨b, -, h⟩ := of_withValue_next h
    cases h
    cases b <;> exact .inr (.setAct s _)
  | goto target =>
    cases h
    exact .inr (.setAct s _)
  | invoke e =>
    obtain ⟨w, -, h⟩ := of_withValue_next h
    obtain ⟨prog, -, e⟩ | ⟨-, e⟩ := invokeToken_cases s w
    · cases h.symm.trans e
      exact .inr (.enterProgram s prog none)
    · cases h.symm.trans e
  | call dst q =>
    obtain ⟨v, -, h⟩ := of_withValue_next h
    cases h
    exact .inr (.enterProgram s _ dst)
  | loadByte x e =>
    obtain ⟨a, -, h⟩ := of_withValue_next h
    cases h
    exact .inr (.loadHostByte s x a)
  | storeByte e v =>
    obtain ⟨a, -, h⟩ := of_withValue_next h
    obtain ⟨w, -, h⟩ := of_withValue_next h
    cases h
    exact .inr (.storeHostByte s a w)
  | env c =>
    cases h
    exact .inr (.setAct s _)
  | waitStart =>
    cases h
    exact .inr (.setAct s _)
  | waitAgain target =>
    cases h
    exact .inr (.waitOn s target)
  | ret a =>
    cases a with
    | plain | ok | err =>
      cases h
      exact .inr (.returnFrom s _)
    | okValue e =>
      obtain ⟨v, -, h⟩ := of_withValue_next h
      cases h
      exact .inr (.returnFrom s _)
  | raise f => cases h

theorem hostStep_next {s t : State} (h : hostStep s = .next t) :
    (∃ i u dst, exec i s = .next u ∧ t = assigned u dst u.rdata) ∨ HostMove s t := by
  rw [hostStep] at h
  split at h
  · cases h
    exact .inr (.returnFrom s none)
  · exact runStmt_next h

/-- A step is the move of one agent; the agenda beside it is bookkeeping. -/
theorem step_next {s t : State} (h : step s = .next t) :
    hostStep s = .next t ∨ ∃ e rest, s.agenda = e :: rest ∧ runEvent { s with agenda := rest } e = .next t := by
  cases hagenda : s.agenda with
  | nil => exact .inl ((step_of_agenda_nil hagenda).symm.trans h)
  | cons e rest => exact .inr ⟨e, rest, rfl, (step_of_agenda_cons hagenda).symm.trans h⟩

/-! ### No meaning refuses -/

section
variable {s : State} (e : Refusal)

theorem withVector_ne_refused {x : BitVec 5} {f : Unit → Answered} (h : f () ≠ .refused e) :
    withVector s x f ≠ .refused e := by
  obtain ⟨_, he⟩ | ⟨_, he⟩ := withVector_cases s x f
  · rwa [he]
  · rw [he]
    nofun

theorem withRing_ne_refused {i : BitVec 7} {f : BitVec 3 → Answered} (h : ∀ j, f j ≠ .refused e) :
    withRing s i f ≠ .refused e := by
  obtain ⟨_, he⟩ | ⟨_, he⟩ := withRing_cases s i f
  · rw [he]
    exact h _
  · rw [he]
    nofun

theorem withPort_ne_refused {p : BitVec 2} {f : Port → Answered} (h : ∀ q, f q ≠ .refused e) :
    withPort s p f ≠ .refused e := by
  obtain ⟨_, he⟩ | ⟨_, he⟩ := withPort_cases s p f
  · rw [he]
    exact h _
  · rw [he]
    nofun

theorem withSource_ne_refused {n : Word} (f : Nat → State) : withSource s n f ≠ .refused e := by
  obtain ⟨_, he⟩ | ⟨_, he⟩ := withSource_cases s n f <;> (rw [he]; nofun)

theorem withValue_ne_refused {α : Type} {v : Option α} {f : α → Answered} (h : ∀ x, f x ≠ .refused e) :
    withValue v f ≠ .refused e := by
  obtain ⟨x, _, he⟩ | ⟨_, he⟩ := withValue_cases v f
  · rw [he]
    exact h x
  · rw [he]
    nofun

theorem exec_ne_refused (i : Instr) : exec i s ≠ .refused e := by
  cases i with
  | itcEnableInt | itcDisableInt | itcSetFast | itcSetNormal | itcForceInt | itcUnforceInt | itcClearHandler =>
    rw [exec]
    exact withSource_ne_refused e _
  | itcSetHandler | itcVectR =>
    rw [exec]
    exact withVector_ne_refused e nofun
  | rbWstat | rbRstat | rbCap | rbWptr | rbRptr =>
    rw [exec]
    exact withRing_ne_refused e fun _ => nofun
  | rbInit | rbWrite | rbRead =>
    rw [exec]
    refine withRing_ne_refused e fun _ => ?_
    split <;> nofun
  | uartDataW | uartDataR =>
    rw [exec]
    refine withPort_ne_refused e fun _ => ?_
    split <;> nofun
  | uartBrW =>
    rw [exec]
    refine withPort_ne_refused e fun _ => ?_
    split
    · nofun
    · split <;> nofun
  | uartConW | uartConR | uartStatR | uartRxconW | uartRxconR | uartTxconW | uartTxconR | uartBrR | uartCbrxW
  | uartCbrxR | uartCbtxW | uartCbtxR | uartCbvalidR | uartCbclr | uartMaskset | uartMaskclr =>
    rw [exec]
    exact withPort_ne_refused e fun _ => nofun
  | _ => nofun

theorem transact_ne_refused (dst : Option Temp) (cw : CommandWord) : transact s dst cw ≠ .refused e := by
  obtain ⟨_, _, he⟩ | ⟨i, _, ⟨_, _, he⟩ | ⟨_, _, he⟩ | ⟨r, hr, _⟩⟩ := transact_cases s dst cw
  · rw [he]
    nofun
  · rw [he]
    nofun
  · rw [he]
    nofun
  · exact absurd hr (exec_ne_refused r i)

theorem runStmt_ne_refused (st : Stmt) : runStmt s st ≠ .refused e := by
  cases st with
  | bus dst hdr data =>
    rw [runStmt]
    exact withValue_ne_refused e fun _ => withValue_ne_refused e fun _ => transact_ne_refused e _ _
  | invoke x =>
    rw [runStmt]
    refine withValue_ne_refused e fun w => ?_
    obtain ⟨_, _, he⟩ | ⟨_, he⟩ := invokeToken_cases s w <;> (rw [he]; nofun)
  | set | branch | call | loadByte =>
    rw [runStmt]
    exact withValue_ne_refused e fun _ => nofun
  | storeByte =>
    rw [runStmt]
    exact withValue_ne_refused e fun _ => withValue_ne_refused e fun _ => nofun
  | ret a =>
    cases a with
    | okValue x => exact withValue_ne_refused e fun _ => nofun
    | _ => nofun
  | _ => nofun

theorem hostStep_ne_refused : hostStep s ≠ .refused e := by
  rw [hostStep]
  split
  · nofun
  · exact runStmt_ne_refused e _

end

theorem step_ne_refused (s : State) (e : Refusal) : step s ≠ .refused e := by
  cases hagenda : s.agenda with
  | nil =>
    rw [step_of_agenda_nil hagenda]
    exact hostStep_ne_refused e
  | cons ev rest =>
    rw [step_of_agenda_cons hagenda]
    cases ev with
    | host => exact hostStep_ne_refused e
    | _ => nofun

end Sys2Proof.Machine

/-! # The agents beside the host, and what a step keeps

An agent beside the host enters a context, moves one copy of one ring, or writes one port; so the facts about rings and
port cycles give what it leaves alone. With the lists of what a primitive and a statement of the host can change, every
step keeps the invariant. -/

namespace Sys2Proof.Machine

/-! ### Rings and ports by number -/

theorem State.port_setPort (s : State) (p r : BitVec 2) (q : Port) :
    (s.setPort p q).port r = if r = p then q else s.port r := by
  split
  · next h => rw [h, State.port_setPort_self]
  · next h => exact State.port_setPort_ne h s q

theorem State.getElem_setRing (s : State) (j : BitVec 3) (r : RB) (i : Fin 8) :
    (s.setRing j r).rings[i.val] = if j.toNat = i.val then r else s.rings[i.val] :=
  Vector.getElem_set j.isLt i.isLt

theorem State.getElem_setPort (s : State) (p : BitVec 2) (q : Port) (i : Fin 4) :
    (s.setPort p q).ports[i.val] = if p.toNat = i.val then q else s.ports[i.val] :=
  Vector.getElem_set p.isLt i.isLt

/-! ### The agents beside the host (spec/00_scope.md R7) -/

/-- A port after an agent other than the host has moved it. -/
inductive Port.Moves (P : Params) (q : Port) : Port → Prop
  | syncTx (d : SyncDir) : Port.Moves P q { q with hwtx := q.hwtx.sync P.syncHwfifo d }
  | syncRx (d : SyncDir) : Port.Moves P q { q with hwrx := q.hwrx.sync P.syncHwfifo d }
  | cycle (free : Byte) : Port.Moves P q (uclkCycle P free q)
  | pins (rxd rts : Bool) : Port.Moves P q { q with rxdI := rxd, rtsI := rts }

/-- The states an event other than a host move and reset can leave. -/
inductive AgentMove (s : State) (e : Event) : State → Prop
  | rest : AgentMove s e s
  | enter {kind : ContextKind} (prog : Program) (he : e = .enter) (hnew : kind ≠ .mainline)
      (hold : s.host.running.kind ≠ .fast) : AgentMove s e (enterContext s kind prog)
  | ring (j : BitVec 3) (d : SyncDir) : AgentMove s e (s.setRing j ((s.ring j).sync s.params.syncRing d))
  | port {p : BitVec 2} {q : Port} (n : Nat) (h : Port.Moves s.params (s.port p) q) :
    AgentMove s e { s.setPort p q with draws := n }
  | src (lines : Word) : AgentMove s e (srcStep s lines)

theorem kind_ne_fast_of_entryAdmitted {s : State} (h : entryAdmitted s = true) : s.host.running.kind ≠ .fast := by
  rw [entryAdmitted, Bool.and_eq_true] at h
  exact of_decide_eq_true h.1

theorem runEvent_agent {s t : State} {e : Event} (hhost : e ≠ .host) (hreset : e ≠ .reset)
    (h : runEvent s e = .next t) : AgentMove s e t := by
  cases e with
  | host => exact absurd rfl hhost
  | reset => exact absurd rfl hreset
  | enter =>
    cases h
    obtain ⟨hadm, -, e⟩ | ⟨hadm, -, -, e⟩ | e := enterInterrupt_cases s
    · rw [e]
      exact .enter _ rfl nofun (kind_ne_fast_of_entryAdmitted hadm)
    · rw [e]
      exact .enter _ rfl nofun (kind_ne_fast_of_entryAdmitted hadm)
    · rw [e]
      exact .rest
  | sync i d =>
    cases h
    cases i with
    | ring j =>
      rw [syncStep]
      split
      · exact .ring j d
      · exact .rest
    | hwtx p =>
      rw [syncStep]
      split
      · exact .port s.draws (.syncTx d)
      · exact .rest
    | hwrx p =>
      rw [syncStep]
      split
      · exact .port s.draws (.syncRx d)
      · exact .rest
  | uclk p =>
    cases h
    rw [uclkStep]
    split
    · exact .port (s.draws + 1) (.cycle s.freeByte)
    · exact .rest
  | line p rxd rts =>
    cases h
    rw [lineStep]
    split
    · exact .port s.draws (.pins rxd rts)
    · exact .rest
  | src lines =>
    cases h
    exact .src lines

/-- No move of an agent changes a mask or clears an error flag. -/
theorem Port.Moves.keeps {P : Params} {q q' : Port} (h : Port.Moves P q q') :
    q'.mtxr = q.mtxr ∧ q'.mrxr = q.mrxr ∧ (q.fe = true → q'.fe = true) ∧ (q.pe = true → q'.pe = true) ∧
      (q.oe = true → q'.oe = true) ∧ (q.ue = true → q'.ue = true) ∧ (q.toe = true → q'.toe = true) := by
  cases h with
  | cycle free =>
    obtain ⟨⟨htx, hrx⟩, ⟨hfe, hpe, hoe, hue, htoe⟩, -⟩ := uclkCycle_cycles P free q
    exact ⟨htx, hrx, hfe, hpe, hoe, hue.trans, htoe.trans⟩
  | _ => exact ⟨rfl, rfl, id, id, id, id, id⟩

theorem AgentMove.port_cases {s t : State} {e : Event} (h : AgentMove s e t) (p : BitVec 2) :
    t.port p = s.port p ∨ Port.Moves s.params (s.port p) (t.port p) := by
  cases h with
  | port n hq =>
    rename_i r q
    have hport : State.port { s.setPort r q with draws := n } p = if p = r then q else s.port p :=
      State.port_setPort s r p q
    rw [hport]
    split
    · next hp => exact .inr (hp ▸ hq)
    · exact .inl rfl
  | _ => exact .inl rfl

/-- Settles O40: an agent's move of a port keeps its masks and flags, and no agent reaches the rest. -/
theorem agentsLeaveMasksItcAndHostAlone : Obligations.AgentsLeaveMasksItcAndHostAlone := by
  intro s t e hhost hreset h
  have hmove := runEvent_agent hhost hreset h
  have hports := hmove.port_cases
  have hframe : t.itc = s.itc ∧ t.params = s.params ∧ t.rdata = s.rdata ∧ (e ≠ .enter → t.host = s.host) := by
    cases hmove with
    | enter prog he => exact ⟨rfl, rfl, rfl, fun hne => absurd he hne⟩
    | _ => exact ⟨rfl, rfl, rfl, fun _ => rfl⟩
  obtain ⟨hitc, hparams, hrdata, hhost⟩ := hframe
  refine ⟨hitc, hparams, hrdata, hhost, fun p => ?_⟩
  obtain hsame | hq := hports p
  · rw [hsame]
    exact ⟨rfl, rfl, id, id, id, id, id⟩
  · exact hq.keeps

/-- Settles O60: every meaning answers or faults, and neither the host's moves nor the agents reach them. -/
theorem stepsNeverRefuseAndKeepParameters : Obligations.StepsNeverRefuseAndKeepParameters := by
  refine ⟨step_ne_refused, fun s t h => ?_⟩
  have hhost : ∀ {u : State}, hostStep u = .next t →
      t.params = u.params ∧ t.host.handlers = u.host.handlers ∧ t.host.main = u.host.main := by
    intro u hu
    obtain ⟨i, v, dst, hv, rfl⟩ | hmove := hostStep_next hu
    · obtain ⟨hhost, hparams, -⟩ := (exec_effect hv).frame
      rw [assigned_params, assigned_host, hhost]
      exact ⟨hparams, rfl, rfl⟩
    · exact hmove.kept
  obtain hstep | ⟨e, rest, -, hevent⟩ := step_next h
  · exact hhost hstep
  · by_cases h1 : e = .host
    · subst h1
      exact hhost (u := { s with agenda := rest }) hevent
    · by_cases h2 : e = .reset
      · subst h2
        cases hevent
        exact ⟨rfl, rfl, rfl⟩
      · cases runEvent_agent h1 h2 hevent <;> exact ⟨rfl, rfl, rfl⟩

/-! ### The controller's invariant (spec/10_state.md R30(a), R30(c)) -/

section
variable {P : Params}

theorem onlySources_iff {v : Word} : OnlySources P v ↔ ∀ k < 32, P.nsrc ≤ k → v.getLsbD k = false := by
  have hbit : ∀ k < 32, (v &&& ~~~(sourceMask P)).getLsbD k = (v.getLsbD k && decide (P.nsrc ≤ k)) := fun k hk => by
    rw [BitVec.getLsbD_and, BitVec.getLsbD_not, sourceMask_getLsbD P k hk, decide_eq_true hk, Bool.true_and,
      ← decide_not]
    simp
  constructor
  · intro h k hk hle
    have := hbit k hk
    rw [h] at this
    simpa [hle] using this.symm
  · intro h
    refine BitVec.eq_of_getLsbD_eq fun k hk => ?_
    rw [hbit k hk, show (0 : Word).getLsbD k = false from BitVec.getLsbD_zero]
    by_cases hle : P.nsrc ≤ k
    · rw [h k hk hle, Bool.false_and]
    · simp [hle]

theorem onlySources_zero : OnlySources P 0 := onlySources_iff.mpr fun _ _ _ => BitVec.getLsbD_zero

theorem onlySources_and_mask (m : Word) : OnlySources P (m &&& sourceMask P) :=
  onlySources_iff.mpr fun k hk hle => by simp [and_sourceMask_getLsbD m P hk, hle]

theorem OnlySources.putBit_false {v : Word} (h : OnlySources P v) (n : Nat) : OnlySources P (putBit v n false) :=
  onlySources_iff.mpr fun k hk hle => by rw [putBit_false_getLsbD v n hk, onlySources_iff.mp h k hk hle, Bool.false_and]

theorem OnlySources.putBit_true {v : Word} (h : OnlySources P v) {n : Nat} (hn : n < P.nsrc) :
    OnlySources P (putBit v n true) :=
  onlySources_iff.mpr fun k hk hle => by
    rw [putBit_true_getLsbD v n hk, onlySources_iff.mp h k hk hle, Bool.false_or]
    exact beq_false_of_ne (by omega)

theorem onlySources_one_shiftLeft {n : Nat} (hn : n < P.nsrc) : OnlySources P (1#32 <<< n) :=
  onlySources_iff.mpr fun k hk hle => by
    rw [one_shiftLeft_getLsbD, beq_false_of_ne (by omega), Bool.and_false]

/-- Clearing a bit adds no one. -/
theorem popcount_putBit_false_le (v : Word) (n : Nat) : popcount (putBit v n false) ≤ popcount v := by
  refine List.countP_mono_left fun k hk hb => ?_
  rw [putBit_false_getLsbD v n (List.mem_range.mp hk), Bool.and_eq_true] at hb
  exact hb.1

theorem Itc.Writes.inv {c d : Itc} {i : Instr} (hw : Itc.Writes P c i d) (hwf : P.wf) (h : c.Inv P) : d.Inv P := by
  obtain ⟨_, ⟨_, hnsrc⟩, _⟩ := hwf
  obtain ⟨hfast, hen, hfrc, htype, hvalid, hsave⟩ := h
  cases hw with
  | cntl | nimask => exact ⟨hfast, hen, hfrc, htype, hvalid, hsave⟩
  | enable hn => exact ⟨hfast, hen.putBit_true hn, hfrc, htype, hvalid, hsave⟩
  | disable hn => exact ⟨hfast, hen.putBit_false _, hfrc, htype, hvalid, hsave⟩
  | intenable m => exact ⟨hfast, onlySources_and_mask m, hfrc, htype, hvalid, hsave⟩
  | setFast hn =>
    exact ⟨(popcount_twoPow (by omega)).le, hen, hfrc, onlySources_one_shiftLeft hn, hvalid, hsave⟩
  | setNormal hn =>
    exact ⟨(popcount_putBit_false_le _ _).trans hfast, hen, hfrc, htype.putBit_false _, hvalid, hsave⟩
  | intfrc m => exact ⟨hfast, hen, onlySources_and_mask m, htype, hvalid, hsave⟩
  | force hn => exact ⟨hfast, hen, hfrc.putBit_true hn, htype, hvalid, hsave⟩
  | unforce hn => exact ⟨hfast, hen, hfrc.putBit_false _, htype, hvalid, hsave⟩
  | disableAll => exact ⟨hfast, onlySources_zero, hfrc, htype, hvalid, hen⟩
  | restore => exact ⟨hfast, hsave, hfrc, htype, hvalid, hsave⟩
  | clearHandler hn => exact ⟨hfast, hen, hfrc, htype, hvalid.putBit_false _, hsave⟩
  | setHandler hx w => exact ⟨hfast, hen, hfrc, htype, hvalid.putBit_true hx, hsave⟩

end

/-! ### A port's invariant (spec/10_state.md R30(b), R30(d)) -/

/-- The accumulator stays below the modulus. -/
theorem Port.baccNext_lt {q : Port} (hdiv : q.brMod.toNat = 0 ∨ q.brInc.toNat ≤ q.brMod.toNat)
    (hacc : q.bacc.toNat < max q.brMod.toNat 1) : q.baccNext.toNat < max q.brMod.toNat 1 := by
  by_cases hon : (q.txe || q.rxe) = true ∧ 0 < q.brMod.toNat
  · obtain ⟨hon, hmod⟩ := hon
    obtain ⟨_, hlt⟩ := Port.counts hon hmod (by omega) (by omega)
    omega
  · rw [(Port.stopped hon).2]
    exact lt_max_of_lt_right Nat.zero_lt_one

section
variable {P : Params} (hwf : P.wf) {q q' : Port}
include hwf

/-- What a primitive or an agent does to the FIFOs is allowed; so with the generator's registers legal, the invariant
stays. -/
theorem Port.inv_of_changes (h : q.Inv P) (htx : RB.Changes P.hwfifoAw P.syncHwfifo q.hwtx q'.hwtx)
    (hrx : RB.Changes P.hwfifoAw P.syncHwfifo q.hwrx q'.hwrx)
    (hgen : (q'.brMod.toNat = 0 ∨ q'.brInc.toNat ≤ q'.brMod.toNat) ∧ q'.bacc.toNat < max q'.brMod.toNat 1) :
    q'.Inv P := by
  have haw := Params.hwfifoAw_le hwf
  obtain ⟨hhwtx, hhwrx, -⟩ := h
  exact ⟨htx.inv haw hhwtx, hrx.inv haw hhwrx, hgen⟩

theorem Port.Writes.inv {p : BitVec 2} {i : Instr} (hw : Port.Writes P p q i q') (h : q.Inv P) : q'.Inv P := by
  obtain ⟨-, -, hgen⟩ := id h
  cases hw with
  | con v =>
    refine Port.inv_of_changes hwf h ?_ ?_ ?_
    · rw [Port.writeCon_hwtx]
      exact .rest
    · rw [Port.writeCon_hwrx]
      exact .rest
    · rw [Port.writeCon_brMod, Port.writeCon_brInc, Port.writeCon_bacc]
      exact hgen
  | data b hspace => exact Port.inv_of_changes hwf h (.push b (RB.full_eq_false_of_free hspace)) .rest hgen
  | received hlevel => exact Port.inv_of_changes hwf h .rest (.pop (RB.empty_eq_false_of_avail hlevel)) hgen
  | br hdiv =>
    refine Port.inv_of_changes hwf h .rest .rest ⟨?_, lt_max_of_lt_right Nat.zero_lt_one⟩
    dsimp only
    omega
  | _ => exact Port.inv_of_changes hwf h .rest .rest hgen

theorem Port.Moves.inv (hm : Port.Moves P q q') (h : q.Inv P) : q'.Inv P := by
  obtain ⟨-, -, hgen⟩ := id h
  cases hm with
  | syncTx d => exact Port.inv_of_changes hwf h (.sync d) .rest hgen
  | syncRx d => exact Port.inv_of_changes hwf h .rest (.sync d) hgen
  | cycle free =>
    obtain ⟨-, -, -, ⟨hmod, hinc⟩, hbacc, htx, hrx⟩ := uclkCycle_cycles P free q
    refine Port.inv_of_changes hwf h htx hrx ?_
    rw [hmod, hinc, hbacc]
    exact ⟨hgen.1, Port.baccNext_lt hgen.1 hgen.2⟩
  | pins rxd rts => exact Port.inv_of_changes hwf h .rest .rest hgen

end

/-! ### The context stack (spec/60_exceptions.md R280, R282(a)) -/

/-- The kinds of the contexts, innermost first. -/
def HostSide.kinds (h : HostSide) : List ContextKind := (h.running :: h.below).map Context.kind

/-- What the invariant says of the stack, of its kinds alone. -/
def KindsInv (ks : List ContextKind) : Prop :=
  ks.getLast? = some .mainline ∧ (∀ k ∈ ks.dropLast, k ≠ .mainline) ∧ ∀ k ∈ ks.tail, k ≠ .fast

theorem contextsInv_iff (h : HostSide) : ContextsInv h ↔ KindsInv h.kinds := by
  rw [KindsInv, HostSide.kinds, List.getLast?_map, List.getLast?_eq_some_getLast (List.cons_ne_nil _ _),
    Option.map_some, Option.some_inj, ← List.map_dropLast, ← List.map_tail]
  simp only [List.forall_mem_map, List.tail_cons, ContextsInv]

theorem KindsInv.leave {k l : ContextKind} {ks : List ContextKind} (h : KindsInv (k :: l :: ks)) :
    KindsInv (l :: ks) := by
  obtain ⟨hlast, hdrop, htail⟩ := h
  refine ⟨by rwa [List.getLast?_cons_cons] at hlast, fun m hm => hdrop m ?_,
    fun m hm => htail m (List.mem_of_mem_tail hm)⟩
  rw [List.dropLast_cons_cons]
  exact List.mem_cons_of_mem _ hm

theorem KindsInv.enter {k l : ContextKind} {ks : List ContextKind} (h : KindsInv (k :: ks)) (hl : l ≠ .mainline)
    (hk : k ≠ .fast) : KindsInv (l :: k :: ks) := by
  obtain ⟨hlast, hdrop, htail⟩ := h
  refine ⟨by rwa [List.getLast?_cons_cons], ?_, ?_⟩
  · rw [List.dropLast_cons_cons, List.forall_mem_cons]
    exact ⟨hl, hdrop⟩
  · rw [List.tail_cons, List.forall_mem_cons]
    exact ⟨hk, htail⟩

/-! ### The invariant of the machine (spec/10_state.md R30) -/

section
variable {s t : State}

theorem State.Inv.setItc (h : s.Inv) {c : Itc} (hc : c.Inv s.params) : (s.setItc c).Inv := by
  obtain ⟨hwf, -, hrest⟩ := h
  exact ⟨hwf, hc, hrest⟩

theorem State.Inv.setRing (h : s.Inv) (j : BitVec 3) {r : RB} (hr : r.Inv s.params.ringAw s.params.syncRing) :
    (s.setRing j r).Inv := by
  obtain ⟨hwf, hitc, hrings, hrest⟩ := h
  refine ⟨hwf, hitc, fun i => ?_, hrest⟩
  rw [State.getElem_setRing]
  split
  · exact hr
  · exact hrings i

theorem State.Inv.setPort (h : s.Inv) (p : BitVec 2) {q : Port} (hq : q.Inv s.params) : (s.setPort p q).Inv := by
  obtain ⟨hwf, hitc, hrings, hports, hrest⟩ := h
  refine ⟨hwf, hitc, hrings, fun i => ?_, hrest⟩
  rw [State.getElem_setPort]
  split
  · exact hq
  · exact hports i

theorem State.Inv.ring (h : s.Inv) (j : BitVec 3) : (s.ring j).Inv s.params.ringAw s.params.syncRing := by
  obtain ⟨-, -, hrings, -⟩ := h
  exact hrings ⟨j.toNat, j.isLt⟩

theorem State.Inv.port (h : s.Inv) (p : BitVec 2) : (s.port p).Inv s.params := by
  obtain ⟨-, -, -, hports, -⟩ := h
  exact hports ⟨p.toNat, p.isLt⟩

theorem State.Inv.ringAw_le (h : s.Inv) : s.params.ringAw ≤ 15 := by
  obtain ⟨⟨_, _, _, _, haw, _⟩, -⟩ := h
  exact haw

/-- The block as it was, the host's stack and memory legal. -/
theorem State.Inv.of_host (h : s.Inv) (hparams : t.params = s.params) (hblock : BlockUnchanged s t)
    (hstack : ContextsInv t.host) (hmem : t.host.mem.wf) : t.Inv := by
  obtain ⟨hwf, hitc, hrings, hports, -⟩ := h
  obtain ⟨eitc, erings, eports⟩ := hblock
  rw [← hparams] at hwf hitc hrings hports
  rw [← eitc] at hitc
  rw [← erings] at hrings
  rw [← eports] at hports
  exact ⟨hwf, hitc, hrings, hports, hstack, hmem⟩

theorem Effect.inv {i : Instr} (he : Effect s i t) (h : s.Inv) : t.Inv := by
  have hwf := h.1
  cases he with
  | answered v n => exact h
  | itc hw => exact h.setItc (hw.inv hwf h.2.1)
  | ring v n hc => exact h.setRing _ (hc.inv h.ringAw_le (h.ring _))
  | port v n hw => exact h.setPort _ (hw.inv hwf (h.port _))

theorem HostMove.inv (hm : HostMove s t) (h : s.Inv) : t.Inv := by
  obtain ⟨-, -, -, -, hctx, hmem⟩ := id h
  obtain ⟨hblock, ⟨hparams, -⟩, hstack, hwrite⟩ := hm
  refine h.of_host hparams hblock ?_ ?_
  · rw [contextsInv_iff, HostSide.kinds] at hctx ⊢
    obtain ⟨hkind, hbelow⟩ | hbelow := hstack
    · rwa [hbelow, List.map_cons, hkind, ← List.map_cons]
    · rw [hbelow] at hctx
      exact hctx.leave
  · obtain e | ⟨a, b, e⟩ := hwrite
    · rwa [e]
    · rw [e]
      exact Memory.write_wf hmem a b

theorem AgentMove.inv {e : Event} (hm : AgentMove s e t) (h : s.Inv) : t.Inv := by
  have hwf := h.1
  obtain ⟨-, -, -, -, hctx, hmem⟩ := id h
  cases hm with
  | rest => exact h
  | enter prog he hnew hold =>
    refine h.of_host rfl ⟨rfl, rfl, rfl⟩ ?_ hmem
    rw [contextsInv_iff] at hctx ⊢
    exact hctx.enter hnew hold
  | ring j d => exact h.setRing j ((RB.Changes.sync d).inv h.ringAw_le (h.ring j))
  | port n hq => exact h.setPort _ (hq.inv hwf (h.port _))
  | src lines => exact h

/-! ### Reset (spec/70_reset_and_hazards.md R300, R301) -/

theorem RB.reset_inv {aw : Nat} (sy : Nat) (haw : aw ≤ 15) : (RB.reset aw).Inv aw sy :=
  RB.inv_iff_ordered.mpr
    ⟨RB.reset_eq_init ▸ RB.init_ordered sy _ (RB.reset_k_toNat haw).le, RB.reset_mem_wf aw, nofun⟩

theorem Port.reset_inv {P : Params} (hwf : P.wf) (rxd rts : Bool) : (Port.reset P.hwfifoAw rxd rts).Inv P :=
  ⟨RB.reset_inv _ (Params.hwfifoAw_le hwf), RB.reset_inv _ (Params.hwfifoAw_le hwf), .inl rfl, Nat.zero_lt_one⟩

theorem Itc.reset_inv (P : Params) : Itc.reset.Inv P :=
  ⟨by decide, onlySources_zero, onlySources_zero, onlySources_zero, onlySources_zero, onlySources_zero⟩

theorem kindsInv_mainline : KindsInv [.mainline] := ⟨rfl, nofun, nofun⟩

theorem resetStep_port (s : State) (p : Fin 4) :
    (resetStep s).ports[p.val] = Port.reset s.params.hwfifoAw (s.ports[p.val]).rxdI (s.ports[p.val]).rtsI :=
  Vector.getElem_map _ p.isLt

theorem State.Inv.reset (h : s.Inv) : (resetStep s).Inv := by
  obtain ⟨hwf, -, -, -, -, hmem⟩ := id h
  refine ⟨hwf, Itc.reset_inv _, fun j => ?_, fun p => ?_, (contextsInv_iff _).mpr kindsInv_mainline, hmem⟩
  · rw [show (resetStep s).rings[j.val] = RB.reset s.params.ringAw from Vector.getElem_replicate j.isLt]
    exact RB.reset_inv _ h.ringAw_le
  · rw [resetStep_port]
    exact Port.reset_inv hwf _ _

end

/-- Settles O58: nothing is enabled, every ring is empty, no divisor is set, and the mainline runs alone. -/
theorem invariantHoldsAfterReset : Obligations.InvariantHoldsAfterReset := by
  intro P main handlers hwf
  obtain ⟨_, _, _, _, haw, _⟩ := id hwf
  refine ⟨hwf, Itc.reset_inv P, fun j => ?_, fun p => ?_, (contextsInv_iff _).mpr kindsInv_mainline,
    State.resetOf_mem_wf P main handlers⟩
  · rw [State.resetOf_ring]
    exact RB.reset_inv _ haw
  · rw [State.resetOf_port]
    exact Port.reset_inv hwf true true

/-- Settles O59: the lists of what a primitive, a host statement, an agent and reset can leave, each with its rule. -/
theorem stepKeepsTheInvariant : Obligations.StepKeepsTheInvariant := by
  intro s t h hstep
  have hhost : ∀ {u : State}, u.Inv → hostStep u = .next t → t.Inv := fun hu hnext => by
    obtain ⟨i, v, dst, hv, rfl⟩ | hmove := hostStep_next hnext
    · exact (HostMove.setAct v _).inv ((exec_effect hv).inv hu)
    · exact hmove.inv hu
  obtain hnext | ⟨e, rest, -, hevent⟩ := step_next hstep
  · exact hhost h hnext
  · have hrest : State.Inv { s with agenda := rest } := h
    by_cases h1 : e = .host
    · subst h1
      exact hhost hrest hevent
    · by_cases h2 : e = .reset
      · subst h2
        cases hevent
        exact hrest.reset
      · exact (runEvent_agent h1 h2 hevent).inv hrest

end Sys2Proof.Machine

/-! # Transactions, returns, entry and reset as steps -/

namespace Sys2Proof.Machine

/-! ### A step by its agenda and its line -/

/-- The host moves where the agenda is empty or has `host` at its head. -/
theorem step_of_host_moves {s r : State}
    (h : (s.agenda = [] ∧ r = s) ∨ (s.agenda = .host :: r.agenda ∧ r = { s with agenda := r.agenda })) :
    step s = hostStep r := by
  obtain ⟨hagenda, rfl⟩ | ⟨hagenda, hr⟩ := h
  · exact step_of_agenda_nil hagenda
  · rw [step_of_agenda_cons hagenda, ← hr, runEvent]

theorem transact_of_decode {s : State} {cw : CommandWord} {i : Instr} (h : decode s.params cw = .ok i)
    (dst : Option Temp) :
    transact s dst cw = match exec i s with
      | .next t => .next (assigned t dst t.rdata)
      | .fault f => .fault f
      | .refused e => .refused e := by
  cases hexec : exec i s <;> simp [transact, h, hexec]

/-! ### Temporaries (spec/10_state.md R20) -/

theorem listedAt_eq_none_iff {α : Type} (l : List (Nat × α)) (a : Nat) : listedAt l a = none ↔ ∀ x, (a, x) ∉ l := by
  induction l with
  | nil => simp [listedAt]
  | cons c rest ih =>
    obtain ⟨n, y⟩ := c
    rw [listedAt]
    split
    · next h =>
      subst h
      simp only [reduceCtorEq, false_iff, not_forall, not_not]
      exact ⟨y, List.mem_cons_self ..⟩
    · next h =>
      rw [ih]
      simp [Ne.symm h]

/-- Settles O6: the host's move is the transaction of its words; a temporary is unassigned while none is listed. -/
theorem stepPerformsTheDecodedPrimitive : Obligations.StepPerformsTheDecodedPrimitive := by
  refine ⟨fun s r dst hdr data shut hmoves hline => ?_, fun temps t => listedAt_eq_none_iff temps t⟩
  have hr : r.act = s.act ∧ r.params = s.params := by
    obtain ⟨-, rfl⟩ | ⟨-, hr⟩ := hmoves
    · exact ⟨rfl, rfl⟩
    · rw [hr]
      exact ⟨rfl, rfl⟩
  obtain ⟨hact, hparams⟩ := hr
  rw [← hact] at hline ⊢
  rw [← hparams]
  have hstep : step s = withValue (evalExpr r.act.temps hdr) fun h =>
      withValue (evalExpr r.act.temps data) fun d => transact r dst (busWord h d) :=
    (step_of_host_moves hmoves).trans (hostStep_of_line hline)
  constructor
  · intro h d i hh hd hdec
    rw [hstep, hh, hd]
    exact transact_of_decode hdec dst
  · rintro (hh | hd)
    · rw [hstep, hh]
      rfl
    · rw [hstep]
      obtain ⟨_, _, e⟩ | ⟨_, e⟩ := withValue_cases (evalExpr r.act.temps hdr)
        fun h => withValue (evalExpr r.act.temps data) fun d => transact r dst (busWord h d)
      · rw [e, hd]
        rfl
      · exact e

/-! ### The word placed where the step fetches -/

theorem tableWord_toNat (cw : CommandWord) : tableWord 48 cw.toNat = cw := by
  rw [tableWord, Nat.mod_eq_of_lt cw.isLt, BitVec.ofNat_toNat, BitVec.setWidth_eq]

theorem placeWord_line (s : State) (cw : CommandWord) :
    (placeWord s cw).act.prog[(placeWord s cw).act.pos]? = some (wordLine cw) :=
  List.getElem?_append_right (Nat.le_refl _) |>.trans (by rw [Nat.sub_self]; rfl)

theorem busWord_fields (cw : CommandWord) :
    busWord ((CommandWord.header cw).setWidth 32) (CommandWord.data cw) = cw := by
  rw [busWord, BitVec.setWidth_setWidth_of_le _ (by decide), BitVec.setWidth_eq, commandWord_header_data]

/-- Settles O7: the placed line is a transaction of the word's own header and data, and decodes to the instruction. -/
theorem fetchedWordIsPerformed : Obligations.FetchedWordIsPerformed := by
  intro s i hwf
  rw [State.withFetchWord, tableWord_toNat]
  have hagenda : (placeWord s (encode i)).agenda = [] := rfl
  have hdec : decode (placeWord s (encode i)).params (encode i) = .ok i := decode_encode hwf
  rw [step_of_bus hagenda (placeWord_line s (encode i)) rfl rfl, busWord_fields, transact_of_decode hdec]
  rfl

/-! ### Return, entry and reset (spec/60_exceptions.md R281, R282, R285, spec/70_reset_and_hazards.md R300) -/

theorem returnFrom_none_of_no_caller {s : State} (h : s.host.running.callers = []) :
    returnFrom s none = leaveContext s := by
  obtain ⟨a, rest, hcallers, -⟩ | ⟨-, hreturn⟩ := returnFrom_none_cases s
  · cases h.symm.trans hcallers
  · exact hreturn

theorem leaveContext_of_below {s : State} {c : Context} {rest : List Context} (h : s.host.below = c :: rest) :
    leaveContext s = { s with host := { s.host with running := c, below := rest } } := by
  obtain ⟨d, others, hbelow, hleave⟩ | ⟨hbelow, -⟩ := leaveContext_cases s
  · cases h.symm.trans hbelow
    exact hleave
  · cases h.symm.trans hbelow

/-- Settles O47: the running context has no caller, so its return leaves it. -/
theorem returnResumesTheInterruptedContext : Obligations.ReturnResumesTheInterruptedContext := by
  intro s c rest shut hagenda hline hcallers hbelow
  rw [step_of_plain_return hagenda hline, returnFrom_none_of_no_caller hcallers, leaveContext_of_below hbelow]

/-- Settles O57: every element of the block is set, and of the host only what resumes. -/
theorem resetEventGivesTheResetState : Obligations.ResetEventGivesTheResetState := by
  intro s rest hagenda
  refine ⟨_, step_of_agenda_cons hagenda, rfl, rfl, fun p => ?_, rfl, rfl, rfl, rfl, rfl, rfl, rfl, rfl, rfl, rfl, rfl⟩
  rw [resetStep_port, State.resetOf_port]
  rfl

theorem entryAdmitted_iff (s : State) : entryAdmitted s = true ↔
    s.host.running.kind ≠ .fast ∧ ∀ st, s.act.prog[s.act.pos]? ≠ some { stmt := st, shut := true } := by
  rw [entryAdmitted, Bool.and_eq_true, decide_eq_true_iff]
  refine and_congr_right fun _ => ?_
  cases s.act.prog[s.act.pos]? with
  | none => simp
  | some l =>
    obtain ⟨st, shut⟩ := l
    cases shut <;> simp

/-- The step of an entry event, where entry is admitted and requested. -/
theorem step_of_enter {s : State} {rest : List Event} (hagenda : s.agenda = .enter :: rest)
    (hadm : entryAdmitted s = true) (hreq : fiqO s = true ∨ irqO s = true) :
    step s = .next (if fiqO s then enterContext { s with agenda := rest } .fast serviceFastProgram
      else enterContext { s with agenda := rest } .normal serviceNormalProgram) := by
  rw [step_of_agenda_cons hagenda, runEvent, enterInterrupt,
    show entryAdmitted { s with agenda := rest } = true from hadm, if_pos rfl]
  change Host.Outcome.next (if fiqO s then _ else if irqO s then _ else _) = _
  obtain hf | hi := hreq
  · rw [if_pos hf, if_pos hf]
  · rw [if_pos hi]

/-- The step of an entry event that is not enabled. -/
theorem step_of_enter_not_enabled {s : State} {rest : List Event} (hagenda : s.agenda = .enter :: rest)
    (h : entryAdmitted s = false ∨ (fiqO s = false ∧ irqO s = false)) : step s = .next { s with agenda := rest } := by
  rw [step_of_agenda_cons hagenda, runEvent]
  obtain ⟨hadm, hfiq, -⟩ | ⟨hadm, -, hirq, -⟩ | e := enterInterrupt_cases { s with agenda := rest }
  · obtain h | ⟨h, -⟩ := h
    · cases h.symm.trans hadm
    · cases h.symm.trans hfiq
  · obtain h | ⟨-, h⟩ := h
    · cases h.symm.trans hadm
    · cases h.symm.trans hirq
  · rw [e]

theorem serviceNormal_shut_lines :
    ∀ n : Fin 12, (serviceNormalProgram[n.val]).shut = true ↔ n.val ≤ 4 ∨ n.val = 11 := by
  decide

/-- No line of the program is shut. -/
def Open (prog : Program) : Prop := prog.all (fun l => !l.shut) = true

theorem Open.shut_eq {prog : Program} (h : Open prog) {l : Line} (hl : l ∈ prog) : l.shut = false := by
  simpa using List.all_eq_true.mp h l hl

theorem open_divisorLine (P : Params) (p baud : Word) : (divisorLine P p baud).shut = false := by
  unfold divisorLine
  split <;> rfl

/-- Only the normal service sequence has shut lines. -/
theorem open_seqProgram (P : Params) {q : Seq Word} (hq : q ≠ .serviceNormal) : Open (seqProgram P q) := by
  cases q with
  | serviceNormal => exact absurd rfl hq
  | serviceFast => rfl
  | itcInit =>
    rw [seqProgram, itcInitProgram, Open, List.all_append, List.all_map, Bool.and_eq_true]
    exact ⟨List.all_eq_true.mpr fun _ _ => rfl, rfl⟩
  | itcSetPriority n c => cases c <;> rfl
  | uartInit p baud name =>
    rw [seqProgram]
    unfold uartInitProgram
    split
    · rfl
    · cases name with
      | none => rfl
      | some nm => simp [Open, line, open_divisorLine]
  | sendByte p b =>
    rw [seqProgram, sendByteProgram]
    split <;> rfl
  | receiveByte p =>
    rw [seqProgram, receiveByteProgram]
    split <;> rfl
  | send p buf n =>
    rw [seqProgram, sendProgram]
    split <;> rfl
  | receive p buf n =>
    rw [seqProgram, receiveProgram]
    split <;> rfl
  | setReceiveCallback p cb =>
    rw [seqProgram]
    unfold setReceiveCallbackProgram
    split
    · rfl
    · cases cb <;> rfl
  | setSendCallback p cb =>
    rw [seqProgram]
    unfold setSendCallbackProgram
    split
    · rfl
    · cases cb <;> rfl
  | isr p =>
    rw [seqProgram, isrProgram]
    split <;> rfl

/-- Settles O46: the step of an entry event by admission and request, and the lines that are shut. -/
theorem interruptEntryIsTakenWhereAdmitted : Obligations.InterruptEntryIsTakenWhereAdmitted := by
  refine ⟨fun s rest hagenda => ⟨fun hkind hopen hreq => ?_, fun hnot => ?_⟩, fun n l hl => ?_,
    fun P q l hq hl => (open_seqProgram P hq).shut_eq hl⟩
  · refine ⟨_, step_of_enter hagenda ((entryAdmitted_iff s).mpr ⟨hkind, hopen⟩) hreq, ?_⟩
    cases fiqO s <;> exact ⟨rfl, rfl, rfl⟩
  · refine step_of_enter_not_enabled hagenda ?_
    rw [← Bool.not_eq_true, entryAdmitted_iff]
    obtain hfast | ⟨st, hst⟩ | hreq := hnot
    · exact .inl fun h => h.1 hfast
    · exact .inl fun h => h.2 st hst
    · exact .inr hreq
  · obtain ⟨hn, rfl⟩ := List.getElem?_eq_some_iff.mp hl
    exact serviceNormal_shut_lines ⟨n, hn⟩

end Sys2Proof.Machine

/-! # The baud generator over many cycles (spec/42_uart_engine.md R215 to R217) -/

namespace Sys2Proof.Machine

section
variable (P : Params) (free : Nat → Byte) (q : Port)

theorem portCycles_keeps (n : Nat) :
    ((portCycles P free n q).txe = q.txe ∧ (portCycles P free n q).rxe = q.rxe) ∧
      (portCycles P free n q).brMod = q.brMod ∧ (portCycles P free n q).brInc = q.brInc := by
  induction n with
  | zero => exact ⟨⟨rfl, rfl⟩, rfl, rfl⟩
  | succ n ih =>
    obtain ⟨⟨htx, hrx⟩, hmod, hinc⟩ := ih
    obtain ⟨-, -, ⟨htx', hrx'⟩, ⟨hmod', hinc'⟩, -⟩ := uclkCycle_cycles P (free n) (portCycles P free n q)
    exact ⟨⟨htx'.trans htx, hrx'.trans hrx⟩, hmod'.trans hmod, hinc'.trans hinc⟩

theorem portCycles_succ_bacc (n : Nat) : (portCycles P free (n + 1) q).bacc = (portCycles P free n q).baccNext :=
  (uclkCycle_cycles P (free n) (portCycles P free n q)).bacc

theorem portTicks_succ (n : Nat) :
    portTicks P free (n + 1) q = portTicks P free n q + if (portCycles P free n q).ticks then 1 else 0 := rfl

variable {q}

/-- What the cycles added is in the accumulator or was taken by the ticks. -/
theorem bacc_add_portTicks (hon : (q.txe || q.rxe) = true) (hmod : 0 < q.brMod.toNat)
    (hinc : q.brInc.toNat ≤ q.brMod.toNat) (hacc : q.bacc = 0) (n : Nat) :
    (portCycles P free n q).bacc.toNat + portTicks P free n q * q.brMod.toNat = n * q.brInc.toNat ∧
      (portCycles P free n q).bacc.toNat < q.brMod.toNat := by
  induction n with
  | zero =>
    rw [portCycles, hacc, portTicks]
    exact ⟨by simp, hmod⟩
  | succ n ih =>
    obtain ⟨hsum, hlt⟩ := ih
    obtain ⟨⟨htx, hrx⟩, hm, hi⟩ := portCycles_keeps P free q n
    rw [← htx, ← hrx] at hon
    rw [← hm] at hmod hinc hlt
    rw [← hi] at hinc
    obtain ⟨hnext, hnextlt⟩ := Port.counts hon hmod hinc hlt
    rw [hm, hi] at hnext
    rw [hm] at hnextlt
    rw [portCycles_succ_bacc, portTicks_succ, Nat.add_mul, Nat.add_mul]
    refine ⟨?_, hnextlt⟩
    cases ht : (portCycles P free n q).ticks <;> simp [ht] at hnext ⊢ <;> omega

/-- A port that is disabled, or has `MOD = 0` or `INC = 0`, does not count or adds nothing. -/
theorem stopped_or_inc_eq_zero (hoff : q.brMod.toNat = 0 ∨ q.brInc.toNat = 0 ∨ (q.txe = false ∧ q.rxe = false)) :
    ¬ ((q.txe || q.rxe) = true ∧ 0 < q.brMod.toNat) ∨ q.brInc.toNat = 0 := by
  obtain h | h | ⟨htx, hrx⟩ := hoff
  · exact .inl fun hon => Nat.ne_of_gt hon.2 h
  · exact .inr h
  · exact .inl fun hon => by simp [htx, hrx] at hon

theorem ticks_eq_false (hacc : q.bacc.toNat < max q.brMod.toNat 1)
    (hoff : ¬ ((q.txe || q.rxe) = true ∧ 0 < q.brMod.toNat) ∨ q.brInc.toNat = 0) : q.ticks = false := by
  by_cases hon : (q.txe || q.rxe) = true ∧ 0 < q.brMod.toNat
  · have hinc := hoff.resolve_left (not_not_intro hon)
    obtain ⟨_, hmod⟩ := hon
    have hsum : ¬ q.brMod.toNat ≤ q.bacc.toNat + q.brInc.toNat := by omega
    rw [Port.ticks, decide_eq_false hsum, Bool.and_false]
  · exact (Port.stopped hon).1

theorem baccNext_lt_of_off (hacc : q.bacc.toNat < max q.brMod.toNat 1)
    (hoff : ¬ ((q.txe || q.rxe) = true ∧ 0 < q.brMod.toNat) ∨ q.brInc.toNat = 0) :
    q.baccNext.toNat < max q.brMod.toNat 1 := by
  obtain hstop | hinc := hoff
  · rw [(Port.stopped hstop).2]
    exact lt_max_of_lt_right Nat.zero_lt_one
  · exact Port.baccNext_lt (.inr (by omega)) hacc

theorem portTicks_eq_zero (hacc : q.bacc.toNat < max q.brMod.toNat 1)
    (hoff : ¬ ((q.txe || q.rxe) = true ∧ 0 < q.brMod.toNat) ∨ q.brInc.toNat = 0) (n : Nat) :
    (portCycles P free n q).bacc.toNat < max q.brMod.toNat 1 ∧ portTicks P free n q = 0 := by
  induction n with
  | zero => exact ⟨hacc, rfl⟩
  | succ n ih =>
    obtain ⟨hlt, hticks⟩ := ih
    obtain ⟨⟨htx, hrx⟩, hm, hi⟩ := portCycles_keeps P free q n
    rw [← htx, ← hrx, ← hm, ← hi] at hoff
    rw [← hm] at hlt ⊢
    rw [portCycles_succ_bacc, portTicks_succ, hticks, ticks_eq_false hlt hoff]
    exact ⟨baccNext_lt_of_off hlt hoff, rfl⟩

end

/-- Settles O42: quotient and remainder of what the cycles added; where no cycle adds, none ticks. -/
theorem baudGeneratorTicksAtTheRatio : Obligations.BaudGeneratorTicksAtTheRatio := by
  refine ⟨fun P free q n hon hmod hinc hacc => ?_, fun P free q n hacc hoff => ?_⟩
  · obtain ⟨hsum, hlt⟩ := bacc_add_portTicks P free hon hmod hinc hacc n
    rw [← hsum, Nat.add_mul_mod_self_right, Nat.mod_eq_of_lt hlt, Nat.add_mul_div_right _ _ hmod, Nat.div_eq_of_lt hlt,
      Nat.zero_add]
    exact ⟨rfl, rfl⟩
  · exact (portTicks_eq_zero P free hacc (stopped_or_inc_eq_zero hoff) n).2

end Sys2Proof.Machine

/-! # A frame on the line

A level of a frame lasts sixteen ticks: the transmit engine counts fifteen of them and leaves its level at the
sixteenth, the receive engine samples at the eighth and leaves at the sixteenth. So a frame is one step per level. -/

namespace Sys2Proof.Machine

/-! ### The transmit engine, level by level (spec/42_uart_engine.md R223, R224) -/

/-- The port with its transmit tick counter at `c`. -/
def Port.txAt (s : Port) (c : Nat) : Port := { s with txtick := BitVec.ofNat 4 c }

section
variable {P : Params} {s : Port} (hen : s.txe = true) (hbusy : s.txstate ≠ .idle)
include hen hbusy

theorem txTick_busy (f : Byte) :
    txTick P f s = if s.txtick.toNat < 15 then { s with txtick := s.txtick + 1 }
      else txBitEnd P f { s with txtick := 0 } := by
  rw [txTick, hen, Bool.not_true, if_neg Bool.false_ne_true]
  cases hs : s.txstate with
  | idle => exact absurd hs hbusy
  | _ => rfl

/-- Within a level only the tick counter moves. -/
theorem txTick_txAt (f : Byte) {c : Nat} (hc : c < 15) : txTick P f (s.txAt c) = s.txAt (c + 1) := by
  have hcount : (s.txAt c).txtick.toNat < 15 := by
    rw [Port.txAt, BitVec.toNat_ofNat]
    omega
  have hnext : (s.txAt c).txtick + 1 = BitVec.ofNat 4 (c + 1) := (BitVec.ofNat_add c 1).symm
  rw [txTick_busy (s := s.txAt c) hen hbusy, if_pos hcount, hnext]
  rfl

theorem txTick_txAt_last (f : Byte) : txTick P f (s.txAt 15) = txBitEnd P f (s.txAt 0) := by
  rw [txTick_busy (s := s.txAt 15) hen hbusy, if_neg (show ¬ (s.txAt 15).txtick.toNat < 15 from Nat.lt_irrefl 15)]
  rfl

section
variable {free : Nat → Byte} {q : Port} {n : Nat} (h : txTicks P free n q = s.txAt 0)
include h

theorem txTicks_within_level : ∀ j ≤ 15, txTicks P free (n + j) q = s.txAt j := by
  intro j
  induction j with
  | zero => exact fun _ => h
  | succ j ih =>
    intro hj
    rw [← Nat.add_assoc, txTicks, ih (by omega), txTick_txAt hen hbusy _ (by omega)]

/-- The sixteenth tick of a level ends it. -/
theorem txTicks_level : txTicks P free (n + 16) q = txBitEnd P (free (n + 15)) (s.txAt 0) := by
  rw [show n + 16 = n + 15 + 1 from rfl, txTicks, txTicks_within_level hen hbusy h 15 (Nat.le_refl _),
    txTick_txAt_last hen hbusy]

end

end

/-- The transmitter at the start of a level, `k` data bits sent before it. -/
def Port.sending (q : Port) (b : Byte) (st : TxState) (k : Nat) (level : Bool) : Port :=
  { q with
    hwtx := q.hwtx.pop, txpar := parity q.eps b, txstate := st, txsr := b >>> k, txbit := BitVec.ofNat 3 k, txtick := 0,
    txdO := level }

/-- The transmitter at the start of level `i` of the frame of `b`. -/
def Port.atLevel (q : Port) (b : Byte) (i : Nat) : Port :=
  if i = 0 then q.sending b .start 0 false
  else if i ≤ 8 then q.sending b .data (i - 1) (b.getLsbD (i - 1))
  else if i = 9 ∧ q.pen = true then q.sending b .par 7 (parity q.eps b)
  else q.sending b .stop 7 true

theorem frameLevels_length (pen eps : Bool) (b : Byte) : (frameLevels pen eps b).length = if pen then 11 else 10 := by
  cases pen <;> rfl

section
variable (q : Port) (b : Byte)

theorem Port.atLevel_registers (i : Nat) :
    (q.atLevel b i).txe = q.txe ∧ (q.atLevel b i).txstate ≠ .idle ∧ (q.atLevel b i).txAt 0 = q.atLevel b i ∧
      (q.atLevel b i).hwtx = q.hwtx.pop := by
  unfold Port.atLevel
  split
  · exact ⟨rfl, nofun, rfl, rfl⟩
  · split
    · exact ⟨rfl, nofun, rfl, rfl⟩
    · split <;> exact ⟨rfl, nofun, rfl, rfl⟩

/-- A data bit is shifted out and the next is on the line. -/
theorem Port.txBitEnd_data (P : Params) (f : Byte) {k : Nat} (hk : k < 7) :
    txBitEnd P f (q.sending b .data k (b.getLsbD k)) = q.sending b .data (k + 1) (b.getLsbD (k + 1)) := by
  have hcount : (BitVec.ofNat 3 k).toNat < 7 := by
    rw [BitVec.toNat_ofNat]
    omega
  have hline : (b >>> k).getLsbD 1 = b.getLsbD (k + 1) := by rw [BitVec.getLsbD_ushiftRight]
  have hshift : (b >>> k) >>> 1 = b >>> (k + 1) := (BitVec.shiftRight_add b k 1).symm
  simp only [txBitEnd, Port.sending, if_pos hcount, hline, hshift, BitVec.ofNat_add]
  rfl

/-- After the eighth data bit comes the parity bit, if there is one, else the stop bit. -/
theorem Port.txBitEnd_last_data (P : Params) (f : Byte) :
    txBitEnd P f (q.atLevel b 8) = q.atLevel b 9 := by
  cases hpen : q.pen <;> simp [txBitEnd, Port.atLevel, Port.sending, hpen]

/-- The end of a level is the start of the next. -/
theorem Port.txBitEnd_atLevel (P : Params) (f : Byte) {i : Nat} (hi : i + 1 < if q.pen then 11 else 10) :
    txBitEnd P f (q.atLevel b i) = q.atLevel b (i + 1) := by
  obtain rfl | hdata | rfl | rfl : i = 0 ∨ (∃ k < 7, i = k + 1) ∨ i = 8 ∨ i = 9 := by
    obtain hk | hk := Nat.lt_or_ge i 8
    · cases i with
      | zero => exact .inl rfl
      | succ k => exact .inr (.inl ⟨k, by omega, rfl⟩)
    · split at hi <;> omega
  · rfl
  · obtain ⟨k, hk, rfl⟩ := hdata
    have hlevel : q.atLevel b (k + 1) = q.sending b .data k (b.getLsbD k) := by
      rw [Port.atLevel, if_neg (Nat.succ_ne_zero k), if_pos (by omega), Nat.add_sub_cancel]
    have hnext : q.atLevel b (k + 1 + 1) = q.sending b .data (k + 1) (b.getLsbD (k + 1)) := by
      rw [Port.atLevel, if_neg (Nat.succ_ne_zero _), if_pos (by omega), Nat.add_sub_cancel]
    rw [hlevel, hnext, q.txBitEnd_data b P f hk]
  · exact q.txBitEnd_last_data b P f
  · have hpen : q.pen = true := by
      by_contra hno
      rw [if_neg hno] at hi
      exact absurd hi (by decide)
    rw [Port.atLevel, if_neg (by decide), if_neg (by decide), if_pos ⟨rfl, hpen⟩]
    rfl

theorem Port.atLevel_txdO {i : Nat} (hi : i < if q.pen then 11 else 10) :
    some (q.atLevel b i).txdO = (frameLevels q.pen q.eps b)[i]? := by
  unfold Port.atLevel
  split at hi
  · rename_i hpen
    rw [hpen]
    interval_cases i <;> rfl
  · rename_i hpen
    rw [Bool.eq_false_of_not_eq_true hpen]
    interval_cases i <;> rfl

theorem Port.atLevel_last : (q.atLevel b ((if q.pen then 11 else 10) - 1)).txstate = .stop := by
  unfold Port.atLevel
  cases q.pen <;> rfl

end

/-- An idle transmitter that may load puts the start bit of the oldest byte on the line (R223). -/
theorem txTick_load {P : Params} {q : Port} {b f : Byte} (hen : q.txe = true) (hidle : q.txstate = .idle)
    (hempty : q.hwtx.empty P.syncHwfifo = false) (hflow : q.fce = false ∨ q.rtsS = false)
    (hb : q.hwtx.mem.read q.hwtx.readSlot = some b) : txTick P f q = q.atLevel b 0 := by
  have hmay : (!q.hwtx.empty P.syncHwfifo && (!q.fce || !q.rtsS)) = true := by
    obtain h | h := hflow <;> simp [hempty, h]
  have hfront : q.hwtx.front f = b := by rw [RB.front, hb, Option.getD_some]
  simp only [txTick, hen, hidle, txTryLoad, hmay, hfront, Bool.not_true, Bool.false_eq_true, if_false, if_true,
    Port.atLevel, Port.sending, BitVec.ushiftRight_zero]
  rfl

/-- Level `i` of the frame starts at tick `16 i`. -/
theorem txTicks_atLevel {P : Params} {free : Nat → Byte} {q : Port} {b : Byte} (hen : q.txe = true)
    (hload : txTick P (free 0) q = q.atLevel b 0) (i : Nat) (hi : i < if q.pen then 11 else 10) :
    txTicks P free (16 * i + 1) q = (q.atLevel b i).txAt 0 := by
  induction i with
  | zero =>
    obtain ⟨_, _, htick, _⟩ := q.atLevel_registers b 0
    rw [htick]
    exact hload
  | succ i ih =>
    obtain ⟨hen', hbusy, htick, _⟩ := q.atLevel_registers b i
    obtain ⟨_, _, htick', _⟩ := q.atLevel_registers b (i + 1)
    rw [show 16 * (i + 1) + 1 = 16 * i + 1 + 16 by omega,
      txTicks_level (hen'.trans hen) hbusy (ih (by omega)), htick, q.txBitEnd_atLevel b P _ hi, htick']

/-- Settles O43: tick `n` lies in level `n / 16` of the frame, and each level is left for the next. -/
theorem transmitterSendsTheFrame : Obligations.TransmitterSendsTheFrame := by
  intro P free q b hen hidle hempty hflow hb
  have hload := txTick_load (f := free 0) hen hidle hempty hflow hb
  have hticks : ∀ i < if q.pen then 11 else 10, ∀ j ≤ 15,
      txTicks P free (16 * i + 1 + j) q = (q.atLevel b i).txAt j := fun i hi j hj => by
    obtain ⟨hen', hbusy, -⟩ := q.atLevel_registers b i
    exact txTicks_within_level (hen'.trans hen) hbusy (txTicks_atLevel hen hload i hi) j hj
  rw [frameLevels_length]
  refine ⟨fun n hn => ?_, ?_⟩
  · rw [show n + 1 = 16 * (n / 16) + 1 + n % 16 by omega, hticks (n / 16) (by omega) (n % 16) (by omega),
      ← q.atLevel_txdO b (by omega)]
    rfl
  · have hlast : 16 * (if q.pen then 11 else 10) = 16 * ((if q.pen then 11 else 10) - 1) + 1 + 15 := by
      split <;> rfl
    rw [hlast, hticks _ (by split <;> decide) 15 (Nat.le_refl _)]
    exact ⟨q.atLevel_last b, (q.atLevel_registers b _).2.2.2⟩

end Sys2Proof.Machine

/-! # The receive engine, level by level

The engine acts at the middle (count 8) and at the end (count 0) of a level and only counts between them
(spec/42_uart_engine.md R226 to R229). -/

namespace Sys2Proof.Machine

/-- The port with its receive tick counter at `c` and the line last sampled at `l`. -/
def Port.rxAt (s : Port) (c : Nat) (l : Bool) : Port := { s with rxtick := BitVec.ofNat 4 c, rxdS := l }

section
variable {P : Params} {s : Port} (hen : s.rxe = true) (hbusy : s.rxstate ≠ .idle)
include hen hbusy

theorem rxTick_busy :
    rxTick P s = if s.rxtick + 1 = 8 then rxMiddle P { s with rxtick := s.rxtick + 1 }
      else if s.rxtick + 1 = 0 then rxBitEnd { s with rxtick := s.rxtick + 1 }
      else { s with rxtick := s.rxtick + 1 } := by
  rw [rxTick, hen, Bool.not_true, if_neg Bool.false_ne_true]
  cases hs : s.rxstate with
  | idle => exact absurd hs hbusy
  | _ => rfl

/-- A tick inside half a level counts and samples. -/
theorem rxTick_rxAt {c : Nat} {l₀ : Bool} (l : Bool) (hc : c % 8 < 7) :
    rxTick P { s.rxAt c l₀ with rxdS := l } = s.rxAt (c + 1) l := by
  have hnext : BitVec.ofNat 4 c + 1 = BitVec.ofNat 4 (c + 1) := (BitVec.ofNat_add c 1).symm
  have hmiddle : BitVec.ofNat 4 c + 1 ≠ 8 := by bv_omega
  have hend : BitVec.ofNat 4 c + 1 ≠ 0 := by bv_omega
  rw [rxTick_busy (s := { s.rxAt c l₀ with rxdS := l }) hen hbusy]
  refine (if_neg hmiddle).trans ((if_neg hend).trans ?_)
  rw [Port.rxAt, Port.rxAt, ← hnext]

theorem rxTick_middle (l₀ l : Bool) :
    rxTick P { s.rxAt 7 l₀ with rxdS := l } = rxMiddle P (s.rxAt 8 l) := by
  have hmiddle : BitVec.ofNat 4 7 + 1 = 8 := rfl
  rw [rxTick_busy (s := { s.rxAt 7 l₀ with rxdS := l }) hen hbusy]
  exact if_pos hmiddle

theorem rxTick_end (l₀ l : Bool) :
    rxTick P { s.rxAt 15 l₀ with rxdS := l } = rxBitEnd (s.rxAt 0 l) := by
  have hmiddle : BitVec.ofNat 4 15 + 1 ≠ 8 := by decide
  have hend : BitVec.ofNat 4 15 + 1 = BitVec.ofNat 4 0 := rfl
  rw [rxTick_busy (s := { s.rxAt 15 l₀ with rxdS := l }) hen hbusy]
  refine (if_neg hmiddle).trans ((if_pos hend).trans ?_)
  rw [Port.rxAt, Port.rxAt, ← hend]

section
variable {level : Nat → Bool} {q : Port} {n : Nat}

theorem rxTicks_within_half {c : Nat} {l₀ : Bool} (hc : c % 8 = 0) (h : rxTicks P level n q = s.rxAt c l₀) :
    ∀ j ≤ 7, ∃ l, rxTicks P level (n + j) q = s.rxAt (c + j) l := by
  intro j
  induction j with
  | zero => exact fun _ => ⟨l₀, h⟩
  | succ j ih =>
    intro hj
    obtain ⟨l, hl⟩ := ih (by omega)
    refine ⟨level (n + j), ?_⟩
    rw [← Nat.add_assoc, rxTicks, hl, rxTick_rxAt hen hbusy _ (by omega), Nat.add_assoc]

/-- The eighth tick of a level is its middle. -/
theorem rxTicks_middle {l₀ : Bool} (h : rxTicks P level n q = s.rxAt 0 l₀) :
    rxTicks P level (n + 8) q = rxMiddle P (s.rxAt 8 (level (n + 7))) := by
  obtain ⟨l, hl⟩ := rxTicks_within_half hen hbusy rfl h 7 (Nat.le_refl _)
  rw [show n + 8 = n + 7 + 1 from rfl, rxTicks, hl, Nat.zero_add, rxTick_middle hen hbusy]

/-- The eighth tick after the middle is the end of the level. -/
theorem rxTicks_end {l₀ : Bool} (h : rxTicks P level n q = s.rxAt 8 l₀) :
    rxTicks P level (n + 8) q = rxBitEnd (s.rxAt 0 (level (n + 7))) := by
  obtain ⟨l, hl⟩ := rxTicks_within_half hen hbusy rfl h 7 (Nat.le_refl _)
  rw [show n + 8 = n + 7 + 1 from rfl, rxTicks, hl, rxTick_end hen hbusy]

end

end

/-- A low line starts an idle, enabled receiver. -/
theorem rxTicks_start {P : Params} {level : Nat → Bool} {q : Port} (hen : q.rxe = true) (hidle : q.rxstate = .idle)
    (hlow : level 0 = false) : rxTicks P level 1 q = ({ q with rxstate := .start } : Port).rxAt 0 false := by
  simp only [rxTicks, rxTick, hen, hidle, hlow, Bool.not_true, Bool.false_eq_true, if_false]
  rfl

/-- At its middle, tick 8, the start bit is sampled. -/
theorem rxTicks_start_middle {P : Params} {level : Nat → Bool} {q : Port} (hen : q.rxe = true)
    (hidle : q.rxstate = .idle) (hlow : level 0 = false) :
    rxTicks P level 9 q = rxMiddle P (({ q with rxstate := .start } : Port).rxAt 8 (level 8)) :=
  rxTicks_middle (s := { q with rxstate := .start }) hen nofun (rxTicks_start hen hidle hlow)

/-- Settles O45: at the middle of the start bit the line is high, so the engine goes idle. -/
theorem falseStartIsDropped : Obligations.FalseStartIsDropped := by
  intro P level q hen hidle hlow hhigh
  rw [rxTicks_start_middle hen hidle hlow, hhigh]
  rfl

/-! ### The data bits -/

/-- The top `k` bits of the shift register are the first `k` bits of `b`, oldest lowest. -/
def Sampled (b : Byte) (k : Nat) (sr : Byte) : Prop := ∀ j < k, sr.getLsbD (8 - k + j) = b.getLsbD j

theorem Sampled.shift {b sr : Byte} {k : Nat} (h : Sampled b k sr) (hk : k < 8) :
    Sampled b (k + 1) (bit1 (b.getLsbD k) ++ sr.extractLsb' 1 7) := by
  intro j hj
  have hbit : ∀ i, (bit1 (b.getLsbD k) ++ sr.extractLsb' 1 7).getLsbD i =
      if i < 7 then sr.getLsbD (i + 1) else decide (i = 7) && b.getLsbD k := by
    intro i
    rw [BitVec.getLsbD_append, BitVec.getLsbD_extractLsb', bit1, BitVec.getLsbD_ofBool]
    by_cases hi : i < 7
    · simp [hi, Nat.add_comm]
    · simp [hi, show i - 7 = 0 ↔ i = 7 by omega]
  rw [hbit]
  obtain hlast | hold := Nat.lt_or_ge j k |>.symm
  · obtain rfl : j = k := by omega
    rw [show 8 - (j + 1) + j = 7 by omega, if_neg (Nat.lt_irrefl 7), decide_eq_true rfl, Bool.true_and]
  · rw [if_pos (by omega), show 8 - (k + 1) + j + 1 = 8 - k + j by omega, h j hold]

theorem Sampled.eq {b sr : Byte} (h : Sampled b 8 sr) : sr = b :=
  BitVec.eq_of_getLsbD_eq fun j hj => by simpa using h j hj

/-- The receiver after the start bit: its state, its shift register, the data bits done and the parity verdict. -/
def Port.receiving (q : Port) (st : RxState) (sr : Byte) (k : Nat) (perr : Bool) : Port :=
  { q with rxstate := st, rxsr := sr, rxbit := BitVec.ofNat 3 k, rxperr := perr }

section
variable {P : Params} {level : Nat → Bool} {q : Port}

/-- A whole level: what its middle makes of the engine, then its end. -/
theorem rxTicks_level {n : Nat} {s s' : Port} {l₀ : Bool} (hs : s.rxe = true) (hbusy : s.rxstate ≠ .idle)
    (hs' : s'.rxe = true) (hbusy' : s'.rxstate ≠ .idle)
    (hmiddle : rxMiddle P (s.rxAt 8 (level (n + 7))) = s'.rxAt 8 (level (n + 7)))
    (h : rxTicks P level n q = s.rxAt 0 l₀) :
    rxTicks P level (n + 16) q = rxBitEnd (s'.rxAt 0 (level (n + 15))) :=
  rxTicks_end hs' hbusy' ((rxTicks_middle hs hbusy h).trans hmiddle)

variable {b : Byte} (hen : q.rxe = true) (hdata : ∀ j < 8, level (24 + 16 * j) = b.getLsbD j)
include hen hdata

/-- The middle of data bit `k` shifts it in. -/
theorem rxTicks_data_level {k : Nat} (hk : k < 8) {sr : Byte} {l : Bool}
    (h : rxTicks P level (17 + 16 * k) q = (q.receiving .data sr k false).rxAt 0 l) :
    rxTicks P level (17 + 16 * (k + 1)) q =
      rxBitEnd ((q.receiving .data (bit1 (b.getLsbD k) ++ sr.extractLsb' 1 7) k false).rxAt 0
        (level (17 + 16 * k + 15))) := by
  have hsample : level (17 + 16 * k + 7) = b.getLsbD k := by
    rw [show 17 + 16 * k + 7 = 24 + 16 * k by omega, hdata k hk]
  refine rxTicks_level (n := 17 + 16 * k) (s := q.receiving .data sr k false)
    (s' := q.receiving .data (bit1 (b.getLsbD k) ++ sr.extractLsb' 1 7) k false) hen nofun hen nofun ?_ h
  rw [hsample]
  rfl

variable (hidle : q.rxstate = .idle) (hlow : level 0 = false) (hstart : level 8 = false)
include hidle hlow hstart

omit hdata in
/-- A start bit still low at its middle is followed by data. -/
theorem rxTicks_data_start : ∃ sr l, rxTicks P level 17 q = (q.receiving .data sr 0 false).rxAt 0 l := by
  have hmiddle : rxTicks P level 9 q = ({ q with rxstate := .start } : Port).rxAt 8 false := by
    rw [rxTicks_start_middle hen hidle hlow, hstart]
    rfl
  exact ⟨q.rxsr, level 16, rxTicks_end (s := { q with rxstate := .start }) hen nofun hmiddle⟩

theorem rxTicks_data {k : Nat} (hk : k ≤ 7) :
    ∃ sr l, rxTicks P level (17 + 16 * k) q = (q.receiving .data sr k false).rxAt 0 l ∧ Sampled b k sr := by
  induction k with
  | zero =>
    obtain ⟨sr, l, h⟩ := rxTicks_data_start (P := P) hen hidle hlow hstart
    exact ⟨sr, l, h, nofun⟩
  | succ k ih =>
    obtain ⟨sr, l, h, hsr⟩ := ih (by omega)
    have hmore : BitVec.ofNat 3 k ≠ 7 := by bv_omega
    have hnext : BitVec.ofNat 3 k + 1 = BitVec.ofNat 3 (k + 1) := (BitVec.ofNat_add k 1).symm
    refine ⟨_, level (17 + 16 * k + 15), ?_, hsr.shift (by omega)⟩
    rw [rxTicks_data_level hen hdata (by omega) h, Port.receiving, Port.receiving, ← hnext]
    exact if_neg hmore

/-- After eight data bits the shift register holds the byte. -/
theorem rxTicks_data_end :
    ∃ l, rxTicks P level 145 q = (q.receiving (if q.pen then .par else .stop) b 7 false).rxAt 0 l := by
  obtain ⟨sr, l, h, hsr⟩ := rxTicks_data (P := P) hen hdata hidle hlow hstart (Nat.le_refl 7)
  have hb := (hsr.shift (by decide)).eq
  refine ⟨level (17 + 16 * 7 + 15), ?_⟩
  rw [show 145 = 17 + 16 * (7 + 1) from rfl, rxTicks_data_level hen hdata (by decide) h, hb]
  rfl

/-- The middle of the stop bit is reached with the byte in the shift register and the parity verdict taken. -/
theorem rxTicks_stop : rxTicks P level (if q.pen then 169 else 153) q = rxDeliver P
    ((q.receiving .stop b 7 (q.pen && (level 152 != parity q.eps b))).rxAt 8 (level ((if q.pen then 169 else 153) - 1)))
    := by
  obtain ⟨l, h⟩ := rxTicks_data_end (P := P) hen hdata hidle hlow hstart
  cases hpen : q.pen with
  | false =>
    rw [hpen] at h
    exact rxTicks_middle (s := q.receiving .stop b 7 false) hen nofun h
  | true =>
    rw [hpen] at h
    have hpar : rxTicks P level 161 q =
        (q.receiving .stop b 7 (level 152 != parity q.eps b)).rxAt 0 (level 160) :=
      rxTicks_level (s := q.receiving .par b 7 false) (s' := q.receiving .par b 7 (level 152 != parity q.eps b))
        hen nofun hen nofun rfl h
    exact rxTicks_middle (s := q.receiving .stop b 7 (level 152 != parity q.eps b)) hen nofun hpar

end

/-- Settles O44: the engine reaches the middle of the stop bit with the byte sampled, and delivers it there. -/
theorem receiverDeliversTheFrame : Obligations.ReceiverDeliversTheFrame := by
  intro P level q b hen hidle hlow hstart hdata n t
  have ht : t = rxDeliver P
      ((q.receiving .stop b 7 (q.pen && (level 152 != parity q.eps b))).rxAt 8 (level (n - 1))) :=
    rxTicks_stop hen hdata hidle hlow hstart
  have hhwrx (l : Bool) (perr : Bool) : ((q.receiving .stop b 7 perr).rxAt 8 l).hwrx = q.hwrx := rfl
  rw [ht, rxDeliver, hhwrx]
  cases hfull : q.hwrx.full P.syncHwfifo with
  | false => exact ⟨rfl, rfl, rfl, fun _ => ⟨rfl, rfl⟩, nofun⟩
  | true => exact ⟨rfl, rfl, rfl, nofun, fun _ => ⟨rfl, rfl⟩⟩

end Sys2Proof.Machine

/-! # The service sequences

One rule per kind of statement, for a state given by its running activation's position and temporaries; then the parts
that the two sequences share: fetch the vector, check the valid bit, read the token and invoke it. -/

namespace Sys2Proof.Machine

/-! ### Running -/

theorem run_step {M : Host.Core} {s t : M.State} (h : M.step s = .next t) (n : Nat) : M.run (n + 1) s = M.run n t := by
  rw [Host.Core.run, h]

theorem run_step_fault {M : Host.Core} {s : M.State} {f : M.Fault} (h : M.step s = .fault f) (n : Nat) :
    M.run (n + 1) s = .fault f := by
  rw [Host.Core.run, h]

theorem run_succ {s t : State} (h : step s = .next t) (n : Nat) :
    Host.Core.run core (n + 1) s = Host.Core.run core n t :=
  run_step (M := core) h n

theorem run_fault {s : State} {f : Fault} (h : step s = .fault f) (n : Nat) :
    Host.Core.run core (n + 1) s = .fault f :=
  run_step_fault (M := core) h n

/-! ### One rule per statement (spec/43_uart_driver.md R240) -/

/-- The state with its running activation before statement `pos`, its temporaries `ts`. -/
def State.before (s : State) (pos : Nat) (ts : List (Temp × Word)) : State :=
  s.setAct { s.act with pos := pos, temps := ts }

theorem State.before_self (s : State) : s.before s.act.pos s.act.temps = s := rfl

section
variable {s : State} {pos : Nat} {ts : List (Temp × Word)} {shut : Bool} (hagenda : s.agenda = [])
include hagenda

theorem step_before {st : Stmt} (hline : s.act.prog[pos]? = some { stmt := st, shut := shut }) :
    step (s.before pos ts) = runStmt (s.before pos ts) st :=
  step_of_line (s := s.before pos ts) hagenda hline

theorem step_before_bus {u : State} {dst : Option Temp} {hdr data : Expr} {h d : Word} {i : Instr}
    (hline : s.act.prog[pos]? = some { stmt := .bus dst hdr data, shut := shut }) (hh : evalExpr ts hdr = some h)
    (hd : evalExpr ts data = some d) (hdec : decode s.params (busWord h d) = .ok i)
    (hexec : exec i (s.before pos ts) = .next (u.before pos ts)) :
    step (s.before pos ts) = .next (u.before (pos + 1) (dst.elim ts fun t => putAt ts t u.rdata)) := by
  have hdec' : decode (s.before pos ts).params (busWord h d) = .ok i := hdec
  rw [step_of_bus (s := s.before pos ts) hagenda hline hh hd, transact_of_decode hdec', hexec]
  cases dst <;> rfl

theorem step_before_branch {c : Cond} {target : Nat} {b : Bool}
    (hline : s.act.prog[pos]? = some { stmt := .branch c target, shut := shut }) (hc : evalCond ts c = some b) :
    step (s.before pos ts) = .next (s.before (if b then target else pos + 1) ts) := by
  rw [step_before hagenda hline, runStmt, show (s.before pos ts).act.temps = ts from rfl, hc]
  cases b <;> rfl

theorem step_before_set {t : Temp} {e : Expr} {v : Word}
    (hline : s.act.prog[pos]? = some { stmt := .set t e, shut := shut }) (he : evalExpr ts e = some v) :
    step (s.before pos ts) = .next (s.before (pos + 1) (putAt ts t v)) := by
  rw [step_before hagenda hline, runStmt, show (s.before pos ts).act.temps = ts from rfl, he]
  rfl

theorem step_before_raise {f : Fault} (hline : s.act.prog[pos]? = some { stmt := .raise f, shut := shut }) :
    step (s.before pos ts) = .fault f := by
  rw [step_before hagenda hline, runStmt]

end

/-- A literal primitive's word is decoded to it. -/
theorem decode_busWord_literal {P : Params} {i : Instr} (hwf : i.wf P = true) :
    decode P (busWord ((encodeHeader i).setWidth 32) (encodeData i)) = .ok i := by
  rw [busWord, BitVec.setWidth_setWidth_of_le _ (by decide), BitVec.setWidth_eq]
  exact decode_encode hwf

/-! ### Words of source numbers -/

theorem sourceWord_bit31 : ∀ k < 32, (BitVec.ofNat 32 k >>> 31) &&& 1#32 = 0 := by decide

theorem sourceWord_low : ∀ k < 32, BitVec.ofNat 32 k &&& 0x1F = BitVec.ofNat 32 k := by decide

theorem threshold_above : ∀ k < 32, (BitVec.ofNat 32 k + 1).setWidth 6 = BitVec.ofNat 6 (k + 1) := by decide

/-- The header computed for `ITC.VECT.R` (spec/30_encoding.md R84). -/
theorem vectHeader_word : ∀ k < 32,
    ((0x0100 : Word) + (BitVec.ofNat 32 k) <<< 2).setWidth 16 = atSource 0x0100 (BitVec.ofNat 5 k) := by decide

theorem and_one_eq (x : Word) (n : Nat) : (x >>> n) &&& 1#32 = if x.getLsbD n then 1 else 0 := by
  have hword := BitVec.and_one_eq_setWidth_ofBool_getLsbD (x := x >>> n)
  rw [hword, BitVec.getLsbD_ushiftRight, Nat.add_zero]
  cases x.getLsbD n <;> rfl


/-! ### The parts the two sequences share (spec/41_interrupt_controller.md R172, R173) -/

/-- The first four statements: read the vector with `i`, fault if there is none, keep the source number. -/
def dispatchHead (i : Instr) (shut : Bool) : Program :=
  [ { stmt := rd tV i, shut := shut },
    { stmt := .branch (isZero (bitOf tV 31)) 3, shut := shut },
    { stmt := .raise .spuriousDispatch, shut := shut },
    { stmt := .set tS (.and (.tmp tV) (.lit 0x1F)), shut := shut } ]

/-- The five statements at `m`: fault if the source has no handler, else read its token and invoke it. -/
def dispatchTail (m : Nat) : Program :=
  [ line (rd tM .itcVecvalidR),
    line (.branch (isOne (.bit (.tmp tM) (.tmp tS))) (m + 3)),
    line (.raise .noHandler),
    line (.bus (some tH) (vectHeader (.tmp tS)) (.lit 0)),
    line (.invoke (.tmp tH)) ]

theorem serviceNormalProgram_head :
    serviceNormalProgram = dispatchHead .itcNivectorR true ++ serviceNormalProgram.drop 4 := rfl

theorem serviceNormalProgram_tail :
    serviceNormalProgram.drop 5 = dispatchTail 5 ++ serviceNormalProgram.drop 10 := rfl

theorem serviceFastProgram_head :
    serviceFastProgram = dispatchHead .itcFivectorR false ++ serviceFastProgram.drop 4 := rfl

theorem serviceFastProgram_tail :
    serviceFastProgram.drop 4 = dispatchTail 4 ++ serviceFastProgram.drop 9 := rfl

/-- The temporaries once the source number is kept. -/
def sourceTemps (k : Nat) : List (Temp × Word) := [(tV, BitVec.ofNat 32 k), (tS, BitVec.ofNat 32 k)]

section
variable {s : State} (hagenda : s.agenda = [])
include hagenda

section
variable {i : Instr} {shut : Bool} {rest : Program} {v : Option Nat} (hprog : s.act.prog = dispatchHead i shut ++ rest)
  (hwf : i.wf s.params = true)
  (hexec : exec i (s.before 0 []) = .next ((answer s (vectorImage v)).before 0 []))
include hprog hwf hexec

theorem step_fetch_vector :
    step (s.before 0 []) = .next ((answer s (vectorImage v)).before 1 [(tV, vectorImage v)]) :=
  step_before_bus hagenda (congrArg (·[0]?) hprog) rfl rfl (decode_busWord_literal hwf) hexec

/-- Three steps keep the number of the source that the vector names. -/
theorem run_fetch_source {k : Nat} (hv : v = some k) (hk : k < 32) (n : Nat) :
    Host.Core.run core (n + 3) (s.before 0 []) =
      Host.Core.run core n ((answer s (BitVec.ofNat 32 k)).before 4 (sourceTemps k)) := by
  have hvector := step_fetch_vector hagenda hprog hwf hexec
  rw [hv, vectorImage_some k hk] at hvector
  have hsome : evalCond [(tV, BitVec.ofNat 32 k)] (isZero (bitOf tV 31)) = some true :=
    congrArg (fun w => some (w == 0)) (sourceWord_bit31 k hk)
  have hbranch := step_before_branch (s := answer s (BitVec.ofNat 32 k)) hagenda (congrArg (·[1]?) hprog) hsome
  have hlow : evalExpr [(tV, BitVec.ofNat 32 k)] (.and (.tmp tV) (.lit 0x1F)) = some (BitVec.ofNat 32 k) :=
    congrArg some (sourceWord_low k hk)
  have hkeep := step_before_set (s := answer s (BitVec.ofNat 32 k)) hagenda (congrArg (·[3]?) hprog) hlow
  rw [run_succ hvector, run_succ hbranch]
  exact run_succ hkeep n

/-- With no source the sequence faults at its third step. -/
theorem run_spurious (hv : v = none) : Host.Core.run core 3 (s.before 0 []) = .fault .spuriousDispatch := by
  have hvector := step_fetch_vector hagenda hprog hwf hexec
  rw [hv] at hvector
  have hbranch := step_before_branch (s := answer s (vectorImage none)) (pos := 1) (b := false) hagenda
    (congrArg (·[1]?) hprog) (ts := [(tV, vectorImage none)]) rfl
  have hraise := step_before_raise (s := answer s (vectorImage none)) (pos := 2) (ts := [(tV, vectorImage none)])
    hagenda (congrArg (·[2]?) hprog)
  rw [run_succ hvector, run_succ hbranch]
  exact run_fault hraise 0

end

section
variable {m k : Nat} {rest : Program} (hprog : s.act.prog.drop m = dispatchTail m ++ rest) (hk : k < 32)
include hprog

omit hagenda in
theorem dispatchTail_line (j : Nat) (hj : j < 5) : s.act.prog[m + j]? = (dispatchTail m)[j]? := by
  rw [← List.getElem?_drop, hprog, List.getElem?_append_left hj]

include hk

/-- Two steps read the valid bits and branch on the source's. -/
theorem run_test_valid (n : Nat) :
    Host.Core.run core (n + 2) (s.before m (sourceTemps k)) =
      Host.Core.run core n ((answer s s.itc.vecvalid).before
        (if s.itc.vecvalid.getLsbD k then m + 3 else m + 2) (putAt (sourceTemps k) tM s.itc.vecvalid)) := by
  have hread : step (s.before m (sourceTemps k)) =
      .next ((answer s s.itc.vecvalid).before (m + 1) (putAt (sourceTemps k) tM s.itc.vecvalid)) :=
    step_before_bus (i := .itcVecvalidR) hagenda (dispatchTail_line hprog 0 (by decide)) rfl rfl
      (decode_busWord_literal rfl) rfl
  have hbit : evalCond (putAt (sourceTemps k) tM s.itc.vecvalid) (isOne (.bit (.tmp tM) (.tmp tS))) =
      some (s.itc.vecvalid.getLsbD k) := by
    have hnumber : (BitVec.ofNat 32 k).toNat = k := by
      rw [BitVec.toNat_ofNat]
      omega
    change some (((s.itc.vecvalid >>> (BitVec.ofNat 32 k).toNat) &&& 1#32) == 1) = _
    rw [hnumber, and_one_eq]
    cases s.itc.vecvalid.getLsbD k <;> rfl
  have hbranch := step_before_branch (s := answer s s.itc.vecvalid) hagenda
    (dispatchTail_line hprog 1 (by decide)) hbit
  rw [run_succ hread]
  exact run_succ hbranch n

theorem run_no_handler (hvalid : s.itc.vecvalid.getLsbD k = false) :
    Host.Core.run core 3 (s.before m (sourceTemps k)) = .fault .noHandler := by
  rw [run_test_valid hagenda hprog hk, hvalid]
  exact run_fault (step_before_raise (s := answer s s.itc.vecvalid) hagenda
    (dispatchTail_line hprog 2 (by decide))) 0

/-- Four steps test the valid bit, read the token and start its program. -/
theorem run_invoke_handler {prog : Program} (hsource : k < s.params.nsrc) (hvalid : s.itc.vecvalid.getLsbD k = true)
    (hbound : handlerProgram s.params s.host.handlers (s.vect (BitVec.ofNat 5 k)) = some prog) (n : Nat) :
    ∃ ts, Host.Core.run core (n + 4) (s.before m (sourceTemps k)) = Host.Core.run core n
      (enterProgram ((answer s (s.vect (BitVec.ofNat 5 k))).before (m + 4) ts) prog none) := by
  have hnumber : (BitVec.ofNat 5 k).toNat = k := by
    rw [BitVec.toNat_ofNat]
    omega
  have hwf : (Instr.itcVectR (BitVec.ofNat 5 k)).wf s.params = true := by
    rw [Instr.wf, sourceExists, hnumber]
    exact decide_eq_true hsource
  have hdec : decode s.params (busWord ((0x0100 : Word) + BitVec.ofNat 32 k <<< 2) 0) =
      .ok (.itcVectR (BitVec.ofNat 5 k)) := by
    rw [busWord, vectHeader_word k hk, performs_itcVectR, if_pos hwf]
  have hread : exec (.itcVectR (BitVec.ofNat 5 k))
        ((answer s s.itc.vecvalid).before (m + 3) (putAt (sourceTemps k) tM s.itc.vecvalid)) =
      .next ((answer s (s.vect (BitVec.ofNat 5 k))).before (m + 3) (putAt (sourceTemps k) tM s.itc.vecvalid)) :=
    exec_itcVectR_valid (s := (answer s s.itc.vecvalid).before (m + 3) (putAt (sourceTemps k) tM s.itc.vecvalid))
      (by rwa [hnumber]) (by rwa [hnumber])
  have htoken := step_before_bus (s := answer s s.itc.vecvalid) (dst := some tH) hagenda
    (dispatchTail_line hprog 3 (by decide)) rfl rfl hdec hread
  have hinvoke := step_of_invoke (s := (answer s (s.vect (BitVec.ofNat 5 k))).before (m + 4)
      (putAt (putAt (sourceTemps k) tM s.itc.vecvalid) tH (s.vect (BitVec.ofNat 5 k))))
    hagenda (dispatchTail_line hprog 4 (by decide)) rfl
  refine ⟨putAt (putAt (sourceTemps k) tM s.itc.vecvalid) tH (s.vect (BitVec.ofNat 5 k)), ?_⟩
  rw [run_test_valid hagenda hprog hk, hvalid]
  exact (run_succ htoken (n + 1)).trans (run_succ (hinvoke.trans (invokeToken_of_bound hbound)) n)

end

end

/-! ### The sequences -/

theorem before_start {s : State} {prog : Program} (h : s.act = Activation.start prog none) : s.before 0 [] = s := by
  have hpos : s.act.pos = 0 := by rw [h, Activation.start]
  have htemps : s.act.temps = [] := by rw [h, Activation.start]
  rw [← hpos, ← htemps, s.before_self]

theorem source_lt_of_highest {v : Word} {k : Nat} (h : highest v = some k) : k < 32 := by
  obtain ⟨hnone, -⟩ | ⟨m, hm, hm32, -⟩ := highest_cases v
  · cases h.symm.trans hnone
  · cases h.symm.trans hm
    exact hm32

/-- A source with a handler exists. -/
theorem State.Inv.source_lt_nsrc {s : State} (hinv : s.Inv) {k : Nat} (hk : k < 32)
    (hvalid : s.itc.vecvalid.getLsbD k = true) : k < s.params.nsrc := by
  obtain ⟨-, ⟨-, -, -, -, honly, -⟩, -⟩ := hinv
  by_contra hge
  exact absurd hvalid (by rw [onlySources_iff.mp honly k hk (Nat.le_of_not_lt hge)]; exact Bool.false_ne_true)

/-- The statement that raises the threshold above source `k` (R172 line 4). -/
theorem step_raise_threshold {s : State} {k : Nat} (hagenda : s.agenda = []) (hprog : s.act.prog = serviceNormalProgram)
    (hk : k < 32) : step (s.before 4 (sourceTemps k)) =
      .next ((s.setItc { s.itc with prithr := BitVec.ofNat 6 (k + 1) }).before 5 (sourceTemps k)) := by
  have hdec : decode s.params (busWord ((encodeHeader (.itcNimaskW 0)).setWidth 32) (BitVec.ofNat 32 k + 1)) =
      .ok (.itcNimaskW (BitVec.ofNat 6 (k + 1))) := by
    rw [← threshold_above k hk]
    exact (performs_itcNimaskW s.params _).trans (if_pos rfl)
  exact step_before_bus (u := s.setItc { s.itc with prithr := BitVec.ofNat 6 (k + 1) }) hagenda
    (congrArg (·[4]?) hprog) rfl rfl hdec rfl

/-- Settles O49: fetch the source, raise the threshold, invoke the handler. -/
theorem serviceNormalRaisesThresholdAndDispatches : Obligations.ServiceNormalRaisesThresholdAndDispatches := by
  intro s k prog hinv hagenda hrunning hvector hvalid hbound
  have hact : s.act = Activation.start serviceNormalProgram none := congrArg Context.act hrunning
  have hprog : s.act.prog = serviceNormalProgram := congrArg Activation.prog hact
  have hcallers : s.host.running.callers = [] := congrArg Context.callers hrunning
  have hk := source_lt_of_highest hvector
  have hhead : s.act.prog = dispatchHead .itcNivectorR true ++ serviceNormalProgram.drop 4 :=
    hprog.trans serviceNormalProgram_head
  have htail : s.act.prog.drop 5 = dispatchTail 5 ++ serviceNormalProgram.drop 10 :=
    (congrArg (List.drop 5) hprog).trans serviceNormalProgram_tail
  have hfetch := run_fetch_source hagenda hhead rfl rfl hvector hk 5
  have hthreshold := step_raise_threshold (s := answer s (BitVec.ofNat 32 k)) hagenda hprog hk
  obtain ⟨ts, hinvoke⟩ := run_invoke_handler
    (s := (answer s (BitVec.ofNat 32 k)).setItc { s.itc with prithr := BitVec.ofNat 6 (k + 1) }) (k := k)
    hagenda htail hk (hinv.source_lt_nsrc hk hvalid) hvalid hbound 0
  rw [before_start hact] at hfetch
  refine ⟨_, (hfetch.trans (run_succ hthreshold 4)).trans hinvoke, rfl, rfl, rfl, rfl, rfl, _,
    congrArg (_ :: ·) hcallers, hprog, rfl⟩

/-- Settles O51: fetch the source, invoke the handler. -/
theorem serviceFastDispatchesWithoutThreshold : Obligations.ServiceFastDispatchesWithoutThreshold := by
  intro s k prog hinv hagenda hrunning hvector hvalid hbound
  have hact : s.act = Activation.start serviceFastProgram none := congrArg Context.act hrunning
  have hprog : s.act.prog = serviceFastProgram := congrArg Activation.prog hact
  have hk := source_lt_of_highest hvector
  have hhead : s.act.prog = dispatchHead .itcFivectorR false ++ serviceFastProgram.drop 4 :=
    hprog.trans serviceFastProgram_head
  have htail : s.act.prog.drop 4 = dispatchTail 4 ++ serviceFastProgram.drop 9 :=
    (congrArg (List.drop 4) hprog).trans serviceFastProgram_tail
  have hfetch := run_fetch_source hagenda hhead rfl rfl hvector hk 4
  obtain ⟨ts, hinvoke⟩ := run_invoke_handler (s := answer s (BitVec.ofNat 32 k)) (k := k)
    hagenda htail hk (hinv.source_lt_nsrc hk hvalid) hvalid hbound 0
  rw [before_start hact] at hfetch
  exact ⟨_, hfetch.trans hinvoke, ⟨rfl, rfl, rfl⟩, rfl, rfl⟩

/-- Settles O52: without a source the head faults, without a handler the tail does. -/
theorem serviceSequencesFaultWithoutDispatch : Obligations.ServiceSequencesFaultWithoutDispatch := by
  refine fun s hagenda => ⟨fun hact => ?_, fun hact => ?_⟩
  · have hprog : s.act.prog = serviceNormalProgram := congrArg Activation.prog hact
    have hhead : s.act.prog = dispatchHead .itcNivectorR true ++ serviceNormalProgram.drop 4 :=
      hprog.trans serviceNormalProgram_head
    have htail : s.act.prog.drop 5 = dispatchTail 5 ++ serviceNormalProgram.drop 10 :=
      (congrArg (List.drop 5) hprog).trans serviceNormalProgram_tail
    refine ⟨fun hnone => ?_, fun k hvector hvalid => ?_⟩
    · have hspurious := run_spurious hagenda hhead rfl rfl hnone
      rwa [before_start hact] at hspurious
    · have hk := source_lt_of_highest hvector
      have hfetch := run_fetch_source hagenda hhead rfl rfl hvector hk 4
      have hthreshold := step_raise_threshold (s := answer s (BitVec.ofNat 32 k)) hagenda hprog hk
      have hfault := run_no_handler
        (s := (answer s (BitVec.ofNat 32 k)).setItc { s.itc with prithr := BitVec.ofNat 6 (k + 1) }) (k := k)
        hagenda htail hk hvalid
      rw [before_start hact] at hfetch
      exact (hfetch.trans (run_succ hthreshold 3)).trans hfault
  · have hprog : s.act.prog = serviceFastProgram := congrArg Activation.prog hact
    have hhead : s.act.prog = dispatchHead .itcFivectorR false ++ serviceFastProgram.drop 4 :=
      hprog.trans serviceFastProgram_head
    have htail : s.act.prog.drop 4 = dispatchTail 4 ++ serviceFastProgram.drop 9 :=
      (congrArg (List.drop 4) hprog).trans serviceFastProgram_tail
    refine ⟨fun hnone => ?_, fun k hvector hvalid => ?_⟩
    · have hspurious := run_spurious hagenda hhead rfl rfl hnone
      rwa [before_start hact] at hspurious
    · have hk := source_lt_of_highest hvector
      have hfetch := run_fetch_source hagenda hhead rfl rfl hvector hk 3
      have hfault := run_no_handler (s := answer s (BitVec.ofNat 32 k)) (k := k) hagenda htail hk hvalid
      rw [before_start hact] at hfetch
      exact hfetch.trans hfault

/-- Settles O50: line 8 writes the baseline, line 9 returns to the context below. -/
theorem serviceNormalRestoresTheBaseline : Obligations.ServiceNormalRestoresTheBaseline := by
  intro s c rest hagenda hprog hpos hcallers hbelow
  have hself : s.before 10 s.act.temps = s := by rw [← hpos, s.before_self]
  have hrestore : step (s.before 10 s.act.temps) =
      .next ((s.setItc { s.itc with prithr := 0 }).before 11 s.act.temps) :=
    step_before_bus (u := s.setItc { s.itc with prithr := 0 }) hagenda (congrArg (·[10]?) hprog) rfl rfl
      (decode_busWord_literal rfl) rfl
  have hreturn := step_of_plain_return (s := (s.setItc { s.itc with prithr := 0 }).before 11 s.act.temps)
    hagenda (congrArg (·[11]?) hprog)
  rw [returnFrom_none_of_no_caller (s := (s.setItc { s.itc with prithr := 0 }).before 11 s.act.temps) hcallers,
    leaveContext_of_below (s := (s.setItc { s.itc with prithr := 0 }).before 11 s.act.temps) hbelow] at hreturn
  rw [hself] at hrestore
  exact ⟨_, (run_succ hrestore 1).trans (run_succ hreturn 0), rfl, rfl, rfl, rfl, rfl⟩

end Sys2Proof.Machine

/-! # The driver calls

A call starts its program above the caller, whose temporary takes the result word when it returns
(spec/43_uart_driver.md R240, spec/60_exceptions.md R270, R284). -/

namespace Sys2Proof.Machine

/-! ### Call and return -/

theorem step_of_call {s : State} {dst : Option Temp} {q : Seq Expr} {v : Seq Word} {shut : Bool}
    (hagenda : s.agenda = []) (hline : s.act.prog[s.act.pos]? = some { stmt := .call dst q, shut := shut })
    (hq : evalSeq s.act.temps q = some v) : step s = .next (enterProgram s (seqProgram s.params v) dst) := by
  rw [step_of_line hagenda hline, runStmt, hq, withValue]

theorem returnFrom_some_of_caller {s : State} {a : Activation} {rest : List Activation}
    (h : s.host.running.callers = a :: rest) (x : Result) :
    returnFrom s (some x) = { s with host := { s.host with
      result := some x
      running := { s.host.running with act := a.assign s.act.dst x.word, callers := rest } } } := by
  obtain ⟨b, others, hcallers, hreturn⟩ | ⟨hnone, -⟩ := returnFrom_some_cases s x
  · cases h.symm.trans hcallers
    exact hreturn
  · cases h.symm.trans hnone

/-- A program that is one error return hands the code to its caller. -/
theorem step_error_return {s : State} {dst : Option Temp} {e : ErrKind} (hagenda : s.agenda = []) :
    step (enterProgram s [line (.ret (.err e))] dst) = .next { s with host := { s.host with
      result := some (.err e)
      running := { s.host.running with act := s.act.advance.assign dst (-e.code) } } } :=
  (step_of_line (s := enterProgram s [line (.ret (.err e))] dst) (l := line (.ret (.err e))) hagenda rfl).trans
    (congrArg Host.Outcome.next
      (returnFrom_some_of_caller (s := enterProgram s [line (.ret (.err e))] dst) rfl (.err e)))

/-- Settles O53: the program called is the error return alone. -/
theorem driverErrorsChangeNoBlockState : Obligations.DriverErrorsChangeNoBlockState := by
  intro s dst shut q v e hagenda hline hq hcases
  have hprog : seqProgram s.params v = [line (.ret (.err e))] := by
    obtain ⟨p, b, n, rfl, hp, rfl⟩ | ⟨p, b, rfl, hp, rfl⟩ | ⟨p, cb, rfl | rfl, hp, rfl⟩ := hcases
    · exact if_pos hp
    · exact if_neg (Nat.not_le_of_lt hp)
    · exact if_pos hp
    · exact if_pos hp
  have hcall := step_of_call hagenda hline hq
  rw [hprog] at hcall
  exact ⟨_, (run_succ hcall 1).trans (run_succ (step_error_return hagenda) 0), ⟨rfl, rfl, rfl⟩, rfl, rfl⟩

/-- Settles O54: the program called is the fault alone. -/
theorem badPortCallsFault : Obligations.BadPortCallsFault := by
  intro s dst shut q v p hagenda hline hq hp hcases
  have hprog : seqProgram s.params v = badPortProgram := by
    obtain rfl | rfl | ⟨b, rfl⟩ | ⟨buf, n, rfl⟩ | ⟨buf, n, rfl⟩ := hcases
    · exact if_pos hp
    · exact if_pos hp
    · exact if_pos hp
    · exact if_pos hp
    · exact if_pos hp
  have hcall := step_of_call hagenda hline hq
  rw [hprog] at hcall
  have hraise : step (enterProgram s badPortProgram dst) = .fault .badPort :=
    step_of_line (s := enterProgram s badPortProgram dst) (l := line (.raise .badPort)) hagenda rfl
  exact (run_succ hcall 1).trans (run_fault hraise 0)

end Sys2Proof.Machine

/-! # The buffered send

The loop of `UART.SEND` keeps one invariant: after `j` bytes the block is as at its start but for the transmit ring,
which holds `j` bytes more (spec/43_uart_driver.md R246, R260). -/

namespace Sys2Proof.Machine

/-! ### Reaching a state -/

/-- Some number of steps leads from one state to the other. -/
def Reaches (s t : State) : Prop := ∃ n, Host.Core.run core n s = .next t

theorem Reaches.refl (s : State) : Reaches s s := ⟨0, rfl⟩

theorem Reaches.head {s t u : State} (h : step s = .next t) (ht : Reaches t u) : Reaches s u := by
  obtain ⟨n, hn⟩ := ht
  exact ⟨n + 1, (run_succ h n).trans hn⟩

theorem Reaches.trans {s t u : State} (h : Reaches s t) (ht : Reaches t u) : Reaches s u := by
  obtain ⟨n, hn⟩ := h
  induction n generalizing s with
  | zero =>
    cases hn
    exact ht
  | succ n ih =>
    cases hs : step s with
    | next r => exact .head hs (ih ((run_succ hs n).symm.trans hn))
    | fault f => cases (run_fault hs n).symm.trans hn
    | refused e => exact absurd hs (step_ne_refused s e)

/-! ### The remaining statements of the loop -/

section
variable {s : State} {pos : Nat} {ts : List (Temp × Word)} {shut : Bool} (hagenda : s.agenda = [])
include hagenda

theorem step_before_goto {target : Nat} (hline : s.act.prog[pos]? = some { stmt := .goto target, shut := shut }) :
    step (s.before pos ts) = .next (s.before target ts) :=
  step_before hagenda hline

theorem step_before_loadByte {t : Temp} {e : Expr} {a : Word} {b : Byte}
    (hline : s.act.prog[pos]? = some { stmt := .loadByte t e, shut := shut }) (he : evalExpr ts e = some a)
    (hb : s.host.mem.read a.toNat = some b) :
    step (s.before pos ts) = .next (s.drawn.before (pos + 1) (putAt ts t (b.setWidth 32))) := by
  have hread : (s.before pos ts).host.mem.read a.toNat = some b := hb
  rw [step_before hagenda hline, runStmt, show (s.before pos ts).act.temps = ts from rfl, he, withValue, loadHostByte,
    hread]
  rfl

end

/-! ### The ring while bytes are sent -/

theorem State.setRing_ring (s : State) (i : BitVec 3) : s.setRing i (s.ring i) = s := by
  rw [State.setRing, State.ring, Vector.set_getElem_self]

theorem RB.wstatWord_full (sy : Nat) (r : RB) : (r.wstatWord sy).getLsbD 0 = r.full sy := by
  rw [RB.wstatWord, bit1, BitVec.getLsbD_append, if_pos (by decide), BitVec.getLsbD_ofBool]
  exact Bool.true_and _

/-- `c` with `j` of `bytes` appended to ring `i`; of the rest only `rdata` and the draw counter may differ. -/
def Sent (c : State) (i : BitVec 3) (bytes : Nat → Byte) (j : Nat) (u : State) : Prop :=
  ∃ x w d, u = { c.setRing i x with rdata := w, draws := d } ∧ x.Ordered c.params.ringAw 0 ∧
    x.cap = (c.ring i).cap ∧ x.count = (c.ring i).count + j ∧
    x.contents = (c.ring i).contents ++ (List.range j).map (fun l => some (bytes l))

section
variable {c u : State} {i : BitVec 3} {bytes : Nat → Byte} {j : Nat}

theorem Sent.zero (h : (c.ring i).Ordered c.params.ringAw 0) : Sent c i bytes 0 c :=
  ⟨c.ring i, c.rdata, c.draws, by rw [c.setRing_ring], h, rfl, rfl, (List.append_nil _).symm⟩

variable (h : Sent c i bytes j u)
include h

theorem Sent.answer (w : Word) : Sent c i bytes j (answer u w) := by
  obtain ⟨x, _, d, rfl, hx⟩ := h
  exact ⟨x, w, d, rfl, hx⟩

theorem Sent.drawn : Sent c i bytes j u.drawn := by
  obtain ⟨x, w, d, rfl, hx⟩ := h
  exact ⟨x, w, d + 1, rfl, hx⟩

/-- What the loop leaves alone. -/
theorem Sent.frame : u.agenda = c.agenda ∧ u.params = c.params ∧ u.host = c.host ∧ u.ports = c.ports ∧
    u.itc = c.itc := by
  obtain ⟨x, w, d, rfl, -⟩ := h
  exact ⟨rfl, rfl, rfl, rfl, rfl⟩

theorem Sent.ring_ne {k : BitVec 3} (hk : k ≠ i) : u.ring k = c.ring k := by
  obtain ⟨x, w, d, rfl, -⟩ := h
  exact State.ring_setRing_ne hk c x

theorem Sent.contents :
    (u.ring i).contents = (c.ring i).contents ++ (List.range j).map (fun l => some (bytes l)) := by
  obtain ⟨x, w, d, rfl, -, -, -, hx⟩ := h
  exact (congrArg RB.contents (State.ring_setRing_self c i x)).trans hx

/-- The ring is full exactly if no more bytes fit than were sent. -/
theorem Sent.full (hle : j ≤ (c.ring i).free 0) : (u.ring i).full 0 = decide (j = (c.ring i).free 0) := by
  obtain ⟨x, w, d, rfl, hx, hcap, hcount, -⟩ := h
  have hring : ({ c.setRing i x with rdata := w, draws := d } : State).ring i = x := State.ring_setRing_self c i x
  have hfree : (c.ring i).free 0 = (c.ring i).cap - (c.ring i).count := rfl
  have hroom : x.count ≤ x.cap := by
    obtain ⟨-, -, -, -, hroom⟩ := RB.ordered_iff.mp hx
    exact hroom
  rw [hring]
  change decide (x.count = x.cap) = _
  rw [decide_eq_decide]
  omega

theorem Sent.push (haw : c.params.ringAw ≤ 15) (hfull : (u.ring i).full 0 = false) :
    Sent c i bytes (j + 1) (u.setRing i ((u.ring i).push (bytes j))) := by
  obtain ⟨x, w, d, rfl, hx, hcap, hcount, hcontents⟩ := h
  have hring : ({ c.setRing i x with rdata := w, draws := d } : State).ring i = x := State.ring_setRing_self c i x
  rw [hring] at hfull ⊢
  refine ⟨x.push (bytes j), w, d, ?_, hx.push haw hfull _, hcap, ?_, ?_⟩
  · simp only [State.setRing, Vector.set_set]
  · rw [hx.push_count haw hfull, hcount, Nat.add_assoc]
  · rw [hx.push_contents haw hfull, hcontents, List.range_succ, List.map_append, List.append_assoc]
    rfl

end

/-! ### The loop (R246 lines 3 to 7) -/

theorem portOf_setWidth (p : BitVec 2) : portOf (p.setWidth 32) = p := by
  rw [portOf, BitVec.setWidth_setWidth_of_le _ (by decide), BitVec.setWidth_eq]

/-- The transmit ring of port `p`, as instance and as index. -/
def sendInstance (p : BitVec 2) : BitVec 7 := txr (p.setWidth 32)
def sendRing (p : BitVec 2) : BitVec 3 := ringIndex (sendInstance p)

theorem sendInstance_eq (p : BitVec 2) : sendInstance p = BitVec.ofNat 7 (2 * p.toNat + 1) := by
  rw [sendInstance, txr, portOf_setWidth]

theorem sendRing_eq (p : BitVec 2) : sendRing p = BitVec.ofNat 3 (2 * p.toNat + 1) := by
  rw [sendRing, sendInstance_eq, ringIndex, BitVec.setWidth_ofNat_of_le (by decide)]

theorem sendInstance_lt {P : Params} {p : BitVec 2} (hp : p.toNat < P.nports) :
    (sendInstance p).toNat < 2 * P.nports := by
  rw [sendInstance_eq, BitVec.toNat_ofNat]
  omega

/-- The program of the call on an existing port. -/
def sendLines (p : BitVec 2) (buf n : Word) : Program :=
  [ line (wr (.uartMaskset p dirTX)),
    line (.set tI (.lit 0)),
    line (.branch (.eq (.tmp tI) (.lit n)) 9),
    line (rd tW (.rbWstat (sendInstance p))),
    line (.branch (isOne (bitOf tW 0)) 9),
    line (.loadByte tB (.add (.lit buf) (.tmp tI))),
    line (wrData (.rbWrite (sendInstance p) 0) (.tmp tB)),
    line (.set tI (.add (.tmp tI) (.lit 1))),
    line (.goto 2),
    line (wr (.uartMaskclr p dirTX)),
    line (.ret (.okValue (.tmp tI))) ]

theorem sendProgram_of_present {P : Params} {p : BitVec 2} (hp : p.toNat < P.nports) (buf n : Word) :
    sendProgram P (p.setWidth 32) buf n = sendLines p buf n := by
  have hin : ¬ P.nports ≤ (p.setWidth 32).toNat := by
    rw [BitVec.toNat_setWidth_of_le (by decide)]
    exact Nat.not_le_of_lt hp
  rw [sendProgram, if_neg hin, portOf_setWidth]
  rfl

/-- The host stands in the loop's program as when it was entered. -/
theorem Sent.at_loop {c u : State} {p : BitVec 2} {buf n : Word} {bytes : Nat → Byte} {j : Nat}
    (hu : Sent c (sendRing p) bytes j u) (hagenda : c.agenda = []) (hprog : c.act.prog = sendLines p buf n) :
    u.agenda = [] ∧ u.act.prog = sendLines p buf n ∧ u.host = c.host ∧ u.params = c.params := by
  obtain ⟨huagenda, huparams, huhost, -⟩ := hu.frame
  exact ⟨huagenda.trans hagenda, (congrArg (fun h => h.running.act.prog) huhost).trans hprog, huhost, huparams⟩

theorem test_all_sent {ts : List (Temp × Word)} {n : Word} {j : Nat} (hts : listedAt ts tI = some (BitVec.ofNat 32 j))
    (hj : j ≤ n.toNat) : evalCond ts (.eq (.tmp tI) (.lit n)) = some (decide (j = n.toNat)) := by
  have hvalue : evalExpr ts (.tmp tI) = some (BitVec.ofNat 32 j) := hts
  have heq : (BitVec.ofNat 32 j == n) = decide (j = n.toNat) := by
    rw [beq_eq_decide, decide_eq_decide]
    bv_omega
  rw [← heq, evalCond, hvalue]
  rfl

theorem test_full {ts : List (Temp × Word)} {w : Word} {full : Bool} (hts : listedAt ts tW = some w)
    (hw : w.getLsbD 0 = full) : evalCond ts (isOne (bitOf tW 0)) = some full := by
  have hvalue : evalExpr ts (.tmp tW) = some w := hts
  have hbit : ((w >>> (0#32).toNat) &&& 1#32 == 1) = full := by
    rw [and_one_eq, BitVec.toNat_ofNat, hw]
    cases full <;> rfl
  have htest : evalExpr ts (bitOf tW 0) = some ((w >>> (0#32).toNat) &&& 1#32) := by
    rw [bitOf, evalExpr, hvalue]
    rfl
  rw [← hbit, isOne, evalCond, htest]
  rfl

section
variable {c : State} {p : BitVec 2} {buf n : Word} {bytes : Nat → Byte} (hagenda : c.agenda = [])
  (hp : p.toNat < c.params.nports) (hsync : c.params.syncRing = 0) (hprog : c.act.prog = sendLines p buf n)
  {u : State} {ts : List (Temp × Word)} {j : Nat} (hu : Sent c (sendRing p) bytes j u)
  (hts : listedAt ts tI = some (BitVec.ofNat 32 j))
include hagenda hp hsync hprog hu hts

/-- Lines 4 and 5: unless all bytes are sent, the ring's status is read and tested. -/
theorem reaches_test_full (hj : j < n.toNat) {full : Bool} {w : Word} (hfull : (u.ring (sendRing p)).full 0 = full)
    (hw : (u.ring (sendRing p)).wstatWord 0 = w) :
    Reaches (u.before 2 ts) ((answer u w).before (if full then 9 else 5) (putAt ts tW w)) := by
  obtain ⟨huagenda, huprog, huhost, huparams⟩ := hu.at_loop hagenda hprog
  have hi : (sendInstance p).toNat < 2 * u.params.nports := by
    rw [huparams]
    exact sendInstance_lt hp
  have hmore : step (u.before 2 ts) = .next (u.before 3 ts) := by
    rw [step_before_branch huagenda (congrArg (·[2]?) huprog) (test_all_sent hts hj.le), decide_eq_false hj.ne]
    rfl
  have hexec : exec (.rbWstat (sendInstance p)) (u.before 3 ts) = .next ((answer u w).before 3 ts) := by
    rw [← hw, ← hsync, ← huparams]
    exact exec_rbWstat (s := u.before 3 ts) hi
  have hread : step (u.before 3 ts) = .next ((answer u w).before 4 (putAt ts tW w)) :=
    step_before_bus huagenda (congrArg (·[3]?) huprog) rfl rfl (decode_busWord_literal (decide_eq_true hi)) hexec
  have hflag : w.getLsbD 0 = full := by rw [← hw, RB.wstatWord_full, hfull]
  have htest := step_before_branch (s := answer u w) huagenda (congrArg (·[4]?) huprog)
    (test_full (listedAt_putAt_self ts tW w) hflag)
  exact .head hmore (.head hread (.head htest (.refl _)))

/-- The sequence leaves its loop when everything is sent or the ring is full. -/
theorem reaches_loop_end (hj : j = min n.toNat ((c.ring (sendRing p)).free 0)) :
    ∃ u' ts', Reaches (u.before 2 ts) (u'.before 9 ts') ∧ Sent c (sendRing p) bytes j u' ∧
      listedAt ts' tI = some (BitVec.ofNat 32 j) := by
  obtain ⟨huagenda, huprog, -⟩ := hu.at_loop hagenda hprog
  obtain hall | hmore := Nat.eq_or_lt_of_le (show j ≤ n.toNat by omega)
  · refine ⟨u, ts, .head ?_ (.refl _), hu, hts⟩
    rw [step_before_branch huagenda (congrArg (·[2]?) huprog) (test_all_sent hts hall.le), decide_eq_true hall]
    rfl
  · have hfull := hu.full (by omega)
    rw [decide_eq_true (by omega)] at hfull
    have hreach := reaches_test_full hagenda hp hsync hprog hu hts hmore hfull rfl
    exact ⟨_, _, hreach, hu.answer _, (listedAt_putAt_ne ts _ (by decide)).trans hts⟩

/-- One turn of the loop appends one byte. -/
theorem reaches_next_byte (haw : c.params.ringAw ≤ 15) (hj : j < min n.toNat ((c.ring (sendRing p)).free 0))
    (hbyte : c.host.mem.read (buf + BitVec.ofNat 32 j).toNat = some (bytes j)) :
    ∃ u' ts', Reaches (u.before 2 ts) (u'.before 2 ts') ∧ Sent c (sendRing p) bytes (j + 1) u' ∧
      listedAt ts' tI = some (BitVec.ofNat 32 (j + 1)) := by
  have hfull := hu.full (by omega)
  rw [decide_eq_false (by omega)] at hfull
  have htested := reaches_test_full hagenda hp hsync hprog hu hts (by omega) hfull rfl
  generalize (u.ring (sendRing p)).wstatWord 0 = w at htested
  have hsent := (hu.answer w).drawn
  obtain ⟨huagenda, huprog, huhost, huparams⟩ := hu.at_loop hagenda hprog
  have hi : (sendInstance p).toNat < 2 * u.params.nports := by
    rw [huparams]
    exact sendInstance_lt hp
  have hnumber : listedAt (putAt ts tW w) tI = some (BitVec.ofNat 32 j) :=
    (listedAt_putAt_ne ts w (by decide)).trans hts
  have haddress : evalExpr (putAt ts tW w) (.add (.lit buf) (.tmp tI)) = some (buf + BitVec.ofNat 32 j) := by
    have hvalue : evalExpr (putAt ts tW w) (.tmp tI) = some (BitVec.ofNat 32 j) := hnumber
    rw [evalExpr, hvalue]
    rfl
  have hmem : u.host.mem.read (buf + BitVec.ofNat 32 j).toNat = some (bytes j) := by rw [huhost, hbyte]
  have hload : step ((answer u w).before 5 (putAt ts tW w)) =
      .next ((answer u w).drawn.before 6 (putAt (putAt ts tW w) tB ((bytes j).setWidth 32))) :=
    step_before_loadByte (s := answer u w) huagenda (congrArg (·[5]?) huprog) haddress hmem
  have hexec (ts : List (Temp × Word)) : exec (.rbWrite (sendInstance p) (bytes j)) ((answer u w).drawn.before 6 ts) =
      .next (((answer u w).drawn.setRing (sendRing p) ((u.ring (sendRing p)).push (bytes j))).before 6 ts) :=
    exec_rbWrite (s := (answer u w).drawn.before 6 ts) hi (bytes j)
      (by rw [← hfull, ← hsync, ← huparams]; rfl)
  have hwrite := step_before_bus (s := (answer u w).drawn) huagenda (congrArg (·[6]?) huprog) rfl
    (listedAt_putAt_self (putAt ts tW w) tB ((bytes j).setWidth 32))
    (decode_busWord_literal (i := .rbWrite (sendInstance p) (bytes j)) (decide_eq_true hi)) (hexec _)
  have hcounter : listedAt (putAt (putAt ts tW w) tB ((bytes j).setWidth 32)) tI = some (BitVec.ofNat 32 j) :=
    (listedAt_putAt_ne _ _ (by decide)).trans hnumber
  have hsum : evalExpr (putAt (putAt ts tW w) tB ((bytes j).setWidth 32)) (.add (.tmp tI) (.lit 1)) =
      some (BitVec.ofNat 32 (j + 1)) := by
    have hvalue : evalExpr (putAt (putAt ts tW w) tB ((bytes j).setWidth 32)) (.tmp tI) = some (BitVec.ofNat 32 j) :=
      hcounter
    rw [evalExpr, hvalue, BitVec.ofNat_add]
    rfl
  have hcount := step_before_set (s := (answer u w).drawn.setRing (sendRing p) ((u.ring (sendRing p)).push (bytes j)))
    huagenda (congrArg (·[7]?) huprog) hsum
  have hback := step_before_goto (s := (answer u w).drawn.setRing (sendRing p) ((u.ring (sendRing p)).push (bytes j)))
    (ts := putAt (putAt (putAt ts tW w) tB ((bytes j).setWidth 32)) tI (BitVec.ofNat 32 (j + 1)))
    huagenda (congrArg (·[8]?) huprog)
  exact ⟨_, _, htested.trans (.head hload (.head hwrite (.head hcount (.head hback (.refl _))))),
    hsent.push haw hfull, listedAt_putAt_self _ _ _⟩

omit hu hts in
/-- After `j` turns `j` bytes are sent. -/
theorem reaches_bytes_sent (haw : c.params.ringAw ≤ 15) (hring : (c.ring (sendRing p)).Ordered c.params.ringAw 0)
    {ts₀ : List (Temp × Word)} (hts₀ : listedAt ts₀ tI = some 0)
    (hbytes : ∀ j < min n.toNat ((c.ring (sendRing p)).free 0),
      c.host.mem.read (buf + BitVec.ofNat 32 j).toNat = some (bytes j)) :
    ∀ j ≤ min n.toNat ((c.ring (sendRing p)).free 0), ∃ u ts, Reaches (c.before 2 ts₀) (u.before 2 ts) ∧
      Sent c (sendRing p) bytes j u ∧ listedAt ts tI = some (BitVec.ofNat 32 j) := by
  intro j
  induction j with
  | zero => exact fun _ => ⟨c, ts₀, .refl _, .zero hring, hts₀⟩
  | succ j ih =>
    intro hj
    obtain ⟨u, ts, hreach, hu, hts⟩ := ih (by omega)
    obtain ⟨u', ts', hnext, hu', hts'⟩ :=
      reaches_next_byte hagenda hp hsync hprog hu hts haw (by omega) (hbytes j (by omega))
    exact ⟨u', ts', hreach.trans hnext, hu', hts'⟩

end

/-- The block as the loop starts: the program entered, the transmit mask set. -/
def sendStart (s : State) (p : BitVec 2) (buf n : Word) (dst : Option Temp) : State :=
  (enterProgram s (sendLines p buf n) dst).setPort p { s.port p with mtxr := true }

/-- Lines 1 and 2. -/
theorem reaches_sendStart {s : State} {p : BitVec 2} {buf n : Word} {dst : Option Temp} (hagenda : s.agenda = [])
    (hp : p.toNat < s.params.nports) :
    Reaches (enterProgram s (sendLines p buf n) dst) ((sendStart s p buf n dst).before 2 [(tI, 0)]) := by
  have hexec : exec (.uartMaskset p dirTX) ((enterProgram s (sendLines p buf n) dst).before 0 []) =
      .next ((sendStart s p buf n dst).before 0 []) := by
    rw [exec_uartMaskset (s := (enterProgram s (sendLines p buf n) dst).before 0 []) hp,
      show dirTX.getLsbD 0 = true from rfl, show dirTX.getLsbD 1 = false from rfl, Bool.or_true, Bool.or_false]
    rfl
  have hmask : step (enterProgram s (sendLines p buf n) dst) = .next ((sendStart s p buf n dst).before 1 []) :=
    step_before_bus (s := enterProgram s (sendLines p buf n) dst) (pos := 0) (ts := []) (dst := none)
      hagenda rfl rfl rfl (decode_busWord_literal (decide_eq_true hp)) hexec
  have hzero : step ((sendStart s p buf n dst).before 1 []) = .next ((sendStart s p buf n dst).before 2 [(tI, 0)]) :=
    step_before_set (s := sendStart s p buf n dst) hagenda rfl rfl
  exact .head hmask (.head hzero (.refl _))

/-- Lines 8 and 9: the mask is cleared and the number of bytes returned. -/
theorem reaches_sendEnd {u : State} {p : BitVec 2} {buf n : Word} {ts : List (Temp × Word)} {a : Activation}
    {rest : List Activation} {w : Word} (hagenda : u.agenda = []) (hp : p.toNat < u.params.nports)
    (hprog : u.act.prog = sendLines p buf n) (hcallers : u.host.running.callers = a :: rest)
    (hts : listedAt ts tI = some w) :
    Reaches (u.before 9 ts) { u.setPort p { u.port p with mtxr := false } with host := { u.host with
      result := some (.okValue w)
      running := { u.host.running with act := a.assign u.act.dst w, callers := rest } } } := by
  have hexec : exec (.uartMaskclr p dirTX) (u.before 9 ts) =
      .next ((u.setPort p { u.port p with mtxr := false }).before 9 ts) := by
    rw [exec_uartMaskclr (s := u.before 9 ts) hp, show dirTX.getLsbD 0 = true from rfl,
      show dirTX.getLsbD 1 = false from rfl, Bool.not_true, Bool.not_false, Bool.and_false, Bool.and_true]
    rfl
  have hclear : step (u.before 9 ts) = .next ((u.setPort p { u.port p with mtxr := false }).before 10 ts) :=
    step_before_bus hagenda (congrArg (·[9]?) hprog) rfl rfl (decode_busWord_literal (decide_eq_true hp)) hexec
  have hvalue : evalExpr ts (.tmp tI) = some w := hts
  have hreturn : step ((u.setPort p { u.port p with mtxr := false }).before 10 ts) =
      .next (returnFrom ((u.setPort p { u.port p with mtxr := false }).before 10 ts) (some (.okValue w))) := by
    rw [step_before (s := u.setPort p { u.port p with mtxr := false }) hagenda (congrArg (·[10]?) hprog), runStmt,
      runReturn]
    exact congrArg (fun v => withValue v _) hvalue
  rw [returnFrom_some_of_caller (s := (u.setPort p { u.port p with mtxr := false }).before 10 ts) hcallers] at hreturn
  exact .head hclear (.head hreturn (.refl _))

/-- Settles O55: the loop's invariant, entered with the mask set and left where no more bytes fit or are asked for. -/
theorem sendAcceptsWhatFits : Obligations.SendAcceptsWhatFits := by
  intro s p buf n bytes dst shut hinv hsync hagenda hp hline
  rw [← sendRing_eq p]
  intro r m hbytes
  have hcall := step_of_call hagenda hline rfl
  rw [show seqProgram s.params (.send (p.setWidth 32) buf n) = sendLines p buf n from
    sendProgram_of_present hp buf n] at hcall
  obtain ⟨hordered, -⟩ := RB.inv_iff_ordered.mp (hinv.ring (sendRing p))
  rw [hsync] at hordered
  obtain ⟨u, ts, hloop, hu, hts⟩ := reaches_bytes_sent (c := sendStart s p buf n dst) (n := n) (bytes := bytes)
    (ts₀ := [(tI, 0)]) hagenda hp hsync rfl hinv.ringAw_le hordered rfl hbytes m (Nat.le_refl _)
  obtain ⟨v, ts', hleave, hv, hts'⟩ := reaches_loop_end (c := sendStart s p buf n dst) (n := n) hagenda hp hsync rfl
    hu hts rfl
  obtain ⟨hvagenda, hvparams, hvhost, hvports, hvitc⟩ := hv.frame
  have hport (k : BitVec 2) : v.port k = (sendStart s p buf n dst).port k :=
    congrArg (fun ports => ports[k.toNat]'k.isLt) hvports
  have hend := reaches_sendEnd (u := v) (p := p) (buf := buf) (n := n) (a := s.act.advance)
    (rest := s.host.running.callers) (hvagenda.trans hagenda) (by rw [hvparams]; exact hp)
    (congrArg (fun h => h.running.act.prog) hvhost) (congrArg (fun h => h.running.callers) hvhost) hts'
  obtain ⟨steps, hsteps⟩ := Reaches.head hcall
    ((reaches_sendStart hagenda hp).trans (hloop.trans (hleave.trans hend)))
  refine ⟨steps, _, hsteps, rfl, hv.contents, fun k hk => hv.ring_ne hk, ?_, fun q hq => ?_, ?_, hvitc, ?_, ?_⟩
  · refine (State.port_setPort_self v p _).trans ?_
    rw [hport, sendStart, State.port_setPort_self]
  · refine (State.port_setPort_ne hq v _).trans ?_
    rw [hport, sendStart, State.port_setPort_ne hq]
    rfl
  · exact congrArg (fun h => h.mem) hvhost
  · exact congrArg (fun h => h.below) hvhost
  · exact congrArg (fun h => s.act.advance.assign h.running.act.dst (BitVec.ofNat 32 m)) hvhost

end Sys2Proof.Machine
